-- ==== Sys2Proof/Word.lean ====
section
/-! DEFINITION. The words of the chip (`00_scope.md` R12): a command word and a response data word have
64 bits, an operand word has 32. Values are exact rationals `ℚ` (R10, R13). -/

namespace Sys2Proof

/-- A command word or a response data word (R12). -/
abbrev Word64 := BitVec 64

/-- An operand word `imm`, and the word of a register (R12, R74). -/
abbrev Word32 := BitVec 32

/-- One byte of the serial convention of R72. -/
abbrev Byte := BitVec 8

end Sys2Proof
end

