-- ==== Sys2Proof/Config/Num.lean ====
section
/-! DEFINITION. The parameter record `NUM` of `00_scope.md` R11: four functions on the rationals, the
properties the spec requires of them. -/

namespace Sys2Proof.Config

/-- The four functions of the `NUM` record (R11). -/
structure NumFns where
  /-- the sine of `x` turns -/
  sint : ℚ → ℚ
  /-- two to the power `x` -/
  exp2 : ℚ → ℚ
  /-- the binary logarithm of a positive `x` -/
  log2 : ℚ → ℚ
  /-- `x` to the power `y`, for `0 ≤ x ≤ 1` and `0 < y` -/
  pow  : ℚ → ℚ → ℚ

/-- The frequency of the note `m` under `f` (R126), as the joint property of R11 uses it. -/
def NumFns.noteFreq (f : NumFns) (m : ℚ) : ℚ := 440 * f.exp2 ((m - 69) / 12)

/-- The properties R11 requires, one field for each. -/
structure NumFns.Lawful (f : NumFns) : Prop where
  sint_add_one : ∀ x, f.sint (x + 1) = f.sint x
  sint_neg : ∀ x, f.sint (-x) = -f.sint x
  sint_ge : ∀ x, -1 ≤ f.sint x
  sint_le : ∀ x, f.sint x ≤ 1
  sint_zero : f.sint 0 = 0
  sint_half : f.sint (1 / 2) = 0
  sint_twelfth : f.sint (1 / 12) = 1 / 2
  sint_five_twelfths : f.sint (5 / 12) = 1 / 2
  sint_quarter : f.sint (1 / 4) = 1
  sint_mono : ∀ x y, -(1 / 4) ≤ x → x ≤ y → y ≤ 1 / 4 → f.sint x ≤ f.sint y
  exp2_pos : ∀ x, 0 < f.exp2 x
  exp2_int : ∀ n : ℤ, f.exp2 n = (2 : ℚ) ^ n
  exp2_mono : ∀ x y, x ≤ y → f.exp2 x ≤ f.exp2 y
  log2_zpow : ∀ n : ℤ, f.log2 ((2 : ℚ) ^ n) = n
  log2_mono : ∀ x y, 0 < x → x ≤ y → f.log2 x ≤ f.log2 y
  pow_nat : ∀ x, 0 ≤ x → x ≤ 1 → ∀ n : ℕ, 1 ≤ n → f.pow x n = x ^ n
  pow_zero : ∀ y, 0 < y → f.pow 0 y = 0
  pow_one : ∀ y, 0 < y → f.pow 1 y = 1
  pow_nonneg : ∀ x y, 0 ≤ x → x ≤ 1 → 0 < y → 0 ≤ f.pow x y
  pow_le_one : ∀ x y, 0 ≤ x → x ≤ 1 → 0 < y → f.pow x y ≤ 1
  pow_mono : ∀ w x y, 0 ≤ w → w ≤ x → x ≤ 1 → 0 < y → f.pow w y ≤ f.pow x y
  middle_c : |f.noteFreq 60 - 26163 / 100| < 1 / 100
  round_trip : ∀ n : ℕ, 24 ≤ n → n ≤ 96 →
    |f.noteFreq (69 + 12 * f.log2 (f.noteFreq n / 440)) - f.noteFreq n| < 1 / 100

/-- A `NUM` record that has the required properties. -/
abbrev LawfulNum := { f : NumFns // f.Lawful }

end Sys2Proof.Config
end

