-- ==== Sys2Proof/Config/Witness.lean ====
section
/-! DEFINITION. The properties of `00_scope.md` R11 can be met together: a record of step functions and
straight lines has them all. It shows only that they do not contradict each other; no rule of the model
uses its values and nothing can be proved from them (log 5). -/

namespace Sys2Proof.Config

/-- `x` folded onto the rising quarter turns `[-1/4, 1/4]` of the sine. -/
def foldTurn (x : ℚ) : ℚ :=
  if Int.fract (x + 1 / 4) ≤ 1 / 2 then Int.fract (x + 1 / 4) - 1 / 4
  else 3 / 4 - Int.fract (x + 1 / 4)

/-- Straight lines through (0, 0), (1/12, 1/2) and (1/4, 1), odd. -/
def lineSine (t : ℚ) : ℚ := max (3 * t - 1 / 4) (min (6 * t) (3 * t + 1 / 4))

/-- Twelve rising values from 1, near the twelfth powers of 2. -/
def semitone : ℕ → ℚ
  | 0 => 1
  | 1 => 105946 / 100000
  | 2 => 112246 / 100000
  | 3 => 118921 / 100000
  | 4 => 125992 / 100000
  | 5 => 133484 / 100000
  | 6 => 141421 / 100000
  | 7 => 149831 / 100000
  | 8 => 158740 / 100000
  | 9 => 168179 / 100000
  | 10 => 178180 / 100000
  | _ => 188775 / 100000

/-- The semitone of the octave that `x` falls in. -/
def stepOf (x : ℚ) : ℕ := ⌊12 * Int.fract x⌋.toNat

/-- A rising step function through the powers of two. -/
def stepExp2 (x : ℚ) : ℚ := (2 : ℚ) ^ ⌊x⌋ * semitone (stepOf x)

/-- How many of the eleven upper semitones lie at or below `r`. -/
def countSteps (r : ℚ) : ℕ := ((List.range 11).filter fun k => decide (semitone (k + 1) ≤ r)).length

/-- A rising step function that undoes `stepExp2` at the semitones. -/
def stepLog2 (y : ℚ) : ℚ := (Int.log 2 y : ℚ) + (countSteps (y / (2 : ℚ) ^ Int.log 2 y) : ℚ) / 12

/-- `x` to the next whole power at or above `y`. -/
def ceilPow (x y : ℚ) : ℚ := x ^ ⌈y⌉.toNat

/-- A record that meets R11. -/
def exampleFns : NumFns where
  sint x := lineSine (foldTurn x)
  exp2 := stepExp2
  log2 := stepLog2
  pow := ceilPow

theorem foldTurn_mem (x : ℚ) : -(1 / 4) ≤ foldTurn x ∧ foldTurn x ≤ 1 / 4 := by
  have h0 := Int.fract_nonneg (x + 1 / 4)
  have h1 := Int.fract_lt_one (x + 1 / 4)
  unfold foldTurn
  split <;> constructor <;> linarith

theorem foldTurn_add_one (x : ℚ) : foldTurn (x + 1) = foldTurn x := by
  have h : Int.fract (x + 1 + 1 / 4) = Int.fract (x + 1 / 4) := by
    rw [show x + 1 + 1 / 4 = x + 1 / 4 + 1 by ring, Int.fract_add_one]
  simp only [foldTurn, h]

theorem foldTurn_of_mem {x : ℚ} (h : -(1 / 4) ≤ x) (h' : x ≤ 1 / 4) : foldTurn x = x := by
  have hf : Int.fract (x + 1 / 4) = x + 1 / 4 := Int.fract_eq_self.2 ⟨by linarith, by linarith⟩
  unfold foldTurn
  rw [hf, if_pos (by linarith)]
  ring

theorem foldTurn_of_upper {x : ℚ} (h : 1 / 4 ≤ x) (h' : x < 3 / 4) : foldTurn x = 1 / 2 - x := by
  have hf : Int.fract (x + 1 / 4) = x + 1 / 4 := Int.fract_eq_self.2 ⟨by linarith, by linarith⟩
  unfold foldTurn
  rw [hf]
  split <;> linarith

theorem foldTurn_add_int (x : ℚ) (n : ℤ) : foldTurn (x + n) = foldTurn x := by
  have h : Int.fract (x + n + 1 / 4) = Int.fract (x + 1 / 4) := by
    rw [show x + (n : ℚ) + 1 / 4 = x + 1 / 4 + n by ring, Int.fract_add_intCast]
  simp only [foldTurn, h]

/-- Every turn count is a whole number of turns from one in `[-1/4, 3/4)`. -/
theorem exists_turn (x : ℚ) : ∃ (n : ℤ) (y : ℚ), x = y + n ∧ -(1 / 4) ≤ y ∧ y < 3 / 4 := by
  refine ⟨⌊x + 1 / 4⌋, x - ⌊x + 1 / 4⌋, by ring, ?_, ?_⟩
  · have := Int.floor_le (x + 1 / 4); linarith
  · have := Int.lt_floor_add_one (x + 1 / 4); linarith

theorem foldTurn_neg (x : ℚ) : foldTurn (-x) = -foldTurn x := by
  obtain ⟨n, y, rfl, h1, h2⟩ := exists_turn x
  rw [foldTurn_add_int, show -(y + (n : ℚ)) = -y + (-n : ℤ) by push_cast; ring, foldTurn_add_int]
  rcases le_or_gt y (1 / 4) with h | h
  · rw [foldTurn_of_mem h1 h, foldTurn_of_mem (by linarith) (by linarith)]
  · rw [foldTurn_of_upper h.le h2, ← foldTurn_add_one (-y)]
    rw [foldTurn_of_upper (x := -y + 1) (by linarith) (by linarith)]
    ring

theorem lineSine_neg (t : ℚ) : lineSine (-t) = -lineSine t := by
  unfold lineSine
  rcases le_total (6 * t) (3 * t + 1 / 4) with h | h <;>
    rcases le_total (6 * -t) (3 * -t + 1 / 4) with h' | h' <;>
    simp only [min_eq_left h, min_eq_right h, min_eq_left h', min_eq_right h', max_def] <;>
    split <;> split <;> linarith

theorem lineSine_mono {a b : ℚ} (h : a ≤ b) : lineSine a ≤ lineSine b := by
  unfold lineSine
  exact max_le_max (by linarith) (min_le_min (by linarith) (by linarith))

theorem lineSine_quarter : lineSine (1 / 4) = 1 := by norm_num [lineSine]

theorem semitone_pos (k : ℕ) : 1 ≤ semitone k := by
  unfold semitone; split <;> norm_num

theorem semitone_lt_two (k : ℕ) : semitone k < 2 := by
  unfold semitone; split <;> norm_num

theorem semitone_succ (k : ℕ) : semitone k ≤ semitone (k + 1) := by
  match k with
  | 0 | 1 | 2 | 3 | 4 | 5 | 6 | 7 | 8 | 9 | 10 => norm_num [semitone]
  | n + 11 => simp [semitone]

theorem semitone_mono {j k : ℕ} (h : j ≤ k) : semitone j ≤ semitone k :=
  monotone_nat_of_le_succ semitone_succ h

theorem stepExp2_bounds (x : ℚ) :
    (2 : ℚ) ^ ⌊x⌋ ≤ stepExp2 x ∧ stepExp2 x < (2 : ℚ) ^ (⌊x⌋ + 1) := by
  have hp : (0 : ℚ) < (2 : ℚ) ^ ⌊x⌋ := by positivity
  have h1 := semitone_pos (stepOf x)
  have h2 := semitone_lt_two (stepOf x)
  rw [zpow_add_one₀ (by norm_num)]
  exact ⟨by unfold stepExp2; nlinarith, by unfold stepExp2; nlinarith⟩

theorem stepExp2_mono {x y : ℚ} (h : x ≤ y) : stepExp2 x ≤ stepExp2 y := by
  rcases (Int.floor_le_floor h).lt_or_eq with hf | hf
  · calc stepExp2 x ≤ (2 : ℚ) ^ (⌊x⌋ + 1) := (stepExp2_bounds x).2.le
      _ ≤ (2 : ℚ) ^ ⌊y⌋ := zpow_le_zpow_right₀ (by norm_num) hf
      _ ≤ stepExp2 y := (stepExp2_bounds y).1
  · have hs : stepOf x ≤ stepOf y := by
      unfold stepOf
      refine Int.toNat_le_toNat (Int.floor_le_floor ?_)
      unfold Int.fract
      rw [hf]
      linarith
    unfold stepExp2
    rw [hf]
    exact mul_le_mul_of_nonneg_left (semitone_mono hs) (by positivity)

theorem stepExp2_int (n : ℤ) : stepExp2 n = (2 : ℚ) ^ n := by
  simp [stepExp2, stepOf, semitone]

theorem countSteps_le (r : ℚ) : countSteps r ≤ 11 := by
  unfold countSteps
  exact (List.length_filter_le _ _).trans (by simp)

theorem countSteps_mono {r t : ℚ} (h : r ≤ t) : countSteps r ≤ countSteps t := by
  unfold countSteps
  refine List.Sublist.length_le (List.monotone_filter_right _ ?_)
  intro k hk
  simp only [decide_eq_true_eq] at *
  exact hk.trans h

theorem countSteps_semitone (k : ℕ) (hk : k < 12) : countSteps (semitone k) = k := by
  interval_cases k <;> decide +kernel

theorem stepLog2_zpow (n : ℤ) : stepLog2 ((2 : ℚ) ^ n) = n := by
  have hl : Int.log 2 ((2 : ℚ) ^ n) = n := by exact_mod_cast Int.log_zpow (R := ℚ) (b := 2) (by norm_num) n
  have hc : countSteps 1 = 0 := countSteps_semitone 0 (by norm_num)
  rw [stepLog2, hl, div_self (by positivity), hc]
  simp

theorem stepLog2_mono {x y : ℚ} (hx : 0 < x) (h : x ≤ y) : stepLog2 x ≤ stepLog2 y := by
  have hb : ∀ z : ℚ, (countSteps z : ℚ) / 12 ≤ 11 / 12 := fun z => by
    have : (countSteps z : ℚ) ≤ 11 := by exact_mod_cast countSteps_le z
    linarith
  have hn : ∀ z : ℚ, (0 : ℚ) ≤ (countSteps z : ℚ) / 12 := fun z => by positivity
  rcases (Int.log_mono_right (b := 2) hx h).lt_or_eq with hl | hl
  · have : (Int.log 2 x : ℚ) + 1 ≤ (Int.log 2 y : ℚ) := by exact_mod_cast hl
    have h1 := hb (x / (2 : ℚ) ^ Int.log 2 x)
    have h2 := hn (y / (2 : ℚ) ^ Int.log 2 y)
    unfold stepLog2
    linarith
  · unfold stepLog2
    rw [hl]
    have : countSteps (x / (2 : ℚ) ^ Int.log 2 y) ≤ countSteps (y / (2 : ℚ) ^ Int.log 2 y) :=
      countSteps_mono (by gcongr)
    have : (countSteps (x / (2 : ℚ) ^ Int.log 2 y) : ℚ) ≤ countSteps (y / (2 : ℚ) ^ Int.log 2 y) := by
      exact_mod_cast this
    linarith

theorem stepOf_lt (x : ℚ) : stepOf x < 12 := by
  have h1 := Int.fract_lt_one x
  have h2 : ⌊12 * Int.fract x⌋ < 12 := by
    rw [Int.floor_lt]; push_cast; linarith
  unfold stepOf
  omega

/-- The logarithm undoes the power down to the semitone. -/
theorem stepLog2_stepExp2 (x : ℚ) : stepLog2 (stepExp2 x) = ⌊x⌋ + (stepOf x : ℚ) / 12 := by
  have hp : (0 : ℚ) < (2 : ℚ) ^ ⌊x⌋ := by positivity
  have hpos : 0 < stepExp2 x := hp.trans_le (stepExp2_bounds x).1
  have hl : Int.log 2 (stepExp2 x) = ⌊x⌋ := by
    apply le_antisymm
    · have := (Int.lt_zpow_iff_log_lt (b := 2) (by norm_num) hpos (x := ⌊x⌋ + 1)).1
        (by exact_mod_cast (stepExp2_bounds x).2)
      omega
    · exact (Int.zpow_le_iff_le_log (b := 2) (by norm_num) hpos).1
        (by exact_mod_cast (stepExp2_bounds x).1)
  have hr : stepExp2 x / (2 : ℚ) ^ ⌊x⌋ = semitone (stepOf x) := by
    unfold stepExp2
    field_simp
  rw [stepLog2, hl, hr, countSteps_semitone _ (stepOf_lt x)]

/-- On whole semitones the two undo each other. -/
theorem stepLog2_stepExp2_twelfth (n : ℤ) : stepLog2 (stepExp2 ((n : ℚ) / 12)) = n / 12 := by
  rw [stepLog2_stepExp2]
  have hfr : 12 * Int.fract ((n : ℚ) / 12) = ((n - 12 * ⌊(n : ℚ) / 12⌋ : ℤ) : ℚ) := by
    unfold Int.fract; push_cast; ring
  have hnn : (0 : ℚ) ≤ 12 * Int.fract ((n : ℚ) / 12) := by
    have := Int.fract_nonneg ((n : ℚ) / 12); linarith
  have hz : (0 : ℤ) ≤ n - 12 * ⌊(n : ℚ) / 12⌋ := by rw [hfr] at hnn; exact_mod_cast hnn
  have hs : (stepOf ((n : ℚ) / 12) : ℤ) = n - 12 * ⌊(n : ℚ) / 12⌋ := by
    rw [stepOf, hfr, Int.floor_intCast, Int.toNat_of_nonneg hz]
  have hs' : (stepOf ((n : ℚ) / 12) : ℚ) = n - 12 * ⌊(n : ℚ) / 12⌋ := by
    have := congrArg (Int.cast : ℤ → ℚ) hs
    push_cast at this
    exact this
  rw [hs']
  ring

theorem exampleFns_lawful : exampleFns.Lawful where
  sint_add_one x := by simp only [exampleFns, foldTurn_add_one]
  sint_neg x := by simp only [exampleFns, foldTurn_neg, lineSine_neg]
  sint_ge x := by
    have h := lineSine_mono (foldTurn_mem x).1
    rw [lineSine_neg, lineSine_quarter] at h
    exact h
  sint_le x := lineSine_quarter ▸ lineSine_mono (foldTurn_mem x).2
  sint_zero := by
    have h : foldTurn 0 = 0 := foldTurn_of_mem (by norm_num) (by norm_num)
    simp only [exampleFns, h]
    norm_num [lineSine]
  sint_half := by
    have h : foldTurn (1 / 2) = 1 / 2 - 1 / 2 := foldTurn_of_upper (by norm_num) (by norm_num)
    simp only [exampleFns, h]
    norm_num [lineSine]
  sint_twelfth := by
    have h : foldTurn (1 / 12) = 1 / 12 := foldTurn_of_mem (by norm_num) (by norm_num)
    simp only [exampleFns, h]
    norm_num [lineSine]
  sint_five_twelfths := by
    have h : foldTurn (5 / 12) = 1 / 2 - 5 / 12 := foldTurn_of_upper (by norm_num) (by norm_num)
    simp only [exampleFns, h]
    norm_num [lineSine]
  sint_quarter := by
    have h : foldTurn (1 / 4) = 1 / 4 := foldTurn_of_mem (by norm_num) (by norm_num)
    simp only [exampleFns, h, lineSine_quarter]
  sint_mono x y h1 h2 h3 := by
    simp only [exampleFns]
    rw [foldTurn_of_mem h1 (h2.trans h3), foldTurn_of_mem (h1.trans h2) h3]
    exact lineSine_mono h2
  exp2_pos x := lt_of_lt_of_le (by positivity) (stepExp2_bounds x).1
  exp2_int := stepExp2_int
  exp2_mono _ _ := stepExp2_mono
  log2_zpow := stepLog2_zpow
  log2_mono _ _ := stepLog2_mono
  pow_nat x _ _ n _ := by simp [exampleFns, ceilPow]
  pow_zero y hy := by
    have : 0 < ⌈y⌉ := Int.ceil_pos.2 hy
    simp only [exampleFns, ceilPow]
    exact zero_pow (by omega)
  pow_one y _ := by simp [exampleFns, ceilPow]
  pow_nonneg x y h0 _ _ := pow_nonneg h0 _
  pow_le_one x y h0 h1 _ := pow_le_one₀ h0 h1
  pow_mono w x y h0 h1 _ _ := pow_le_pow_left₀ h0 h1 _
  middle_c := by
    have h1 : ((60 : ℚ) - 69) / 12 = -(3 / 4) := by norm_num
    have h2 : ⌊(-(3 / 4) : ℚ)⌋ = -1 := by rw [Int.floor_eq_iff]; norm_num
    have h3 : stepOf (-(3 / 4)) = 3 := by
      simp only [stepOf, Int.fract, h2]
      norm_num
      rfl
    simp only [NumFns.noteFreq, exampleFns, h1, stepExp2, h2, h3, semitone]
    rw [abs_lt]
    constructor <;> norm_num
  round_trip n _ _ := by
    have h : ((n : ℚ) - 69) / 12 = ((n - 69 : ℤ) : ℚ) / 12 := by push_cast; ring
    have h440 : ∀ z : ℚ, 440 * z / 440 = z := fun z => by ring
    simp only [NumFns.noteFreq, exampleFns, h, h440, stepLog2_stepExp2_twelfth]
    rw [show (69 + 12 * (((n - 69 : ℤ) : ℚ) / 12) - 69) / 12 = ((n - 69 : ℤ) : ℚ) / 12 by ring, sub_self]
    norm_num

end Sys2Proof.Config
end

