-- ==== Sys2Proof/Config.lean ====
section
/-! DEFINITION. What an implementation fixes and what the spec leaves open (`00_scope.md` R9, R11;
`93_implementation_defined.md` U1, U4, U6). The parameters are data that a state carries and no command changes
(log 4); the opaque constants are free values: no proof can see what they are. -/

namespace Sys2Proof.Config

/-- The parameters of R9 that are plain data. `N_CH` is the number of channels a state holds, and `NUM` is
`num` below; `Params.Legal` of `Safety.lean` says which values R9 allows. -/
structure Params where
  /-- `WT_MAX`, the entries of a wavetable and of its staging RAM (R47) -/
  wtMax : ℕ
  /-- `K_MAX`, the knots of an envelope and of its staging RAM (R50) -/
  kMax : ℕ
  /-- `TAPS[3 .. 32]` (`44_noise_lfsr.md` R263) -/
  taps : Vector Word32 30
  /-- `FALLBACK_SEED`, used when a seed masks to zero (R261) -/
  fallbackSeed : Word32
  /-- `ENV_EPS`, the width at or below which a loop range is degenerate (R147) -/
  envEps : ℚ
  deriving DecidableEq, Repr

/-- `TAPS[n]` for `3 ≤ n ≤ 32` (R263). No rule asks for another `n` (log 16). -/
def Params.tap (p : Params) (n : ℕ) : Word32 := p.taps.toList.getD (n - 3) 0

/-! ## The defaults of R9 -/

/-- `N_CH`, the number of channel slots (R9, R31). -/
def defaultChannels : ℕ := 8

/-- The table of R263. -/
def defaultTaps : Vector Word32 30 :=
  #v[0x00000006, 0x0000000C, 0x00000014, 0x00000030, 0x00000060, 0x000000B8,
    0x00000110, 0x00000240, 0x00000500, 0x00000E08, 0x00001C80, 0x00003802,
    0x00006000, 0x0000B400, 0x00012000, 0x00020400, 0x00072000, 0x00090000,
    0x00140000, 0x00300000, 0x00420000, 0x00E10000, 0x01200000, 0x02000023,
    0x04000013, 0x09000000, 0x14000000, 0x20000029, 0x48000000, 0x80200003]

/-- The defaults of R9, which the test vectors of `95_test_vectors.md` assume. -/
def defaults : Params where
  wtMax := 256
  kMax := 32
  taps := defaultTaps
  fallbackSeed := 1
  envEps := 1 / 1048576

/-! ## Free values -/

/-- The `NUM` record of the hardware: any record with the properties of R11. The constant has no body;
the argument only says that such records exist. -/
opaque numOf [Inhabited LawfulNum] : LawfulNum

/-- `NUM` (R11, log 5). Outside the points R11 fixes, its values are free (U6). -/
def num : LawfulNum := @numOf ⟨⟨exampleFns, exampleFns_lawful⟩⟩

/-- What an entry of the wavetable staging RAM holds that nothing has written since reset, as the
command numbered `cmd` reads entry `i` of channel `ch` (R361, U4, log 8). -/
opaque unwrittenSample (cmd ch i : ℕ) : Word32

/-- The time word of a staged knot that nothing has written since reset (R361, U4, log 8). -/
opaque unwrittenKnotTime (cmd ch slot k : ℕ) : Word32

/-- The value word of a staged knot that nothing has written since reset (R361, U4, log 8). -/
opaque unwrittenKnotValue (cmd ch slot k : ℕ) : Word32

/-- The interpolation bit (true: Step) of a staged knot that nothing has written since reset (R361, U4,
log 8). -/
opaque unwrittenKnotStep (cmd ch slot k : ℕ) : Bool

/-- What a LoopPoints or Echo envelope answers, after its first knot, to the query numbered `n` of its slot
when the query times have gone backwards since its last reset (R155, R370, U1, log 9). -/
opaque strayPeek (ch slot n : ℕ) : ℚ

end Sys2Proof.Config
end

