-- ==== Sys2Proof/Syntax.lean ====
section
/-! DEFINITION. The 36 commands of `30_encoding.md` R98, one constructor per row of the opcode table. The
operands are the fields of R91, R92 and R97; bits that must be zero are no operands. -/

namespace Sys2Proof

/-- A knot's interpolation (`41_envelope.md` R140, R157). -/
inductive Interp where
  /-- operand 0 -/
  | linear
  /-- operand 1 -/
  | step
  deriving DecidableEq, Repr

/-- An envelope's loop kind (R140), in the order of the `kind` field of the loopword (R94, R158). -/
inductive LoopKind where
  /-- kind 0, `None`: hold the last value -/
  | hold
  /-- kind 1, `Repeat`: the whole shape repeats -/
  | cycle
  /-- kind 2, `LoopPoints`: sustain between two knots, then the tail -/
  | loopPoints
  /-- kind 3, `Echo`: sustain, then decaying repeats of the whole shape -/
  | echo
  deriving DecidableEq, Repr

/-- A command. `ch` is the channel slot, `idx` a register number, table index or bit length, `slot` an
envelope slot, `k` a staged knot index, `imm` the operand word in the format the command's rule names,
`rst` the force-reset flag of the pitch commands (R91). -/
inductive Instr where
  | nop
  | rreg (ch : BitVec 8) (idx : BitVec 16)
  | wreg (ch : BitVec 8) (idx : BitVec 16) (imm : Word32)
  | rglb (idx : BitVec 16)
  | wglb (idx : BitVec 16) (imm : Word32)
  | tick
  | iter (imm : Word32)
  | chInit (ch : BitVec 8)
  | play (ch : BitVec 8)
  | stop (ch : BitVec 8)
  | release (ch : BitVec 8)
  | reset (ch : BitVec 8)
  | setNote (ch : BitVec 8) (rst : Bool) (octave note : BitVec 16)
  | setMidi (ch : BitVec 8) (rst : Bool) (imm : Word32)
  | setPitch (ch : BitVec 8) (rst : Bool) (imm : Word32)
  | setVol (ch : BitVec 8) (imm : Word32)
  | setPan (ch : BitVec 8) (imm : Word32)
  | setNoise (ch : BitVec 8) (on : Bool)
  | isNoise (ch : BitVec 8)
  | csample (ch : BitVec 8) (imm : Word32)
  | wtStage (ch : BitVec 8) (idx : BitVec 16) (imm : Word32)
  | wtCommit (ch : BitVec 8) (imm : Word32)
  | wtFromEnv (ch : BitVec 8)
  | envKnotT (ch : BitVec 8) (slot : BitVec 4) (k : BitVec 12) (imm : Word32)
  | envKnotV (ch : BitVec 8) (slot : BitVec 4) (k : BitVec 12) (imm : Word32)
  | envKnotI (ch : BitVec 8) (slot : BitVec 4) (k : BitVec 12) (interp : Interp)
  | envLoop (ch : BitVec 8) (slot : BitVec 4) (kind : LoopKind) (loopIn loopOut : BitVec 12)
  | envDecay (ch : BitVec 8) (slot : BitVec 4) (imm : Word32)
  | envBuild (ch : BitVec 8) (slot : BitVec 4) (imm : Word32)
  | envClear (ch : BitVec 8) (slot : BitVec 4)
  | envReset (ch : BitVec 8) (slot : BitVec 4)
  | envRelease (ch : BitVec 8) (slot : BitVec 4)
  | envPeek (ch : BitVec 8) (slot : BitVec 4) (imm : Word32)
  | lfsrInit (ch : BitVec 8) (idx : BitVec 16) (imm : Word32)
  | lfsrStep (ch : BitVec 8)
  | lfsrOut (ch : BitVec 8)
  deriving DecidableEq, Repr

end Sys2Proof
end

