-- ==== Sys2Proof/WellFormed.lean ====
section
/-! DEFINITION. Which commands name operands that exist: the checks (3) and (4) of `30_encoding.md` R105
that look at the command alone, one line per cause of `60_exceptions.md` R333. A command that fails one
is no illegal encoding: it decodes, and its meaning answers `E_BAD_OPERAND`. -/

namespace Sys2Proof

/-- `ch < N_CH` (R333). -/
abbrev chExists (nCh : ℕ) (ch : BitVec 8) : Bool := decide (ch.toNat < nCh)

/-- `slot ≤ 3` (R108 (b), R333). -/
abbrev slotExists (slot : BitVec 4) : Bool := decide (slot.toNat < 4)

/-- `k < K_MAX` (R333). -/
abbrev knotExists (p : Config.Params) (k : BitVec 12) : Bool := decide (k.toNat < p.kMax)

/-- The channel registers that may be written (`10_state.md` R40): staged profile and live registers. -/
def regWritable (idx : BitVec 16) : Bool :=
  decide (idx.toNat ≤ 0x15) || (decide (0x20 ≤ idx.toNat) && decide (idx.toNat ≤ 0x26))

/-- The channel registers that exist (R40). -/
def regReadable (idx : BitVec 16) : Bool :=
  regWritable idx || (decide (0x40 ≤ idx.toNat) && decide (idx.toNat ≤ 0x4C)) ||
    (decide (0x60 ≤ idx.toNat) && decide (idx.toNat ≤ 0x75))

/-- The operands of the command name something and have a legal value, as far as the command alone
shows, on a chip of `nCh` channels with the parameters `p` (R9). -/
def Instr.wellFormed (nCh : ℕ) (p : Config.Params) : Instr → Bool
  | .nop | .tick | .iter _ => true
  | .rreg ch idx => chExists nCh ch && regReadable idx
  | .wreg ch idx _ => chExists nCh ch && regWritable idx
  | .rglb idx => decide (idx.toNat ≤ 5)
  | .wglb idx imm => decide (idx.toNat ≤ 1) && decide (imm ≠ 0)
  | .chInit ch | .play ch | .stop ch | .release ch | .reset ch | .isNoise ch | .wtFromEnv ch
  | .lfsrStep ch | .lfsrOut ch => chExists nCh ch
  | .setNote ch _ _ _ | .setMidi ch _ _ | .setVol ch _ | .setPan ch _ | .setNoise ch _
  | .csample ch _ | .lfsrInit ch _ _ => chExists nCh ch
  | .setPitch ch _ imm => chExists nCh ch && decide (imm ≠ 0)
  | .wtStage ch idx _ => chExists nCh ch && decide (idx.toNat < p.wtMax)
  | .wtCommit ch imm => chExists nCh ch && decide (imm.toNat ≠ 0) && decide (imm.toNat ≤ p.wtMax)
  | .envKnotT ch slot k _ | .envKnotV ch slot k _ | .envKnotI ch slot k _ =>
    chExists nCh ch && slotExists slot && knotExists p k
  | .envLoop ch slot _ _ _ | .envDecay ch slot _ | .envClear ch slot | .envReset ch slot
  | .envRelease ch slot | .envPeek ch slot _ => chExists nCh ch && slotExists slot
  | .envBuild ch slot imm =>
    chExists nCh ch && slotExists slot && decide (imm.toNat ≠ 0) && decide (imm.toNat ≤ p.kMax)

end Sys2Proof
end

