-- ==== Sys2Proof/Decode.lean ====
section
/-! DEFINITION. Decoding and encoding of command words (`30_encoding.md` R90 to R98, R105 to R107), and
the serial byte order of `20_memory.md` R72. Decoding is total: a word is one command or is illegal. -/

namespace Sys2Proof

/-- Why a word is no command. Both are answered with `E_ILLEGAL_COMMAND` (R105, R331). -/
inductive DecodeError where
  /-- `op` is not in the opcode map (R107) -/
  | reservedOpcode (op : BitVec 8)
  /-- a must-be-zero bit of the opcode's format is one (R106) -/
  | reservedBits (op : BitVec 8)
  deriving DecidableEq, Repr

/-! ## Fields (R91) -/

/-- `w[63:56]` -/
def fieldOp (w : Word64) : BitVec 8 := w.extractLsb' 56 8
/-- `w[55:48]` -/
def fieldCh (w : Word64) : BitVec 8 := w.extractLsb' 48 8
/-- `w[47:32]` -/
def fieldIdx (w : Word64) : BitVec 16 := w.extractLsb' 32 16
/-- `w[31:0]` -/
def fieldImm (w : Word64) : Word32 := w.extractLsb' 0 32
/-- `slot = idx[15:12]` -/
def fieldSlot (w : Word64) : BitVec 4 := w.extractLsb' 44 4
/-- `k = idx[11:0]` -/
def fieldK (w : Word64) : BitVec 12 := w.extractLsb' 32 12
/-- `rst = idx[0]` -/
def fieldRst (w : Word64) : Bool := w.getLsbD 32

/-- The loop kind of `imm[1:0]` (R158). -/
def loopKindOf (v : BitVec 2) : LoopKind :=
  match v.toNat with
  | 0 => .hold
  | 1 => .cycle
  | 2 => .loopPoints
  | _ => .echo

/-- The two bits of a loop kind (R158). -/
def loopKindBits : LoopKind → BitVec 2
  | .hold => 0
  | .cycle => 1
  | .loopPoints => 2
  | .echo => 3

/-- The interpolation of `imm[0]` (R157). -/
def interpOf (b : Bool) : Interp := if b then .step else .linear

/-- The bit of an interpolation (R157). -/
def interpBit : Interp → Bool
  | .linear => false
  | .step => true

/-! ## Decoding -/

/-- The command `i`, if every bit its format reserves is zero (R106). -/
def accept (w : Word64) (mustBeZero : Bool) (i : Instr) : Except DecodeError Instr :=
  if mustBeZero then .ok i else .error (.reservedBits (fieldOp w))

/-- The command a word is (R98), or why it is none (R105 (1) and (2)). The condition of each row says
which fields its format leaves unused (R92, R97). -/
def decode (w : Word64) : Except DecodeError Instr :=
  let ch := fieldCh w
  let idx := fieldIdx w
  let imm := fieldImm w
  let slot := fieldSlot w
  let k := fieldK w
  let formatZ := decide (ch = 0) && decide (idx = 0) && decide (imm = 0)
  let formatC := decide (idx = 0) && decide (imm = 0)
  let formatCM := decide (idx = 0)
  let formatCF := decide (idx.extractLsb' 1 15 = 0)
  match (fieldOp w).toNat with
  | 0x00 => accept w formatZ .nop
  | 0x01 => accept w (decide (imm = 0)) (.rreg ch idx)
  | 0x02 => accept w true (.wreg ch idx imm)
  | 0x03 => accept w (decide (ch = 0) && decide (imm = 0)) (.rglb idx)
  | 0x04 => accept w (decide (ch = 0)) (.wglb idx imm)
  | 0x10 => accept w formatZ .tick
  | 0x11 => accept w (decide (ch = 0) && decide (idx = 0)) (.iter imm)
  | 0x20 => accept w formatC (.chInit ch)
  | 0x21 => accept w formatC (.play ch)
  | 0x22 => accept w formatC (.stop ch)
  | 0x23 => accept w formatC (.release ch)
  | 0x24 => accept w formatC (.reset ch)
  | 0x25 => accept w formatCF (.setNote ch (fieldRst w) (imm.extractLsb' 16 16) (imm.extractLsb' 0 16))
  | 0x26 => accept w formatCF (.setMidi ch (fieldRst w) imm)
  | 0x27 => accept w formatCF (.setPitch ch (fieldRst w) imm)
  | 0x28 => accept w formatCM (.setVol ch imm)
  | 0x29 => accept w formatCM (.setPan ch imm)
  | 0x2A => accept w (formatCM && decide (imm.extractLsb' 1 31 = 0)) (.setNoise ch (imm.getLsbD 0))
  | 0x2B => accept w formatC (.isNoise ch)
  | 0x2C => accept w formatCM (.csample ch imm)
  | 0x30 => accept w true (.wtStage ch idx imm)
  | 0x31 => accept w formatCM (.wtCommit ch imm)
  | 0x32 => accept w formatC (.wtFromEnv ch)
  | 0x40 => accept w true (.envKnotT ch slot k imm)
  | 0x41 => accept w true (.envKnotV ch slot k imm)
  | 0x42 => accept w (decide (imm.extractLsb' 1 31 = 0)) (.envKnotI ch slot k (interpOf (imm.getLsbD 0)))
  | 0x43 =>
    accept w (decide (k = 0) && decide (imm.extractLsb' 2 2 = 0) && decide (imm.extractLsb' 28 4 = 0))
      (.envLoop ch slot (loopKindOf (imm.extractLsb' 0 2)) (imm.extractLsb' 4 12) (imm.extractLsb' 16 12))
  | 0x44 => accept w (decide (k = 0)) (.envDecay ch slot imm)
  | 0x45 => accept w (decide (k = 0)) (.envBuild ch slot imm)
  | 0x46 => accept w (decide (k = 0) && decide (imm = 0)) (.envClear ch slot)
  | 0x47 => accept w (decide (k = 0) && decide (imm = 0)) (.envReset ch slot)
  | 0x48 => accept w (decide (k = 0) && decide (imm = 0)) (.envRelease ch slot)
  | 0x49 => accept w (decide (k = 0)) (.envPeek ch slot imm)
  | 0x50 => accept w true (.lfsrInit ch idx imm)
  | 0x51 => accept w formatC (.lfsrStep ch)
  | 0x52 => accept w formatC (.lfsrOut ch)
  | _ => .error (.reservedOpcode (fieldOp w))

/-! ## Encoding -/

/-- The word of the four fields (R91). -/
def word (op ch : BitVec 8) (idx : BitVec 16) (imm : Word32) : Word64 := op ++ ch ++ idx ++ imm

/-- The word of an envelope command (R91, R97). -/
def wordCS (op ch : BitVec 8) (slot : BitVec 4) (k : BitVec 12) (imm : Word32) : Word64 :=
  word op ch (slot ++ k) imm

/-- The `idx` field of a pitch command (R91). -/
def rstIdx (rst : Bool) : BitVec 16 := if rst then 1 else 0

/-- The operand word of a Boolean (R94). -/
def boolImm (b : Bool) : Word32 := if b then 1 else 0

/-- The loopword (R94). -/
def loopword (kind : LoopKind) (loopIn loopOut : BitVec 12) : Word32 :=
  (0 : BitVec 4) ++ loopOut ++ loopIn ++ (0 : BitVec 2) ++ loopKindBits kind

/-- The word of a command (R98), every reserved bit zero. -/
def encode : Instr → Word64
  | .nop => word 0x00 0 0 0
  | .rreg ch idx => word 0x01 ch idx 0
  | .wreg ch idx imm => word 0x02 ch idx imm
  | .rglb idx => word 0x03 0 idx 0
  | .wglb idx imm => word 0x04 0 idx imm
  | .tick => word 0x10 0 0 0
  | .iter imm => word 0x11 0 0 imm
  | .chInit ch => word 0x20 ch 0 0
  | .play ch => word 0x21 ch 0 0
  | .stop ch => word 0x22 ch 0 0
  | .release ch => word 0x23 ch 0 0
  | .reset ch => word 0x24 ch 0 0
  | .setNote ch rst octave note => word 0x25 ch (rstIdx rst) (octave ++ note)
  | .setMidi ch rst imm => word 0x26 ch (rstIdx rst) imm
  | .setPitch ch rst imm => word 0x27 ch (rstIdx rst) imm
  | .setVol ch imm => word 0x28 ch 0 imm
  | .setPan ch imm => word 0x29 ch 0 imm
  | .setNoise ch on => word 0x2A ch 0 (boolImm on)
  | .isNoise ch => word 0x2B ch 0 0
  | .csample ch imm => word 0x2C ch 0 imm
  | .wtStage ch idx imm => word 0x30 ch idx imm
  | .wtCommit ch imm => word 0x31 ch 0 imm
  | .wtFromEnv ch => word 0x32 ch 0 0
  | .envKnotT ch slot k imm => wordCS 0x40 ch slot k imm
  | .envKnotV ch slot k imm => wordCS 0x41 ch slot k imm
  | .envKnotI ch slot k interp => wordCS 0x42 ch slot k (boolImm (interpBit interp))
  | .envLoop ch slot kind loopIn loopOut => wordCS 0x43 ch slot 0 (loopword kind loopIn loopOut)
  | .envDecay ch slot imm => wordCS 0x44 ch slot 0 imm
  | .envBuild ch slot imm => wordCS 0x45 ch slot 0 imm
  | .envClear ch slot => wordCS 0x46 ch slot 0 0
  | .envReset ch slot => wordCS 0x47 ch slot 0 0
  | .envRelease ch slot => wordCS 0x48 ch slot 0 0
  | .envPeek ch slot imm => wordCS 0x49 ch slot 0 imm
  | .lfsrInit ch idx imm => word 0x50 ch idx imm
  | .lfsrStep ch => word 0x51 ch 0 0
  | .lfsrOut ch => word 0x52 ch 0 0

/-! ## The opcode table in mask and pattern form -/

/-- A row of the opcode table (R98): the word `w` is a command of the row when `w &&& mask = pattern`.
The mask holds the opcode and every bit that must be zero (R92, R97). -/
structure OpcodeRow where
  mnemonic : String
  pattern : Word64
  mask : Word64
  deriving DecidableEq, Repr

/-- The opcode table, as `opcode_table.json` gives it. The decoder does not use it; that the two agree is
a statement of its own. -/
def opcodeTable : List OpcodeRow :=
  [ ⟨"NOP", 0x0000000000000000, 0xFFFFFFFFFFFFFFFF⟩,
    ⟨"RREG", 0x0100000000000000, 0xFF000000FFFFFFFF⟩,
    ⟨"WREG", 0x0200000000000000, 0xFF00000000000000⟩,
    ⟨"RGLB", 0x0300000000000000, 0xFFFF0000FFFFFFFF⟩,
    ⟨"WGLB", 0x0400000000000000, 0xFFFF000000000000⟩,
    ⟨"TICK", 0x1000000000000000, 0xFFFFFFFFFFFFFFFF⟩,
    ⟨"ITER", 0x1100000000000000, 0xFFFFFFFF00000000⟩,
    ⟨"CH_INIT", 0x2000000000000000, 0xFF00FFFFFFFFFFFF⟩,
    ⟨"PLAY", 0x2100000000000000, 0xFF00FFFFFFFFFFFF⟩,
    ⟨"STOP", 0x2200000000000000, 0xFF00FFFFFFFFFFFF⟩,
    ⟨"RELEASE", 0x2300000000000000, 0xFF00FFFFFFFFFFFF⟩,
    ⟨"RESET", 0x2400000000000000, 0xFF00FFFFFFFFFFFF⟩,
    ⟨"SET_NOTE", 0x2500000000000000, 0xFF00FFFE00000000⟩,
    ⟨"SET_MIDI", 0x2600000000000000, 0xFF00FFFE00000000⟩,
    ⟨"SET_PITCH", 0x2700000000000000, 0xFF00FFFE00000000⟩,
    ⟨"SET_VOL", 0x2800000000000000, 0xFF00FFFF00000000⟩,
    ⟨"SET_PAN", 0x2900000000000000, 0xFF00FFFF00000000⟩,
    ⟨"SET_NOISE", 0x2A00000000000000, 0xFF00FFFFFFFFFFFE⟩,
    ⟨"IS_NOISE", 0x2B00000000000000, 0xFF00FFFFFFFFFFFF⟩,
    ⟨"CSAMPLE", 0x2C00000000000000, 0xFF00FFFF00000000⟩,
    ⟨"WT_STAGE", 0x3000000000000000, 0xFF00000000000000⟩,
    ⟨"WT_COMMIT", 0x3100000000000000, 0xFF00FFFF00000000⟩,
    ⟨"WT_FROM_ENV", 0x3200000000000000, 0xFF00FFFFFFFFFFFF⟩,
    ⟨"ENV_KNOT_T", 0x4000000000000000, 0xFF00000000000000⟩,
    ⟨"ENV_KNOT_V", 0x4100000000000000, 0xFF00000000000000⟩,
    ⟨"ENV_KNOT_I", 0x4200000000000000, 0xFF000000FFFFFFFE⟩,
    ⟨"ENV_LOOP", 0x4300000000000000, 0xFF000FFFF000000C⟩,
    ⟨"ENV_DECAY", 0x4400000000000000, 0xFF000FFF00000000⟩,
    ⟨"ENV_BUILD", 0x4500000000000000, 0xFF000FFF00000000⟩,
    ⟨"ENV_CLEAR", 0x4600000000000000, 0xFF000FFFFFFFFFFF⟩,
    ⟨"ENV_RESET", 0x4700000000000000, 0xFF000FFFFFFFFFFF⟩,
    ⟨"ENV_RELEASE", 0x4800000000000000, 0xFF000FFFFFFFFFFF⟩,
    ⟨"ENV_PEEK", 0x4900000000000000, 0xFF000FFF00000000⟩,
    ⟨"LFSR_INIT", 0x5000000000000000, 0xFF00000000000000⟩,
    ⟨"LFSR_STEP", 0x5100000000000000, 0xFF00FFFFFFFFFFFF⟩,
    ⟨"LFSR_OUT", 0x5200000000000000, 0xFF00FFFFFFFFFFFF⟩ ]

/-! ## The host's numbering and the serial form -/

/-- The command word of the low `nbits` bits of `w`, every bit above them zero. -/
def wordOfBits (nbits w : ℕ) : Word64 := BitVec.ofNat 64 (w % 2 ^ nbits)

/-- The command the decoder reads from the word of bits `w`, if any. -/
def decodeTableWord (nbits w : ℕ) : Option Instr :=
  match decode (wordOfBits nbits w) with
  | .ok i => some i
  | .error _ => none

/-- A word as bytes, most significant first (R72). -/
def wordBytes (w : Word64) : List Byte :=
  [w.extractLsb' 56 8, w.extractLsb' 48 8, w.extractLsb' 40 8, w.extractLsb' 32 8,
    w.extractLsb' 24 8, w.extractLsb' 16 8, w.extractLsb' 8 8, w.extractLsb' 0 8]

/-- The word of eight bytes, most significant first (R72). -/
def wordOfBytes : List Byte → Option Word64
  | [b7, b6, b5, b4, b3, b2, b1, b0] => some (b7 ++ b6 ++ b5 ++ b4 ++ b3 ++ b2 ++ b1 ++ b0)
  | _ => none

/-- A PCM frame as bytes: left then right, each most significant first (R72, R76). -/
def frameBytes (l r : ℤ) : List Byte :=
  let lw := BitVec.ofInt 16 l
  let rgt := BitVec.ofInt 16 r
  [lw.extractLsb' 8 8, lw.extractLsb' 0 8, rgt.extractLsb' 8 8, rgt.extractLsb' 0 8]

end Sys2Proof
end

