-- ==== Sys2Proof/Machine/State.lean ====
section
/-! DEFINITION. The state of the chip (`10_state.md` R30), as plain data, and the state after hardware
reset (`70_reset_and_hazards.md` R360). INVENTORY.md lists every field with its rule. -/

namespace Sys2Proof.Machine

/-- The chip never stops: every 64-bit word, and every operand of every command, has an answer with a
status (R105, R331, R338), so there is no fault to raise. Safe: an empty type forbids a stop, it allows
no claim the spec does not (log 19). -/
inductive Fault where
  deriving DecidableEq, Repr

/-- Why a step may refuse an instruction. -/
inductive Refusal where
  /-- the instruction named has no meaning yet; raised by no arm of `exec`, since all 36 have theirs.
  Safe: a refusal allows no claim. -/
  | notModelled (mnemonic : String)
  deriving DecidableEq, Repr

/-- The five status codes of a response (`30_encoding.md` R96). -/
inductive Status where
  /-- 0 `OK` -/
  | ok
  /-- 1 `E_INVALID_WAVETABLE` -/
  | invalidWavetable
  /-- 2 `E_INVALID_ENVELOPE` -/
  | invalidEnvelope
  /-- 3 `E_ILLEGAL_COMMAND` -/
  | illegalCommand
  /-- 4 `E_BAD_OPERAND` -/
  | badOperand
  deriving DecidableEq, Repr

/-- The response of a command (R93). -/
structure Response where
  status : Status
  data : Word64
  deriving DecidableEq, Repr

/-- A frame of the PCM stream, two signed integers (`20_memory.md` R76). -/
structure PcmFrame where
  left : ℤ
  right : ℤ
  deriving DecidableEq, Repr

/-- A staging RAM: the entries written since reset, by rising index (R70, log 11). An index that is not
listed has not been written and holds no value (R361). -/
abbrev Memory (α : Type) := List (ℕ × α)

/-- The variants of the profile's noise kind that a channel can have in force (`10_state.md` R41). -/
inductive NoiseKind where
  /-- 0 `None` -/
  | silent
  /-- 1 `Random` -/
  | random
  /-- 2 `Melodic` -/
  | melodic
  deriving DecidableEq, Repr

/-- The active profile `A_*`, interpreted values (R42). -/
structure Profile where
  wtLen : ℕ
  wtSteps : ℕ
  wtLoop : Bool
  panSteps : ℕ
  pitchMult : ℚ
  pitchLo : ℚ
  pitchHi : ℚ
  pitchSteps : ℕ
  volAttn : ℚ
  volExp : ℚ
  volGain : ℚ
  volNonneg : Bool
  volSteps : ℕ
  noiseKind : NoiseKind
  noiseLen : ℕ
  noiseVsteps : ℕ
  noisePmult : ℚ
  noisePsteps : ℕ
  noisePlo : ℚ
  noisePhi : ℚ
  envRate : ℚ
  lfsrSeed : Word32
  deriving DecidableEq, Repr

/-- The live sound registers (R44). -/
structure Live where
  tremAmp : ℚ
  tremFreq : ℚ
  tremSteps : ℕ
  vibAmp : ℚ
  vibFreq : ℚ
  vibSteps : ℕ
  pitchDepth : ℚ
  deriving DecidableEq, Repr

/-- One noise generator (R48, `44_noise_lfsr.md` R260): length, seed and register. -/
structure Lfsr where
  n : ℕ
  seed : Word32
  state : Word32
  deriving DecidableEq, Repr

/-- A knot of an envelope (`41_envelope.md` R140). -/
structure Knot where
  time : ℚ
  value : ℚ
  interp : Interp
  deriving DecidableEq, Repr

/-- A present envelope (R50, R140). `lastQuery` and `strayed` are the model's own: the last query time
since the last reset, and whether the times have gone backwards since (R155, log 9). -/
structure Envelope where
  knots : List Knot
  kind : LoopKind
  loopIn : BitVec 12
  loopOut : BitVec 12
  decay : ℚ
  head : ℕ
  release : Bool
  captured : Bool
  relTime : ℚ
  relPos : ℚ
  lastQuery : Option ℚ
  strayed : Bool
  deriving DecidableEq, Repr

/-- An envelope slot: the envelope it holds, if any, and its staging area (R50). `peeks` is the model's
own: the number of queries the slot has answered (log 9). -/
structure EnvSlot where
  env : Option Envelope
  sknotTime : Memory Word32
  sknotValue : Memory Word32
  sknotInterp : Memory Interp
  skind : LoopKind
  sloopIn : BitVec 12
  sloopOut : BitVec 12
  sdecay : ℚ
  peeks : ℕ
  deriving DecidableEq, Repr

/-- The full state of one voice (R41 to R50). -/
structure Channel where
  staged : Vector Word32 22
  active : Profile
  live : Live
  playing : Bool
  released : Bool
  noiseOn : Bool
  dirty : Bool
  volume : ℚ
  pan : ℚ
  frequency : ℚ
  midiNote : ℚ
  tonePeriod : ℚ
  noisePeriod : ℚ
  toneTime : ℚ
  noiseTime : ℚ
  envTime : ℚ
  lastRefresh : Option ℚ
  snapVol : ℚ
  snapTonePeriod : ℚ
  snapNoisePeriod : ℚ
  leftMult : ℚ
  rightMult : ℚ
  out : ℚ
  wavePrev : Option ℚ
  noiseHeld : ℚ
  frameL : ℚ
  frameR : ℚ
  wt : List ℚ
  wts : Memory Word32
  lfsr : Lfsr
  env : Vector EnvSlot 4
  deriving DecidableEq, Repr

/-- The state of the chip (R30, R34): `N_CH` is the number of its channels (R31), and `params` holds the
other parameters of R9, which no command changes (log 4). With them stand the command words the host has
presented (`inbox`, log 1) and the outputs: the responses given and the PCM stream, oldest first (R76, R93,
log 3). -/
structure State where
  params : Config.Params
  sampleRate : Word32
  peak : Word32
  counter : ℕ
  prevElapsed : ℚ
  errflags : BitVec 4
  channels : List Channel
  inbox : List Word64
  responses : List Response
  pcm : List PcmFrame
  deriving DecidableEq, Repr

/-! ## Hardware reset (R360)
The "reset" columns of R34, R37, R41, R44, R46, R47, R48 and R50, written out. -/

/-- The reset words of the staged profile (R41). -/
def resetStaged : Vector Word32 22 :=
  #v[0x00000020, 0, 1, 0, 0x00010000, 0x00010000, 0xFFFF0000, 0, 0x00000080, 0x00010000, 0x00010000,
    0, 0, 0, 0x0000000F, 0, 0x00010000, 0, 0x00010000, 0xFFFF0000, 0, 1]

/-- The reset profile (R43). -/
def resetProfile : Profile where
  wtLen := 32
  wtSteps := 0
  wtLoop := true
  panSteps := 0
  pitchMult := 1
  pitchLo := 1
  pitchHi := 65535
  pitchSteps := 0
  volAttn := 1 / 512
  volExp := 1
  volGain := 1
  volNonneg := false
  volSteps := 0
  noiseKind := .silent
  noiseLen := 15
  noiseVsteps := 0
  noisePmult := 1
  noisePsteps := 0
  noisePlo := 1
  noisePhi := 65535
  envRate := 0
  lfsrSeed := 1

/-- The live registers after reset (R44). -/
def resetLive : Live where
  tremAmp := 0
  tremFreq := 0
  tremSteps := 0
  vibAmp := 0
  vibFreq := 0
  vibSteps := 0
  pitchDepth := 12

/-- An envelope slot after reset (R50, R360): absent, nothing staged. -/
def resetSlot : EnvSlot where
  env := none
  sknotTime := []
  sknotValue := []
  sknotInterp := []
  skind := .hold
  sloopIn := 0
  sloopOut := 0
  sdecay := 1
  peeks := 0

/-- A channel after reset (R37, R46, R47, R48). -/
def resetChannel : Channel where
  staged := resetStaged
  active := resetProfile
  live := resetLive
  playing := false
  released := false
  noiseOn := false
  dirty := true
  volume := 1
  pan := 0
  frequency := 440
  midiNote := 69
  tonePeriod := 1 / 440
  noisePeriod := 1 / 440
  toneTime := 0
  noiseTime := 0
  envTime := 0
  lastRefresh := none
  snapVol := 0
  snapTonePeriod := 1 / 440
  snapNoisePeriod := 1 / 440
  leftMult := 1
  rightMult := 1
  out := 0
  wavePrev := none
  noiseHeld := 0
  frameL := 0
  frameR := 0
  wt := List.replicate 16 1 ++ List.replicate 16 (-1)
  wts := []
  lfsr := { n := 15, seed := 1, state := 1 }
  env := Vector.replicate 4 resetSlot

/-- A chip of `nCh` channels with the parameters `p` right after hardware reset (R9, R34, R360). -/
def State.resetWith (nCh : ℕ) (p : Config.Params) : State where
  params := p
  sampleRate := 44100
  peak := BitVec.ofNat 32 nCh
  counter := 0
  prevElapsed := 0
  errflags := 0
  channels := List.replicate nCh resetChannel
  inbox := []
  responses := []
  pcm := []

/-- The chip right after hardware reset, with the defaults of R9 (R360, log 4). -/
def State.reset : State := .resetWith Config.defaultChannels Config.defaults

end Sys2Proof.Machine
end

