-- ==== Sys2Proof/Machine/MathUtil.lean ====
section
/-! DEFINITION. The combinational functions of `00_scope.md` R13 and `40_math_utilities.md` R120 to R128,
on exact rationals and integers, and the four functions of `NUM` (R11). -/

namespace Sys2Proof.Machine

/-! ## Notation of R13 -/

/-- `clamp(x, lo, hi) = max(lo, min(hi, x))` (R13). -/
def clamp (x lo hi : ℚ) : ℚ := max lo (min hi x)

/-- `trunc(x)` rounds toward zero (R13). -/
def trunc (x : ℚ) : ℤ := if 0 ≤ x then x.floor else -(-x).floor

/-- `x mod w = x - w·floor(x/w)` for `w > 0` (R13). -/
def modQ (x w : ℚ) : ℚ := x - w * (x / w).floor

/-! ## Interpolation, quantization, wrap -/

/-- `lerp(a, b, t)` (R120). -/
def lerp (a b t : ℚ) : ℚ := a + (b - a) * t

/-- The nearest integer, a tie going up (R121). -/
def roundHalfUp (x : ℚ) : ℤ := (x + 1 / 2).floor

/-- Range quantization to `steps` equally spaced levels from `lo` to `hi` (R122). -/
def quantize (v : ℚ) (steps : ℕ) (lo hi : ℚ) : ℚ :=
  if steps < 2 then v
  else if hi ≤ lo then lo
  else
    let c := clamp v lo hi
    let k := roundHalfUp ((c - lo) / (hi - lo) * ((steps : ℚ) - 1))
    lo + k * (hi - lo) / ((steps : ℚ) - 1)

/-- Integer wrap into `[0, modulus)` for `modulus > 0` (R124). -/
def wrap (value modulus : ℤ) : ℤ := value - modulus * value.fdiv modulus

/-! ## `NUM`
Each function answers at the points where R11 fixes its value by the value itself, so that a run through
those points can be evaluated, and elsewhere by the opaque record. The laws `sint_eq`, `exp2_eq`,
`log2_eq` and `pow_eq` say that this is the record's own function. -/

/-- The sine of `x` turns where R11 fixes it: at multiples of 1/12 turn with a rational sine. -/
def exactSine (x : ℚ) : Option ℚ :=
  let r := modQ x 1
  if r = 0 ∨ r = 1 / 2 then some 0
  else if r = 1 / 12 ∨ r = 5 / 12 then some (1 / 2)
  else if r = 1 / 4 then some 1
  else if r = 7 / 12 ∨ r = 11 / 12 then some (-(1 / 2))
  else if r = 3 / 4 then some (-1)
  else none

/-- `SINT(x)`, the sine of `x` turns (R11). -/
def sint (x : ℚ) : ℚ := (exactSine x).getD (Config.num.val.sint x)

/-- Two to an integer power. -/
def twoPow : ℤ → ℚ
  | .ofNat n => ((2 ^ n : ℕ) : ℚ)
  | .negSucc n => 1 / ((2 ^ (n + 1) : ℕ) : ℚ)

/-- `EXP2(x)`, two to the power `x` (R11). -/
def exp2 (x : ℚ) : ℚ := if x.den = 1 then twoPow x.num else Config.num.val.exp2 x

/-- The exponent of an exact power of two. -/
def exactLog2 (x : ℚ) : Option ℤ :=
  if x.den = 1 ∧ 0 < x.num ∧ 2 ^ x.num.natAbs.log2 = x.num.natAbs then some x.num.natAbs.log2
  else if x.num = 1 ∧ 2 ^ x.den.log2 = x.den then some (-(x.den.log2 : ℤ))
  else none

/-- `LOG2(x)`, the binary logarithm of `x > 0` (R11). -/
def log2 (x : ℚ) : ℚ :=
  match exactLog2 x with
  | some n => n
  | none => Config.num.val.log2 x

/-- `POW(x, y)`, `x` to the power `y` for `0 ≤ x ≤ 1`, `y > 0` (R11). -/
def pow (x y : ℚ) : ℚ :=
  if y.den = 1 ∧ 1 ≤ y.num then x ^ y.num.toNat
  else if x = 0 then 0
  else if x = 1 then 1
  else Config.num.val.pow x y

/-! ## Notes and frequencies -/

/-- `440 · EXP2((m - 69) / 12)` (R126). -/
def noteToFrequency (m : ℚ) : ℚ := 440 * exp2 ((m - 69) / 12)

/-- `69 + 12 · LOG2(f / 440)` for `f > 0` (R127). -/
def frequencyToNote (f : ℚ) : ℚ := 69 + 12 * log2 (f / 440)

/-- `(wrap(octave, 10) + 1) · 12 + wrap(note, 12)` (R128). -/
def noteOf (octave note : ℤ) : ℤ := (wrap octave 10 + 1) * 12 + wrap note 12

end Sys2Proof.Machine
end

