-- ==== Sys2Proof/Machine/Operands.lean ====
section
/-! DEFINITION. Operand formats and result encodings (`30_encoding.md` R94, R95). An operand is converted
exactly; only `enc_q16` rounds. -/

namespace Sys2Proof.Machine

/-- Q16.16: `sext_32(v) / 65536` (R94). -/
def q16 (w : Word32) : ℚ := (w.toInt : ℚ) / 65536

/-- UQ16.16: `zext_32(v) / 65536` (R94). -/
def uq16 (w : Word32) : ℚ := (w.toNat : ℚ) / 65536

/-- UQ0.32: `zext_32(v) / 2^32` (R94). -/
def uq32 (w : Word32) : ℚ := (w.toNat : ℚ) / 4294967296

/-- One half of `s16 ++ s16`: `sext_16(v)` (R94). -/
def s16 (w : BitVec 16) : ℤ := w.toInt

/-- `enc_q16(x) = floor(x · 65536) mod 2^32` (R95). -/
def encQ16 (x : ℚ) : Word32 := BitVec.ofInt 32 (x * 65536).floor

/-- A natural as a register word (R95, R311). -/
def encNat (n : ℕ) : Word32 := BitVec.ofNat 32 n

/-- A Boolean as a register word (R95, R311). -/
def encBool (b : Bool) : Word32 := if b then 1 else 0

/-- A 32-bit word as response data, zero-extended (R95, R317). -/
def zext (w : Word32) : Word64 := w.setWidth 64

/-- The response data of a channel frame: `enc_q16(frame_l) ++ enc_q16(frame_r)` (R95). -/
def channelFrameData (l r : ℚ) : Word64 := encQ16 l ++ encQ16 r

/-- The response data of a PCM frame: two 16-bit fields below 32 zero bits (R95). -/
def pcmData (f : PcmFrame) : Word64 :=
  (0 : Word32) ++ BitVec.ofInt 16 f.left ++ BitVec.ofInt 16 f.right

end Sys2Proof.Machine
end

