-- ==== Sys2Proof/Machine/Flags.lean ====
section
/-! DEFINITION. Status codes, sticky error flags and the packing of the channel flags (`30_encoding.md`
R96, `10_state.md` R36, R37, R45). -/

namespace Sys2Proof.Machine

/-- The 4-bit code of a status (R96). -/
def Status.code : Status → BitVec 4
  | .ok => 0
  | .invalidWavetable => 1
  | .invalidEnvelope => 2
  | .illegalCommand => 3
  | .badOperand => 4

/-- The bit of `ERRFLAGS` that a status sets: bit `status - 1` (R36, R335). -/
def Status.flag : Status → BitVec 4
  | .ok => 0
  | .invalidWavetable => 1
  | .invalidEnvelope => 2
  | .illegalCommand => 4
  | .badOperand => 8

/-- `CH_STATUS`: bit 0 `playing`, bit 1 `released`, bit 2 `noise_on`, bit 3 `dirty` (R45). -/
def chStatus (x : Channel) : Word32 :=
  (0 : BitVec 28) ++ BitVec.ofBool x.dirty ++ BitVec.ofBool x.noiseOn ++ BitVec.ofBool x.released ++
    BitVec.ofBool x.playing

end Sys2Proof.Machine
end

