-- ==== Sys2Proof/Machine/Ops.lean ====
section
/-! DEFINITION. The operations every meaning shares: staging RAM access, the response of a command, the
command error (the chip's only exception), access to a channel and to an envelope slot, and taking the
next command word from the host. -/

namespace Sys2Proof.Machine

/-! ## Staging RAMs (`20_memory.md` R70, R71) -/

/-- The entry at an index, if one has been written since reset. -/
def Memory.read {α : Type} : Memory α → ℕ → Option α
  | [], _ => none
  | (j, u) :: m, i => if i = j then some u else Memory.read m i

/-- Write the entry at an index. -/
def Memory.write {α : Type} : Memory α → ℕ → α → Memory α
  | [], i, v => [(i, v)]
  | (j, u) :: m, i, v =>
    if i < j then (i, v) :: (j, u) :: m
    else if i = j then (i, v) :: m
    else (j, u) :: Memory.write m i v

/-- The canonical form: indices strictly rising, all below the capacity of the RAM. -/
abbrev Memory.wf {α : Type} (size : ℕ) (m : Memory α) : Prop :=
  (m.map Prod.fst).Pairwise (· < ·) ∧ ∀ i ∈ m.map Prod.fst, i < size

/-! ## Responses (`30_encoding.md` R93) -/

/-- End the command with status `OK` (R14). -/
def respond (data : Word64) (s : State) : State :=
  { s with responses := s.responses ++ [⟨.ok, data⟩] }

/-- Taking a command error, the chip's only exception: the response carries the status and `info`, the
sticky flag of the status is set, and nothing else changes (R14, R330, R335). Nothing is entered, so
there is no return (R336). -/
def raiseError (st : Status) (info : Word64) (s : State) : State :=
  { s with
    errflags := s.errflags ||| st.flag
    responses := s.responses ++ [⟨st, info⟩] }

/-- The error of a word that is no command (R105, R331). -/
def raiseIllegal (s : State) : State := raiseError .illegalCommand 0 s

/-- The number of the command being executed: one response has been given for each before it (R93). -/
def State.commandNo (s : State) : ℕ := s.responses.length

/-! ## Channels and slots -/

/-- `N_CH`, the number of channel slots (R9, R31). -/
def State.nCh (s : State) : ℕ := s.channels.length

/-- The channel of a slot number below `N_CH` (R31). No rule asks for another (log 16). -/
def State.channel (s : State) (c : ℕ) : Channel := s.channels.getD c resetChannel

/-- Replace the channel of a slot number. -/
def State.setChannel (s : State) (c : ℕ) (x : Channel) : State :=
  { s with channels := s.channels.set c x }

/-- The check (3) of R105: run the command on the channel it names, or raise `E_BAD_OPERAND` with data 0
(R333). Whatever the command does, the chip goes on. -/
def onChannel (ch : BitVec 8) (s : State) (body : ℕ → State) : Host.Outcome State Fault Refusal :=
  .next (if ch.toNat < s.nCh then body ch.toNat else raiseError .badOperand 0 s)

/-- The check `slot ≤ 3` of every envelope command (R108 (b), R333). -/
def onSlot (slot : BitVec 4) (s : State) (body : Fin 4 → State) : State :=
  if h : slot.toNat < 4 then body ⟨slot.toNat, h⟩ else raiseError .badOperand 0 s

/-- A command that replaces its channel and responds with data 0. -/
def updateChannel (s : State) (c : ℕ) (x : Channel) : State :=
  respond 0 (s.setChannel c x)

/-- An envelope slot of a channel (R50). -/
def Channel.slot (x : Channel) (i : Fin 4) : EnvSlot := x.env[i]

/-- Replace an envelope slot of a channel. -/
def Channel.setSlot (x : Channel) (i : Fin 4) (e : EnvSlot) : Channel :=
  { x with env := x.env.set i.val e i.isLt }

/-! ## The host's commands (`00_scope.md` R7, `20_memory.md` R80) -/

/-- Take the command word the host presents next, if there is one (log 1). -/
def fetch (s : State) : Option (Word64 × State) :=
  match s.inbox with
  | [] => none
  | w :: rest => some (w, { s with inbox := rest })

/-- Execute a command word: the meaning of its command, or the error of an illegal word (R105, R334). -/
def runWord (meaning : Instr → State → Host.Outcome State Fault Refusal) (w : Word64) (s : State) :
    Host.Outcome State Fault Refusal :=
  match decode w with
  | .ok i => meaning i s
  | .error _ => .next (raiseIllegal s)

/-- The host presents a command word as the one the chip takes next. -/
def present (w : Word64) (s : State) : State := { s with inbox := w :: s.inbox }

end Sys2Proof.Machine
end

