-- ==== Sys2Proof/Machine/Envelope.lean ====
section
/-! DEFINITION. The envelope engine (`41_envelope.md`): construction, `reset`, `release` and `peek` on the
state of one slot, and the ten `ENV_*` commands. -/

namespace Sys2Proof.Machine

/-! ## The curve (R140, R144 to R147) -/

/-- The knot at an index. Every index a rule asks for is below `K`; beyond it the answer is never used. -/
def Envelope.knotAt (e : Envelope) (i : ℕ) : Knot := e.knots.getD i ⟨0, 0, .linear⟩

/-- `T[i]` -/
def Envelope.timeAt (e : Envelope) (i : ℕ) : ℚ := (e.knotAt i).time
/-- `V[i]` -/
def Envelope.valueAt (e : Envelope) (i : ℕ) : ℚ := (e.knotAt i).value
/-- `K` -/
def Envelope.count (e : Envelope) : ℕ := e.knots.length
/-- `first = T[0]` -/
def Envelope.first (e : Envelope) : ℚ := e.timeAt 0
/-- `last = T[K-1]` -/
def Envelope.last (e : Envelope) : ℚ := e.timeAt (e.count - 1)
/-- `D = last - first` -/
def Envelope.width (e : Envelope) : ℚ := e.last - e.first
/-- `V[K-1]` -/
def Envelope.lastValue (e : Envelope) : ℚ := e.valueAt (e.count - 1)

/-- `seg(e, t)`: the greatest index `i` in `0 .. K-2` with `T[i] ≤ t` (R145). -/
def Envelope.seg (e : Envelope) (t : ℚ) : ℕ :=
  ((List.range (e.count - 1)).filter fun i => decide (e.timeAt i ≤ t)).getLast?.getD 0

/-- `at(e, p)` with the head it leaves (R145, R146): both ends are held and leave the head alone. -/
def Envelope.curveAt (e : Envelope) (p : ℚ) : ℚ × ℕ :=
  if p ≤ e.first then (e.valueAt 0, e.head)
  else if e.last ≤ p then (e.lastValue, e.head)
  else
    let h := e.seg p
    match (e.knotAt h).interp with
    | .step => (e.valueAt h, h)
    | .linear =>
      (lerp (e.valueAt h) (e.valueAt (h + 1)) ((p - e.timeAt h) / (e.timeAt (h + 1) - e.timeAt h)), h)

/-- `fold(t, a, b)`, the fold of `t` into `[a, b)` (R147). -/
def fold (t a b : ℚ) : ℚ := a + modQ (t - a) (b - a)

/-! ## reset and release (R142, R143) -/

/-- `env_reset(e)` (R142). The query times start afresh (R155). -/
def Envelope.reset (e : Envelope) : Envelope :=
  { e with
    head := 0, release := false, captured := false, relTime := 0, relPos := 0
    lastQuery := none, strayed := false }

/-- `env_release(e)` (R143). -/
def Envelope.arm (e : Envelope) : Envelope := { e with release := true }

/-! ## peek (R144) -/

/-- The model's record of the query times: a time below one already seen since the last reset breaks the
precondition of R155 for every later query (R370, log 9). -/
def Envelope.noteQuery (e : Envelope) (time : ℚ) : Envelope :=
  { e with
    lastQuery := some time
    strayed := e.strayed || (match e.lastQuery with
      | none => false
      | some t => decide (time < t)) }

/-- The answer `at(e, p)`, leaving its head. -/
def Envelope.answer (e : Envelope) (p : ℚ) : ℚ × Envelope :=
  ((e.curveAt p).1, { e with head := (e.curveAt p).2 })

/-- Kind `Repeat`, for `time > first` (R149). -/
def Envelope.peekCycle (eps : ℚ) (e : Envelope) (time : ℚ) : ℚ × Envelope :=
  if time < e.last then e.answer time
  else if e.width ≤ eps then (e.lastValue, e)
  else e.answer (e.first + modQ (time - e.last) e.width)

/-- `min(loop_in, K-1)` (R150). -/
def Envelope.inIndex (e : Envelope) : ℕ := min e.loopIn.toNat (e.count - 1)
/-- `min(loop_out, K-1)` (R150). -/
def Envelope.outIndex (e : Envelope) : ℕ := min e.loopOut.toNat (e.count - 1)
/-- `a = T[i]` (R150). -/
def Envelope.loopStart (e : Envelope) : ℚ := e.timeAt e.inIndex
/-- `b = T[o]` (R150). -/
def Envelope.loopEnd (e : Envelope) : ℚ := e.timeAt e.outIndex

/-- The capture of the release (R152), when the release is armed. -/
def Envelope.capture (e : Envelope) (time pos : ℚ) : Envelope :=
  if e.release then { e with captured := true, relTime := time, relPos := pos } else e

/-- Sustain: `LoopPoints` and `Echo` before the release is captured, for `time > first` (R151, R152). -/
def Envelope.sustain (eps : ℚ) (e : Envelope) (time : ℚ) : ℚ × Envelope :=
  if time < e.loopStart then e.answer time
  else if e.loopEnd - e.loopStart ≤ eps then
    (e.valueAt e.outIndex, e.capture time e.loopEnd)
  else
    let pos := fold time e.loopStart e.loopEnd
    ((e.answer pos).1, (e.answer pos).2.capture time pos)

/-- `LoopPoints` after capture (R153). -/
def Envelope.tail (e : Envelope) (time : ℚ) : ℚ × Envelope :=
  e.answer (e.relPos + (time - e.relTime))

/-- `Echo` after capture (R154). -/
def Envelope.echoTail (eps : ℚ) (e : Envelope) (time : ℚ) : ℚ × Envelope :=
  let pos := e.relPos + (time - e.relTime)
  if pos < e.last then e.answer pos
  else if e.width ≤ eps then (e.lastValue, e)
  else
    let ex := pos - e.last
    let it := 1 + (ex / e.width).floor
    ((e.answer (e.first + modQ ex e.width)).1 * e.decay ^ it.toNat,
      (e.answer (e.first + modQ ex e.width)).2)

/-- Kinds `LoopPoints` (`echo` false) and `Echo` (`echo` true), for `time > first` (R151). Once the query
times have gone backwards the spec leaves the outcome unspecified, captured or not (R155, R370, U1): the
answer is `free` and nothing is captured, which is the model's choice (log 9). -/
def Envelope.peekLoop (eps free : ℚ) (e : Envelope) (time : ℚ) (echo : Bool) : ℚ × Envelope :=
  if e.strayed then (free, e)
  else if !(e.release && e.captured) then e.sustain eps time
  else if echo then e.echoTail eps time
  else e.tail time

/-- `peek(e, time)` (R144), with the threshold `eps` of a degenerate range. `free` is the value used where
the spec gives none (U1, log 9). At or before the first knot the value is R144's for every loop kind and
any flags, in whatever order the queries come (log 9). -/
def Envelope.peek (eps free : ℚ) (e : Envelope) (time : ℚ) : ℚ × Envelope :=
  let e := e.noteQuery time
  if time ≤ e.first then (e.valueAt 0, e)
  else
    match e.kind with
    | .hold => e.answer time
    | .cycle => e.peekCycle eps time
    | .loopPoints => e.peekLoop eps free time false
    | .echo => e.peekLoop eps free time true

/-! ## Slots -/

/-- Query the envelope in slot `slot` of channel `ch`; an absent envelope answers `absent` and nothing
happens. -/
def EnvSlot.query (eps : ℚ) (ch slot : ℕ) (absent : ℚ) (sl : EnvSlot) (time : ℚ) : ℚ × EnvSlot :=
  match sl.env with
  | none => (absent, sl)
  | some e =>
    let r := e.peek eps (Config.strayPeek ch slot sl.peeks) time
    (r.1, { sl with env := some r.2, peeks := sl.peeks + 1 })

/-- `reset()` of the envelope of a slot, if it holds one. -/
def EnvSlot.resetEnv (sl : EnvSlot) : EnvSlot := { sl with env := sl.env.map Envelope.reset }

/-- `release()` of the envelope of a slot, if it holds one. -/
def EnvSlot.armEnv (sl : EnvSlot) : EnvSlot := { sl with env := sl.env.map Envelope.arm }

/-- Construction: the knots sorted by time, stably, the loop payload, and `env_reset` (R141). -/
def envBuild (knots : List Knot) (kind : LoopKind) (loopIn loopOut : BitVec 12) (decay : ℚ) : Envelope where
  knots := knots.insertionSort fun a b => a.time ≤ b.time
  kind := kind
  loopIn := loopIn
  loopOut := loopOut
  decay := decay
  head := 0
  release := false
  captured := false
  relTime := 0
  relPos := 0
  lastQuery := none
  strayed := false

/-- The values slot `i` may hold: Unit for slots 0 and 2, Bipolar for 1 and 3 (R51). -/
def slotLow (i : Fin 4) : ℚ := if i.val = 0 ∨ i.val = 2 then 0 else -1

/-- The staged knot `k` as `ENV_BUILD` reads it in the command numbered `cmd` (R160); a part never written
is a free value (U4, log 8). -/
def EnvSlot.stagedKnot (cmd ch slot : ℕ) (sl : EnvSlot) (k : ℕ) : Knot where
  time := q16 ((Memory.read sl.sknotTime k).getD (Config.unwrittenKnotTime cmd ch slot k))
  value := q16 ((Memory.read sl.sknotValue k).getD (Config.unwrittenKnotValue cmd ch slot k))
  interp := (Memory.read sl.sknotInterp k).getD (interpOf (Config.unwrittenKnotStep cmd ch slot k))

/-- The first `n` staged knots, in staged order. -/
def EnvSlot.stagedKnots (cmd ch slot : ℕ) (sl : EnvSlot) (n : ℕ) : List Knot :=
  (List.range n).map (sl.stagedKnot cmd ch slot)

/-- A change of an envelope of slots 0 to 2 is a change of a snapshot input (R37). -/
def Channel.touchSlot (x : Channel) (i : Fin 4) : Channel :=
  { x with dirty := x.dirty || decide (i.val ≤ 2) }

/-! ## Commands (R157 to R164) -/

/-- The frame of the `ENV_KNOT_*` commands: channel, slot, then `k < K_MAX` (R157). -/
def onKnot (ch : BitVec 8) (slot : BitVec 4) (k : BitVec 12) (s : State)
    (write : EnvSlot → EnvSlot) : Host.Outcome State Fault Refusal :=
  onChannel ch s fun c => onSlot slot s fun i =>
    if k.toNat < s.params.kMax then
      updateChannel s c ((s.channel c).setSlot i (write ((s.channel c).slot i)))
    else raiseError .badOperand 0 s

/-- `ENV_KNOT_T` (R157). -/
def execEnvKnotT (ch : BitVec 8) (slot : BitVec 4) (k : BitVec 12) (imm : Word32) (s : State) :
    Host.Outcome State Fault Refusal :=
  onKnot ch slot k s fun sl => { sl with sknotTime := Memory.write sl.sknotTime k.toNat imm }

/-- `ENV_KNOT_V` (R157). -/
def execEnvKnotV (ch : BitVec 8) (slot : BitVec 4) (k : BitVec 12) (imm : Word32) (s : State) :
    Host.Outcome State Fault Refusal :=
  onKnot ch slot k s fun sl => { sl with sknotValue := Memory.write sl.sknotValue k.toNat imm }

/-- `ENV_KNOT_I` (R157). -/
def execEnvKnotI (ch : BitVec 8) (slot : BitVec 4) (k : BitVec 12) (interp : Interp) (s : State) :
    Host.Outcome State Fault Refusal :=
  onKnot ch slot k s fun sl => { sl with sknotInterp := Memory.write sl.sknotInterp k.toNat interp }

/-- `ENV_LOOP` (R158). -/
def execEnvLoop (ch : BitVec 8) (slot : BitVec 4) (kind : LoopKind) (loopIn loopOut : BitVec 12)
    (s : State) : Host.Outcome State Fault Refusal :=
  onChannel ch s fun c => onSlot slot s fun i =>
    updateChannel s c ((s.channel c).setSlot i
      { (s.channel c).slot i with skind := kind, sloopIn := loopIn, sloopOut := loopOut })

/-- `ENV_DECAY` (R159). -/
def execEnvDecay (ch : BitVec 8) (slot : BitVec 4) (imm : Word32) (s : State) :
    Host.Outcome State Fault Refusal :=
  onChannel ch s fun c => onSlot slot s fun i =>
    updateChannel s c ((s.channel c).setSlot i
      { (s.channel c).slot i with sdecay := clamp (q16 imm) 0 1 })

/-- `ENV_BUILD` (R160): the first staged value out of the slot's range fails the whole command. -/
def execEnvBuild (ch : BitVec 8) (slot : BitVec 4) (imm : Word32) (s : State) :
    Host.Outcome State Fault Refusal :=
  onChannel ch s fun c => onSlot slot s fun i =>
    if imm.toNat = 0 ∨ s.params.kMax < imm.toNat then raiseError .badOperand 0 s
    else
      let sl := (s.channel c).slot i
      let knots := sl.stagedKnots s.commandNo c i.val imm.toNat
      match knots.findIdx? fun k => decide (k.value < slotLow i ∨ 1 < k.value) with
      | some j => raiseError .invalidEnvelope (BitVec.ofNat 64 j) s
      | none =>
        updateChannel s c (((s.channel c).setSlot i
          { sl with env := some (envBuild knots sl.skind sl.sloopIn sl.sloopOut sl.sdecay) }).touchSlot i)

/-- `ENV_CLEAR` (R161). -/
def execEnvClear (ch : BitVec 8) (slot : BitVec 4) (s : State) : Host.Outcome State Fault Refusal :=
  onChannel ch s fun c => onSlot slot s fun i =>
    updateChannel s c (((s.channel c).setSlot i { (s.channel c).slot i with env := none }).touchSlot i)

/-- The check of `ENV_RESET`, `ENV_RELEASE` and `ENV_PEEK`: the slot exists and holds an envelope
(R162 to R164, R333). -/
def onPresent (ch : BitVec 8) (slot : BitVec 4) (s : State)
    (body : ℕ → Fin 4 → State) : Host.Outcome State Fault Refusal :=
  onChannel ch s fun c => onSlot slot s fun i =>
    if ((s.channel c).slot i).env.isSome then body c i else raiseError .badOperand 0 s

/-- `ENV_RESET` (R162). -/
def execEnvReset (ch : BitVec 8) (slot : BitVec 4) (s : State) : Host.Outcome State Fault Refusal :=
  onPresent ch slot s fun c i =>
    updateChannel s c ((s.channel c).setSlot i ((s.channel c).slot i).resetEnv)

/-- `ENV_RELEASE` (R163). -/
def execEnvRelease (ch : BitVec 8) (slot : BitVec 4) (s : State) : Host.Outcome State Fault Refusal :=
  onPresent ch slot s fun c i =>
    updateChannel s c ((s.channel c).setSlot i ((s.channel c).slot i).armEnv)

/-- `ENV_PEEK` (R164). -/
def execEnvPeek (ch : BitVec 8) (slot : BitVec 4) (imm : Word32) (s : State) :
    Host.Outcome State Fault Refusal :=
  onPresent ch slot s fun c i =>
    let r := ((s.channel c).slot i).query s.params.envEps c i.val 0 (q16 imm)
    respond (zext (encQ16 r.1)) (s.setChannel c ((s.channel c).setSlot i r.2))

end Sys2Proof.Machine
end

