-- ==== Sys2Proof/Machine/Noise.lean ====
section
/-! DEFINITION. The noise generator (`44_noise_lfsr.md`): construction, step, output, output cycle, and
the commands `LFSR_INIT`, `LFSR_STEP`, `LFSR_OUT`. -/

namespace Sys2Proof.Machine

/-- `mask = 2^n - 1` (R260). -/
def lfsrMask (n : ℕ) : Word32 := BitVec.ofNat 32 (2 ^ n - 1)

/-- `lfsr_new(length, seed_in)` (R261). -/
def lfsrNew (p : Config.Params) (length : ℕ) (seedIn : Word32) : Lfsr :=
  let n := max 3 (min 32 length)
  let s := seedIn &&& lfsrMask n
  let seed := if s = 0 then p.fallbackSeed &&& lfsrMask n else s
  { n := n, seed := seed, state := seed }

/-- `lfsr_next(state, n)` (R262). -/
def lfsrNext (p : Config.Params) (n : ℕ) (state : Word32) : Word32 :=
  (state >>> 1) ^^^ (if state.getLsbD 0 then p.tap n else 0)

/-- `lfsr_next` applied `k` times. -/
def lfsrIter (p : Config.Params) (n : ℕ) : ℕ → Word32 → Word32
  | 0, state => state
  | k + 1, state => lfsrIter p n k (lfsrNext p n state)

/-- One step of a generator. -/
def Lfsr.step (p : Config.Params) (l : Lfsr) : Lfsr := { l with state := lfsrNext p l.n l.state }

/-- `lfsr_out(l) = (state & mask) / 2^n` (R264). -/
def Lfsr.output (l : Lfsr) : ℚ := ((l.state &&& lfsrMask l.n).toNat : ℚ) / ((2 ^ l.n : ℕ) : ℚ)

/-- The length of the output cycle, `2^n - 1` (R228, R266). -/
def Lfsr.period (l : Lfsr) : ℕ := 2 ^ l.n - 1

/-- `CYCLE(k)`, the register value `k` steps after the seed (R77, R266). -/
def Lfsr.cycle (p : Config.Params) (l : Lfsr) (k : ℕ) : Word32 := lfsrIter p l.n k l.seed

/-- `LFSR_INIT` (R267). -/
def execLfsrInit (ch : BitVec 8) (idx : BitVec 16) (imm : Word32) (s : State) :
    Host.Outcome State Fault Refusal :=
  onChannel ch s fun c =>
    let l := lfsrNew s.params idx.toNat imm
    respond (zext l.seed) (s.setChannel c { s.channel c with lfsr := l })

/-- `LFSR_STEP` (R268). -/
def execLfsrStep (ch : BitVec 8) (s : State) : Host.Outcome State Fault Refusal :=
  onChannel ch s fun c =>
    let l := (s.channel c).lfsr.step s.params
    respond (zext l.state) (s.setChannel c { s.channel c with lfsr := l })

/-- `LFSR_OUT`: the UQ0.32 word of the output (R269). -/
def execLfsrOut (ch : BitVec 8) (s : State) : Host.Outcome State Fault Refusal :=
  onChannel ch s fun c =>
    let l := (s.channel c).lfsr
    respond (zext l.state <<< (32 - l.n)) s

end Sys2Proof.Machine
end

