-- ==== Sys2Proof/Machine/Profile.lean ====
section
/-! DEFINITION. The profile of a channel: the interpretation and the checks of the staged words
(`10_state.md` R41, `42_channel_control.md` R182), the words of the active mirror (R42), and the profile
functions of R196. -/

namespace Sys2Proof.Machine

/-- The noise kind of the word of `S_NOISE_KIND`; other words are refused by the check (R41, U2). -/
def noiseKindOf (w : Word32) : NoiseKind :=
  match w.toNat with
  | 1 => .random
  | 2 => .melodic
  | _ => .silent

/-- The word of a noise kind (R41). -/
def noiseKindWord : NoiseKind → Word32
  | .silent => 0
  | .random => 1
  | .melodic => 2

/-- The staged words interpreted in the formats of R41. -/
def interpret (w : Vector Word32 22) : Profile where
  wtLen := w[0x00].toNat
  wtSteps := w[0x01].toNat
  wtLoop := decide (w[0x02] ≠ 0)
  panSteps := w[0x03].toNat
  pitchMult := q16 w[0x04]
  pitchLo := uq16 w[0x05]
  pitchHi := uq16 w[0x06]
  pitchSteps := w[0x07].toNat
  volAttn := q16 w[0x08]
  volExp := q16 w[0x09]
  volGain := q16 w[0x0A]
  volNonneg := decide (w[0x0B] ≠ 0)
  volSteps := w[0x0C].toNat
  noiseKind := noiseKindOf w[0x0D]
  noiseLen := w[0x0E].toNat
  noiseVsteps := w[0x0F].toNat
  noisePmult := q16 w[0x10]
  noisePsteps := w[0x11].toNat
  noisePlo := uq16 w[0x12]
  noisePhi := uq16 w[0x13]
  envRate := uq16 w[0x14]
  lfsrSeed := w[0x15]

/-- The checks of `CH_INIT` under `WT_MAX`, in register-number order, each with the number it is reported at
(R182). -/
def profileChecks (wtMax : ℕ) (w : Vector Word32 22) : List (ℕ × Bool) :=
  let p := interpret w
  let noiseRange := decide (2 ≤ p.noisePsteps)
  [ (0x00, decide (1 ≤ p.wtLen) && decide (p.wtLen ≤ wtMax)),
    (0x02, decide (w[0x02].toNat ≤ 1)),
    (0x04, decide (0 < p.pitchMult)),
    (0x05, decide (0 < p.pitchLo)),
    (0x06, decide (p.pitchLo ≤ p.pitchHi)),
    (0x08, decide (0 ≤ p.volAttn) && decide (p.volAttn ≤ 1)),
    (0x09, decide (0 < p.volExp)),
    (0x0A, decide (0 ≤ p.volGain)),
    (0x0B, decide (w[0x0B].toNat ≤ 1)),
    (0x0D, decide (w[0x0D].toNat ≤ 2)),
    (0x10, decide (0 < p.noisePmult)),
    (0x12, !noiseRange || decide (0 < p.noisePlo)),
    (0x13, !noiseRange || decide (p.noisePlo ≤ p.noisePhi)) ]

/-- The number of the first staged register that fails its check, if one does (R182). -/
def firstBadRegister (wtMax : ℕ) (w : Vector Word32 22) : Option ℕ :=
  ((profileChecks wtMax w).find? fun c => !c.2).map Prod.fst

/-- Register `0x60 + n`: the active field in the format of its staged register (R42, R311). -/
def Profile.mirror (p : Profile) : ℕ → Word32
  | 0x00 => encNat p.wtLen
  | 0x01 => encNat p.wtSteps
  | 0x02 => encBool p.wtLoop
  | 0x03 => encNat p.panSteps
  | 0x04 => encQ16 p.pitchMult
  | 0x05 => encQ16 p.pitchLo
  | 0x06 => encQ16 p.pitchHi
  | 0x07 => encNat p.pitchSteps
  | 0x08 => encQ16 p.volAttn
  | 0x09 => encQ16 p.volExp
  | 0x0A => encQ16 p.volGain
  | 0x0B => encBool p.volNonneg
  | 0x0C => encNat p.volSteps
  | 0x0D => noiseKindWord p.noiseKind
  | 0x0E => encNat p.noiseLen
  | 0x0F => encNat p.noiseVsteps
  | 0x10 => encQ16 p.noisePmult
  | 0x11 => encNat p.noisePsteps
  | 0x12 => encQ16 p.noisePlo
  | 0x13 => encQ16 p.noisePhi
  | 0x14 => encQ16 p.envRate
  | _ => p.lfsrSeed

/-! ## Profile functions (R196) -/

/-- `shape(c, f)`: the pitch range and steps applied to a frequency (R196). -/
def Profile.shape (p : Profile) (f : ℚ) : ℚ :=
  if 2 ≤ p.pitchSteps then quantize f p.pitchSteps p.pitchLo p.pitchHi
  else clamp f p.pitchLo p.pitchHi

/-- `tone_period_eff(c, f)` (R196). -/
def Profile.tonePeriodEff (p : Profile) (f : ℚ) : ℚ := 1 / p.shape (f * p.pitchMult)

/-- `noise_period_of(c, f)` (R196). -/
def Profile.noisePeriodOf (p : Profile) (f : ℚ) : ℚ :=
  if 2 ≤ p.noisePsteps then p.noisePmult / quantize f p.noisePsteps p.noisePlo p.noisePhi
  else p.noisePmult / f

/-! ## The default waveform (`43_channel_sample.md` R240) -/

/-- `default_wave(i, len)` (R240). -/
def defaultWave (i len : ℕ) : ℚ := if 2 * i < len then 1 else -1

/-- The default wavetable of a length (R240). -/
def defaultTable (len : ℕ) : List ℚ := (List.range len).map fun i => defaultWave i len

end Sys2Proof.Machine
end

