-- ==== Sys2Proof/Machine/Channel.lean ====
section
/-! DEFINITION. The channel state machine and its control commands (`42_channel_control.md`). -/

namespace Sys2Proof.Machine

/-- `update_pan(c)`: the left and right gain multipliers (R193). -/
def Channel.updatePan (x : Channel) : Channel :=
  let p := quantize x.pan x.active.panSteps (-1) 1
  { x with leftMult := clamp (1 - p) 0 1, rightMult := clamp (1 + p) 0 1 }

/-- Parts 2 and 3 of `CH_INIT`: install a profile, and every other element to its reset value; the staged
registers and the staging areas stay (R182). -/
def Channel.construct (par : Config.Params) (p : Profile) (x : Channel) : Channel :=
  Channel.updatePan
    { x with
      active := p
      live := resetLive
      playing := false
      released := false
      noiseOn := false
      dirty := true
      volume := 1
      pan := 0
      frequency := 440
      midiNote := 69
      tonePeriod := 1 / 440
      noisePeriod := p.noisePeriodOf 440
      toneTime := 0
      noiseTime := 0
      envTime := 0
      lastRefresh := none
      snapVol := 0
      snapTonePeriod := p.tonePeriodEff 440
      snapNoisePeriod := p.noisePeriodOf 440
      out := 0
      wavePrev := none
      noiseHeld := 0
      frameL := 0
      frameR := 0
      wt := defaultTable p.wtLen
      lfsr := lfsrNew par p.noiseLen p.lfsrSeed
      env := x.env.map fun sl => { sl with env := none } }

/-- Apply a change to the envelope slots 0, 1 and 2, the sounding envelopes of a channel. -/
def Channel.onSounding (x : Channel) (f : EnvSlot → EnvSlot) : Channel :=
  { x with env := #v[f x.env[0], f x.env[1], f x.env[2], x.env[3]] }

/-- `channel_reset(ch)` (R186). -/
def Channel.reset (x : Channel) : Channel :=
  { x.onSounding EnvSlot.resetEnv with
    toneTime := 0
    noiseTime := 0
    envTime := 0
    released := false
    dirty := true
    lastRefresh := none }

/-- `set_frequency(c, f, m, rst)`, the common body of the pitch commands (R187). -/
def Channel.setFrequency (f m : ℚ) (rst : Bool) (x : Channel) : Channel :=
  let pnew := x.active.tonePeriodEff f
  let pn := x.active.noisePeriodOf f
  { x with
    frequency := f
    midiNote := m
    tonePeriod := 1 / f
    noisePeriod := pn
    toneTime :=
      if x.active.wtLoop = false ∨ x.playing = false ∨ rst = true then 0
      else modQ x.toneTime x.snapTonePeriod / x.snapTonePeriod * pnew
    snapTonePeriod := pnew
    snapNoisePeriod := pn
    dirty := true }

/-! ## Commands -/

/-- `CH_INIT` (R182). -/
def execChInit (ch : BitVec 8) (s : State) : Host.Outcome State Fault Refusal :=
  onChannel ch s fun c =>
    match firstBadRegister s.params.wtMax (s.channel c).staged with
    | some r => raiseError .badOperand (BitVec.ofNat 64 r) s
    | none => updateChannel s c ((s.channel c).construct s.params (interpret (s.channel c).staged))

/-- `PLAY` (R183). -/
def execPlay (ch : BitVec 8) (s : State) : Host.Outcome State Fault Refusal :=
  onChannel ch s fun c => updateChannel s c { s.channel c with playing := true }.updatePan

/-- `STOP` (R184). -/
def execStop (ch : BitVec 8) (s : State) : Host.Outcome State Fault Refusal :=
  onChannel ch s fun c => updateChannel s c { (s.channel c).reset with playing := false }

/-- `RELEASE` (R185). -/
def execRelease (ch : BitVec 8) (s : State) : Host.Outcome State Fault Refusal :=
  onChannel ch s fun c =>
    updateChannel s c { (s.channel c).onSounding EnvSlot.armEnv with released := true }

/-- `RESET` (R186). -/
def execReset (ch : BitVec 8) (s : State) : Host.Outcome State Fault Refusal :=
  onChannel ch s fun c => updateChannel s c (s.channel c).reset

/-- `SET_PITCH` (R188). -/
def execSetPitch (ch : BitVec 8) (rst : Bool) (imm : Word32) (s : State) :
    Host.Outcome State Fault Refusal :=
  onChannel ch s fun c =>
    let f := uq16 imm
    if f = 0 then raiseError .badOperand 0 s
    else updateChannel s c ((s.channel c).setFrequency f (frequencyToNote f) rst)

/-- `SET_MIDI` (R189). -/
def execSetMidi (ch : BitVec 8) (rst : Bool) (imm : Word32) (s : State) :
    Host.Outcome State Fault Refusal :=
  onChannel ch s fun c =>
    let m := q16 imm
    updateChannel s c ((s.channel c).setFrequency (noteToFrequency m) m rst)

/-- `SET_NOTE` (R190). -/
def execSetNote (ch : BitVec 8) (rst : Bool) (octave note : BitVec 16) (s : State) :
    Host.Outcome State Fault Refusal :=
  onChannel ch s fun c =>
    let m : ℚ := noteOf (s16 octave) (s16 note)
    updateChannel s c ((s.channel c).setFrequency (noteToFrequency m) m rst)

/-- `SET_VOL` (R191). -/
def execSetVol (ch : BitVec 8) (imm : Word32) (s : State) : Host.Outcome State Fault Refusal :=
  onChannel ch s fun c =>
    updateChannel s c { s.channel c with volume := clamp (q16 imm) 0 1, dirty := true }

/-- `SET_PAN` (R192). -/
def execSetPan (ch : BitVec 8) (imm : Word32) (s : State) : Host.Outcome State Fault Refusal :=
  onChannel ch s fun c =>
    updateChannel s c { s.channel c with pan := clamp (q16 imm) (-1) 1 }.updatePan

/-- `SET_NOISE` (R194). -/
def execSetNoise (ch : BitVec 8) (on : Bool) (s : State) : Host.Outcome State Fault Refusal :=
  onChannel ch s fun c =>
    if (s.channel c).active.noiseKind = .silent then respond 0 s
    else updateChannel s c { s.channel c with noiseOn := on }

/-- `IS_NOISE` (R195). -/
def execIsNoise (ch : BitVec 8) (s : State) : Host.Outcome State Fault Refusal :=
  onChannel ch s fun c => respond (zext (encBool (s.channel c).noiseOn)) s

end Sys2Proof.Machine
end

