-- ==== Sys2Proof/Machine/Sample.lean ====
section
/-! DEFINITION. The per-sample synthesizer (`43_channel_sample.md` R220 to R231): the eight steps of
`channel_sample`, one function each, and the command `CSAMPLE`. `c` is the channel's slot number; it
matters only for the free values of log 9. `p` holds the parameters of R9. -/

namespace Sys2Proof.Machine

/-- Step 1: decay the held output (R221). -/
def Channel.decayOut (x : Channel) : Channel := { x with out := x.out * (1 - x.active.volAttn) }

/-- Step 2 of a stopped channel: the held output through the pan multipliers (R222). -/
def Channel.stoppedFrame (x : Channel) : Channel :=
  { x with frameL := x.out * x.leftMult, frameR := x.out * x.rightMult }

/-- The refresh condition of step 3 (R223). -/
def Channel.needsRefresh (x : Channel) : Bool :=
  x.dirty || decide (x.active.envRate = 0) ||
    (match x.lastRefresh with
      | none => true
      | some t => decide (1 / x.active.envRate ≤ x.envTime - t))

/-- A modulator: `amp · quantize(SINT(freq·t), steps, -1, 1)` (R224, R225). -/
def modulator (amp freq : ℚ) (steps : ℕ) (t : ℚ) : ℚ := amp * quantize (sint (freq * t)) steps (-1) 1

/-- The volume multiplier for a volume envelope value `ve` (R224). -/
def Channel.volumeOf (x : Channel) (ve : ℚ) : ℚ :=
  let trem := modulator x.live.tremAmp x.live.tremFreq x.live.tremSteps x.envTime
  let v0 := clamp (x.volume * ve + trem) 0 1
  let v1 := quantize v0 x.active.volSteps 0 1
  pow v1 x.active.volExp * x.active.volGain

/-- `refresh_volume(c)` (R224). -/
def Channel.refreshVolume (p : Config.Params) (c : ℕ) (x : Channel) : Channel :=
  let r := (x.slot 0).query p.envEps c 0 1 x.envTime
  { x.setSlot 0 r.2 with snapVol := x.volumeOf r.1 }

/-- The deflected frequency for a pitch envelope value `pe` (R225). -/
def Channel.deflected (x : Channel) (pe : ℚ) : ℚ :=
  let vib := modulator x.live.vibAmp x.live.vibFreq x.live.vibSteps x.envTime
  let defl := pe * x.live.pitchDepth + vib
  x.frequency * exp2 (defl / 12)

/-- `refresh_pitch(c)` (R225). -/
def Channel.refreshPitch (p : Config.Params) (c : ℕ) (x : Channel) : Channel :=
  let r := (x.slot 1).query p.envEps c 1 0 x.envTime
  let fn := x.deflected r.1
  { x.setSlot 1 r.2 with
    snapTonePeriod := x.active.tonePeriodEff fn
    snapNoisePeriod := x.active.noisePeriodOf fn }

/-- Step 3: the envelope snapshot (R223). -/
def Channel.refresh (p : Config.Params) (c : ℕ) (x : Channel) : Channel :=
  if x.needsRefresh then
    { (x.refreshVolume p c).refreshPitch p c with lastRefresh := some x.envTime, dirty := false }
  else x

/-- The phase of step 4 (R226). -/
def Channel.phase (x : Channel) : ℚ :=
  if x.active.wtLoop then modQ x.toneTime x.snapTonePeriod / x.snapTonePeriod
  else clamp (x.toneTime / x.snapTonePeriod) 0 1

/-- The wavetable index of step 4 (R226). -/
def Channel.tableIndex (x : Channel) : ℕ :=
  min (x.phase * x.active.wtLen).floor.toNat (x.active.wtLen - 1)

/-- The quantized wavetable sample of step 4 (R226). -/
def Channel.waveSample (x : Channel) : ℚ :=
  quantize (x.wt.getD x.tableIndex 0) x.active.wtSteps (-1) 1

/-- Step 4: the held output is replaced only when the quantized sample differs from the previous one
(R226). -/
def Channel.lookup (x : Channel) : Channel :=
  if x.wavePrev = some x.waveSample then x
  else { x with out := x.waveSample, wavePrev := some x.waveSample }

/-- Step 5, Random: at most one generator step per call (R227). -/
def Channel.stepRandom (p : Config.Params) (x : Channel) : Channel :=
  if x.snapNoisePeriod ≤ x.noiseTime then
    { x with
      lfsr := x.lfsr.step p
      noiseHeld := quantize (2 * (x.lfsr.step p).output - 1) x.active.noiseVsteps (-1) 1
      noiseTime := modQ x.noiseTime x.snapNoisePeriod }
  else x

/-- Step 5, Melodic: the cycle read as a wavetable once per noise period (R228). -/
def Channel.melodicNoise (p : Config.Params) (x : Channel) : ℚ :=
  let l := x.lfsr.period
  let k := min (modQ x.noiseTime x.snapNoisePeriod / x.snapNoisePeriod * l).floor.toNat (l - 1)
  let u : ℚ := ((x.lfsr.cycle p k).toNat : ℚ) / ((2 ^ x.lfsr.n : ℕ) : ℚ)
  quantize (2 * u - 1) x.active.noiseVsteps (-1) 1

/-- Step 5: the noise value and the channel after it; kind None does nothing and its value is not used
(R227, R228). -/
def Channel.noise (p : Config.Params) (x : Channel) : ℚ × Channel :=
  match x.active.noiseKind with
  | .silent => (0, x)
  | .random => ((x.stepRandom p).noiseHeld, x.stepRandom p)
  | .melodic => (x.melodicNoise p, x)

/-- Step 6: noise substituted for the tone, or blended by the noise envelope (R229). -/
def Channel.mix (p : Config.Params) (c : ℕ) (nz : ℚ) (x : Channel) : ℚ × Channel :=
  if x.noiseOn then
    let r := (x.slot 2).query p.envEps c 2 1 x.envTime
    (if (x.slot 2).env.isSome then lerp x.out nz r.1 else nz, x.setSlot 2 r.2)
  else (x.out, x)

/-- Step 7: advance the time accumulators (R230). -/
def Channel.advance (delta : ℚ) (x : Channel) : Channel :=
  { x with
    toneTime := x.toneTime + delta
    noiseTime := x.noiseTime + delta
    envTime := x.envTime + delta }

/-- The level of step 8: volume multiplier and non-negative clamp (R231). -/
def Channel.level (x : Channel) (val : ℚ) : ℚ :=
  if x.active.volNonneg = true ∧ val * x.snapVol < 0 then 0 else val * x.snapVol

/-- Step 8: the frame (R231). -/
def Channel.frame (val : ℚ) (x : Channel) : Channel :=
  { x with frameL := x.level val * x.leftMult, frameR := x.level val * x.rightMult }

/-- Steps 3 to 8 of a playing channel, in order. -/
def Channel.playFrame (p : Config.Params) (c : ℕ) (delta : ℚ) (x : Channel) : Channel :=
  let x4 := (x.refresh p c).lookup
  let n := x4.noise p
  let m := n.2.mix p c n.1
  (m.2.advance delta).frame m.1

/-- `channel_sample(c, delta)`: steps 1 to 8; a stopped channel ends after step 2 (R220, R222). -/
def Channel.sample (p : Config.Params) (c : ℕ) (delta : ℚ) (x : Channel) : Channel :=
  if x.decayOut.playing then x.decayOut.playFrame p c delta else x.decayOut.stoppedFrame

/-- `CSAMPLE` (R220). -/
def execCsample (ch : BitVec 8) (imm : Word32) (s : State) : Host.Outcome State Fault Refusal :=
  onChannel ch s fun c =>
    let x := (s.channel c).sample s.params c (uq32 imm)
    respond (channelFrameData x.frameL x.frameR) (s.setChannel c x)

end Sys2Proof.Machine
end

