-- ==== Sys2Proof/Machine/Mixer.lean ====
section
/-! DEFINITION. The mixer (`45_mixer.md` R290 to R296): the sample clock, the sum, the soft clip and the
conversion to PCM, and the commands `TICK` and `ITER`. -/

namespace Sys2Proof.Machine

/-- `soft_clip(x)` (R294). -/
def softClip (peak x : ℚ) : ℚ := clamp (sint (clamp (x / peak) (-1) 1 / 4)) (-1) 1

/-- `to_pcm(y)` (R295). -/
def toPcm (y : ℚ) : ℤ := trunc (y * 32767)

/-- The elapsed time at a counter value (R292). -/
def State.elapsedAt (s : State) (n : ℕ) : ℚ := (n : ℚ) / (s.sampleRate.toNat : ℚ)

/-- The delta of the next tick: the difference of two elapsed times (R293). -/
def State.tickDelta (s : State) : ℚ := s.elapsedAt (s.counter + 1) - s.prevElapsed

/-- Every channel sampled with the same delta, in slot order (R291, R298). -/
def State.sampled (s : State) : List Channel :=
  (List.range s.nCh).map fun c => (s.channel c).sample s.params c s.tickDelta

/-- The sum of the left sides, in slot order (R291). -/
def sumLeft (xs : List Channel) : ℚ := xs.foldl (fun a x => a + x.frameL) 0

/-- The sum of the right sides, in slot order (R291). -/
def sumRight (xs : List Channel) : ℚ := xs.foldl (fun a x => a + x.frameR) 0

/-- The PCM frame of the next tick (R291, R294, R295). -/
def State.mixed (s : State) : PcmFrame where
  left := toPcm (softClip (s.peak.toNat : ℚ) (sumLeft s.sampled))
  right := toPcm (softClip (s.peak.toNat : ℚ) (sumRight s.sampled))

/-- `tick()` (R291). -/
def tick (s : State) : State :=
  { s with
    counter := s.counter + 1
    prevElapsed := s.elapsedAt (s.counter + 1)
    channels := s.sampled
    pcm := s.pcm ++ [s.mixed] }

/-- `n` ticks in a row (R296). -/
def ticks : ℕ → State → State
  | 0, s => s
  | n + 1, s => ticks n (tick s)

/-- `TICK` (R291). -/
def execTick (s : State) : Host.Outcome State Fault Refusal :=
  .next (respond (pcmData s.mixed) (tick s))

/-- `ITER` (R296). -/
def execIter (imm : Word32) (s : State) : Host.Outcome State Fault Refusal :=
  .next (respond (zext imm) (ticks imm.toNat s))

end Sys2Proof.Machine
end

