-- ==== Sys2Proof/Machine/System.lean ====
section
/-! DEFINITION. The system commands (`47_system.md` R310 to R314): register access. -/

namespace Sys2Proof.Machine

/-- A live sound register in its own format (`10_state.md` R44). -/
def Live.word (v : Live) : ℕ → Word32
  | 0x20 => encQ16 v.tremAmp
  | 0x21 => encQ16 v.tremFreq
  | 0x22 => encNat v.tremSteps
  | 0x23 => encQ16 v.vibAmp
  | 0x24 => encQ16 v.vibFreq
  | 0x25 => encNat v.vibSteps
  | _ => encQ16 v.pitchDepth

/-- A status register (R45). -/
def Channel.statusWord (x : Channel) : ℕ → Word32
  | 0x40 => chStatus x
  | 0x41 => encQ16 x.volume
  | 0x42 => encQ16 x.pan
  | 0x43 => encQ16 x.frequency
  | 0x44 => encQ16 x.midiNote
  | 0x45 => x.lfsr.state
  | 0x46 => encNat x.lfsr.n
  | 0x47 => x.lfsr.seed
  | 0x48 => encQ16 x.frameL
  | 0x49 => encQ16 x.frameR
  | 0x4A => encQ16 x.leftMult
  | 0x4B => encQ16 x.rightMult
  | _ => encQ16 x.snapVol

/-- The word of a channel register, if the number exists (R40, R311). -/
def Channel.readReg (x : Channel) (n : ℕ) : Option Word32 :=
  if h : n < 22 then some x.staged[n]
  else if 0x20 ≤ n ∧ n ≤ 0x26 then some (x.live.word n)
  else if 0x40 ≤ n ∧ n ≤ 0x4C then some (x.statusWord n)
  else if 0x60 ≤ n ∧ n ≤ 0x75 then some (x.active.mirror (n - 0x60))
  else none

/-- A write of a live register (R44, R312). -/
def Live.write (v : Live) (n : ℕ) (w : Word32) : Live :=
  match n with
  | 0x20 => { v with tremAmp := clamp (q16 w) 0 1 }
  | 0x21 => { v with tremFreq := uq16 w }
  | 0x22 => { v with tremSteps := w.toNat }
  | 0x23 => { v with vibAmp := clamp (q16 w) 0 32767 }
  | 0x24 => { v with vibFreq := uq16 w }
  | 0x25 => { v with vibSteps := w.toNat }
  | _ => { v with pitchDepth := q16 w }

/-- A write of a channel register, if the number exists and is writable (R40, R312). -/
def Channel.writeReg (x : Channel) (n : ℕ) (w : Word32) : Option Channel :=
  if h : n < 22 then some { x with staged := x.staged.set n w h }
  else if 0x20 ≤ n ∧ n ≤ 0x26 then some { x with live := x.live.write n w, dirty := true }
  else none

/-- The word of a global register, if the number exists (R34, R313). `COUNTER_HI` is taken modulo 2^32,
as U3 says for an unbounded counter (log 7). -/
def State.readGlobal (s : State) : ℕ → Option Word32
  | 0x0000 => some s.sampleRate
  | 0x0001 => some s.peak
  | 0x0002 => some (BitVec.ofNat 32 s.counter)
  | 0x0003 => some (BitVec.ofNat 32 (s.counter / 2 ^ 32))
  | 0x0004 => some (s.errflags.setWidth 32)
  | 0x0005 => some (BitVec.ofNat 32 s.nCh)
  | _ => none

/-- `NOP` (R310). -/
def execNop (s : State) : Host.Outcome State Fault Refusal := .next (respond 0 s)

/-- `RREG` (R311). -/
def execRreg (ch : BitVec 8) (idx : BitVec 16) (s : State) : Host.Outcome State Fault Refusal :=
  onChannel ch s fun c =>
    match (s.channel c).readReg idx.toNat with
    | some w => respond (zext w) s
    | none => raiseError .badOperand (idx.setWidth 64) s

/-- `WREG` (R312). -/
def execWreg (ch : BitVec 8) (idx : BitVec 16) (imm : Word32) (s : State) :
    Host.Outcome State Fault Refusal :=
  onChannel ch s fun c =>
    match (s.channel c).writeReg idx.toNat imm with
    | some x => updateChannel s c x
    | none => raiseError .badOperand (idx.setWidth 64) s

/-- `RGLB` (R313). -/
def execRglb (idx : BitVec 16) (s : State) : Host.Outcome State Fault Refusal :=
  .next (match s.readGlobal idx.toNat with
    | some w => respond (zext w) s
    | none => raiseError .badOperand (idx.setWidth 64) s)

/-- The write of a global register, if the number is writable and the value legal (R34, R314). A new
sample rate re-bases the previous elapsed time (R293). -/
def State.writeGlobal (s : State) (n : ℕ) (w : Word32) : Option State :=
  if w = 0 then none
  else
    match n with
    | 0x0000 => some { s with sampleRate := w, prevElapsed := (s.counter : ℚ) / (w.toNat : ℚ) }
    | 0x0001 => some { s with peak := w }
    | _ => none

/-- `WGLB` (R314). -/
def execWglb (idx : BitVec 16) (imm : Word32) (s : State) : Host.Outcome State Fault Refusal :=
  .next (match s.writeGlobal idx.toNat imm with
    | some s' => respond 0 s'
    | none => raiseError .badOperand (idx.setWidth 64) s)

end Sys2Proof.Machine
end

