-- ==== Sys2Proof/Machine/Wavetable.lean ====
section
/-! DEFINITION. The wavetable commands (`43_channel_sample.md` R241 to R243). -/

namespace Sys2Proof.Machine

/-- Entry `i` of the staging RAM as the command numbered `cmd` reads it; an entry never written is a free
value (R242, U4, log 8). -/
def Channel.stagedSample (cmd c : ℕ) (x : Channel) (i : ℕ) : ℚ :=
  q16 ((Memory.read x.wts i).getD (Config.unwrittenSample cmd c i))

/-- The index of the first of the `n` staged samples outside [-1, 1], if there is one (R242). -/
def Channel.firstBadSample (cmd c : ℕ) (x : Channel) (n : ℕ) : Option ℕ :=
  (List.range n).find? fun i => decide (x.stagedSample cmd c i < -1 ∨ 1 < x.stagedSample cmd c i)

/-- The raw buffer of `n` samples resampled to the profile's length by nearest-lower index (R242). -/
def Channel.resampled (cmd c : ℕ) (x : Channel) (n : ℕ) : List ℚ :=
  (List.range x.active.wtLen).map fun i => x.stagedSample cmd c (i * n / x.active.wtLen)

/-- The envelope of a slot read at `i / len`, for `i` from `start` on, `todo` times (R243). -/
def shapeFrom (eps : ℚ) (c len : ℕ) : ℕ → ℕ → EnvSlot → List ℚ × EnvSlot
  | 0, _, sl => ([], sl)
  | todo + 1, start, sl =>
    let r := sl.query eps c 3 0 ((start : ℚ) / len)
    let rest := shapeFrom eps c len todo (start + 1) r.2
    (r.1 :: rest.1, rest.2)

/-- `WT_STAGE` (R241). -/
def execWtStage (ch : BitVec 8) (idx : BitVec 16) (imm : Word32) (s : State) :
    Host.Outcome State Fault Refusal :=
  onChannel ch s fun c =>
    if idx.toNat < s.params.wtMax then
      updateChannel s c { s.channel c with wts := Memory.write (s.channel c).wts idx.toNat imm }
    else raiseError .badOperand (idx.setWidth 64) s

/-- `WT_COMMIT` (R242). -/
def execWtCommit (ch : BitVec 8) (imm : Word32) (s : State) : Host.Outcome State Fault Refusal :=
  onChannel ch s fun c =>
    if imm.toNat = 0 ∨ s.params.wtMax < imm.toNat then raiseError .badOperand (zext imm) s
    else
      match (s.channel c).firstBadSample s.commandNo c imm.toNat with
      | some j => raiseError .invalidWavetable (BitVec.ofNat 64 j) s
      | none =>
        updateChannel s c
          { s.channel c with wt := (s.channel c).resampled s.commandNo c imm.toNat }

/-- `WT_FROM_ENV` (R243). -/
def execWtFromEnv (ch : BitVec 8) (s : State) : Host.Outcome State Fault Refusal :=
  onChannel ch s fun c =>
    let x := s.channel c
    if (x.slot 3).env.isSome then
      let r := shapeFrom s.params.envEps c x.active.wtLen x.active.wtLen 0 (x.slot 3).resetEnv
      updateChannel s c { x.setSlot 3 r.2 with wt := r.1 }
    else raiseError .badOperand 3 s

end Sys2Proof.Machine
end

