-- ==== Sys2Proof/Machine/Dispatch.lean ====
section
/-! DEFINITION. One arm per command of the opcode table (`30_encoding.md` R98). -/

namespace Sys2Proof.Machine

def exec (i : Instr) (s : State) : Host.Outcome State Fault Refusal :=
  match i with
  | .nop => Sys2Proof.Machine.execNop s
  | .rreg ch idx => Sys2Proof.Machine.execRreg ch idx s
  | .wreg ch idx imm => Sys2Proof.Machine.execWreg ch idx imm s
  | .rglb idx => Sys2Proof.Machine.execRglb idx s
  | .wglb idx imm => Sys2Proof.Machine.execWglb idx imm s
  | .tick => Sys2Proof.Machine.execTick s
  | .iter imm => Sys2Proof.Machine.execIter imm s
  | .chInit ch => Sys2Proof.Machine.execChInit ch s
  | .play ch => Sys2Proof.Machine.execPlay ch s
  | .stop ch => Sys2Proof.Machine.execStop ch s
  | .release ch => Sys2Proof.Machine.execRelease ch s
  | .reset ch => Sys2Proof.Machine.execReset ch s
  | .setNote ch rst octave note => Sys2Proof.Machine.execSetNote ch rst octave note s
  | .setMidi ch rst imm => Sys2Proof.Machine.execSetMidi ch rst imm s
  | .setPitch ch rst imm => Sys2Proof.Machine.execSetPitch ch rst imm s
  | .setVol ch imm => Sys2Proof.Machine.execSetVol ch imm s
  | .setPan ch imm => Sys2Proof.Machine.execSetPan ch imm s
  | .setNoise ch on => Sys2Proof.Machine.execSetNoise ch on s
  | .isNoise ch => Sys2Proof.Machine.execIsNoise ch s
  | .csample ch imm => Sys2Proof.Machine.execCsample ch imm s
  | .wtStage ch idx imm => Sys2Proof.Machine.execWtStage ch idx imm s
  | .wtCommit ch imm => Sys2Proof.Machine.execWtCommit ch imm s
  | .wtFromEnv ch => Sys2Proof.Machine.execWtFromEnv ch s
  | .envKnotT ch slot k imm => Sys2Proof.Machine.execEnvKnotT ch slot k imm s
  | .envKnotV ch slot k imm => Sys2Proof.Machine.execEnvKnotV ch slot k imm s
  | .envKnotI ch slot k interp => Sys2Proof.Machine.execEnvKnotI ch slot k interp s
  | .envLoop ch slot kind loopIn loopOut => Sys2Proof.Machine.execEnvLoop ch slot kind loopIn loopOut s
  | .envDecay ch slot imm => Sys2Proof.Machine.execEnvDecay ch slot imm s
  | .envBuild ch slot imm => Sys2Proof.Machine.execEnvBuild ch slot imm s
  | .envClear ch slot => Sys2Proof.Machine.execEnvClear ch slot s
  | .envReset ch slot => Sys2Proof.Machine.execEnvReset ch slot s
  | .envRelease ch slot => Sys2Proof.Machine.execEnvRelease ch slot s
  | .envPeek ch slot imm => Sys2Proof.Machine.execEnvPeek ch slot imm s
  | .lfsrInit ch idx imm => Sys2Proof.Machine.execLfsrInit ch idx imm s
  | .lfsrStep ch => Sys2Proof.Machine.execLfsrStep ch s
  | .lfsrOut ch => Sys2Proof.Machine.execLfsrOut ch s

end Sys2Proof.Machine
end

