-- ==== Sys2Proof/Machine/Step.lean ====
section
/-! DEFINITION. One step of the chip: take the command word the host presents next, decode it, execute it
(`00_scope.md` R7, `20_memory.md` R80, `30_encoding.md` R105). -/

namespace Sys2Proof.Machine

/-- One step. With no command presented the chip is idle and nothing changes (R7, R345, log 2). -/
def step (s : State) : Host.Outcome State Fault Refusal :=
  match fetch s with
  | none => .next s
  | some (w, s') => runWord exec w s'

/-- `s` with the command word of the low `nbits` bits of `w` presented as the next one (log 1). -/
def State.withFetchWord (s : State) (nbits w : ℕ) : State := present (wordOfBits nbits w) s

end Sys2Proof.Machine
end

