-- ==== Sys2Proof/Safety.lean ====
section
/-! DEFINITION. What a legal state of the chip is, in the terms the rules use: the legal values of R34 and
R41, the types of R44 and R46, the invariants of R48, R50 and R265, the canonical form of the staging
RAMs. Every run from reset stays in it; the claims about values of states take it as a premise. -/

namespace Sys2Proof.Config

/-- The constraints of R9 on the parameters. `TAPS[n]` has bit `n - 1` set and no bit from `n` on, and from
every non-zero word of `n` bits the generator returns to it after `2^n - 1` steps and not before (R262,
R263). -/
structure Params.Legal (p : Params) : Prop where
  wtMax_pos : 1 ≤ p.wtMax
  wtMax_le : p.wtMax ≤ 65536
  kMax_pos : 1 ≤ p.kMax
  kMax_le : p.kMax ≤ 4096
  taps_ge : ∀ n, 3 ≤ n → n ≤ 32 → 2 ^ (n - 1) ≤ (p.tap n).toNat
  taps_lt : ∀ n, 3 ≤ n → n ≤ 32 → (p.tap n).toNat < 2 ^ n
  taps_close : ∀ n, 3 ≤ n → n ≤ 32 → ∀ w : Word32, w ≠ 0 → w.toNat < 2 ^ n →
    (Machine.lfsrNext p n)^[2 ^ n - 1] w = w
  taps_maximal : ∀ n, 3 ≤ n → n ≤ 32 → ∀ w : Word32, w ≠ 0 → w.toNat < 2 ^ n →
    ∀ k, 0 < k → k < 2 ^ n - 1 → (Machine.lfsrNext p n)^[k] w ≠ w
  fallback_ne : p.fallbackSeed &&& 7 ≠ 0
  envEps_nonneg : 0 ≤ p.envEps

end Sys2Proof.Config

namespace Sys2Proof.Machine

/-- `Unit`, the rationals from 0 to 1 (R13). -/
def IsUnit01 (v : ℚ) : Prop := 0 ≤ v ∧ v ≤ 1

/-- `Bipolar`, the rationals from -1 to 1 (R13). -/
def IsBipolar (v : ℚ) : Prop := -1 ≤ v ∧ v ≤ 1

/-- The legal values of an active profile under `WT_MAX` (R41, "legal at `CH_INIT`"). -/
structure Profile.Legal (wtMax : ℕ) (p : Profile) : Prop where
  wtLen_pos : 1 ≤ p.wtLen
  wtLen_le : p.wtLen ≤ wtMax
  pitchMult_pos : 0 < p.pitchMult
  pitchLo_pos : 0 < p.pitchLo
  pitch_range : p.pitchLo ≤ p.pitchHi
  volAttn_unit : IsUnit01 p.volAttn
  volExp_pos : 0 < p.volExp
  volGain_nonneg : 0 ≤ p.volGain
  noisePmult_pos : 0 < p.noisePmult
  noisePlo_pos : 2 ≤ p.noisePsteps → 0 < p.noisePlo
  noise_range : 2 ≤ p.noisePsteps → p.noisePlo ≤ p.noisePhi
  envRate_nonneg : 0 ≤ p.envRate

/-- The live registers hold what a write can store (R44). -/
structure Live.Legal (v : Live) : Prop where
  tremAmp_unit : IsUnit01 v.tremAmp
  tremFreq_nonneg : 0 ≤ v.tremFreq
  vibAmp_nonneg : 0 ≤ v.vibAmp
  vibAmp_le : v.vibAmp ≤ 32767
  vibFreq_nonneg : 0 ≤ v.vibFreq

/-- The invariants (a) to (d) of a noise generator (R265). -/
structure Lfsr.Legal (p : Config.Params) (l : Lfsr) : Prop where
  n_ge : 3 ≤ l.n
  n_le : l.n ≤ 32
  seed_ne : l.seed ≠ 0
  seed_lt : l.seed.toNat < 2 ^ l.n
  state_ne : l.state ≠ 0
  state_lt : l.state.toNat < 2 ^ l.n
  on_cycle : ∃ k, l.state = l.cycle p k

/-- A present envelope whose values lie in `[lo, 1]` (R50, R51, R140). -/
structure Envelope.Legal (kMax : ℕ) (lo : ℚ) (e : Envelope) : Prop where
  knots_ne : e.knots ≠ []
  knots_le : e.knots.length ≤ kMax
  sorted : e.knots.Pairwise fun a b => a.time ≤ b.time
  values : ∀ k ∈ e.knots, lo ≤ k.value ∧ k.value ≤ 1
  decay_unit : IsUnit01 e.decay
  head_lt : e.head < e.knots.length

/-- An envelope slot with its staging area (R50). -/
structure EnvSlot.Legal (kMax : ℕ) (lo : ℚ) (sl : EnvSlot) : Prop where
  env_legal : ∀ e, sl.env = some e → e.Legal kMax lo
  times_wf : Memory.wf kMax sl.sknotTime
  values_wf : Memory.wf kMax sl.sknotValue
  interps_wf : Memory.wf kMax sl.sknotInterp
  sdecay_unit : IsUnit01 sl.sdecay

/-- A channel whose elements have the types and legal values of R37 to R50. -/
structure Channel.Legal (p : Config.Params) (x : Channel) : Prop where
  active_legal : x.active.Legal p.wtMax
  live_legal : x.live.Legal
  noise_kind : x.noiseOn = true → x.active.noiseKind ≠ .silent
  volume_unit : IsUnit01 x.volume
  pan_bipolar : IsBipolar x.pan
  frequency_pos : 0 < x.frequency
  tone_period : x.tonePeriod = 1 / x.frequency
  noise_period : x.noisePeriod = x.active.noisePeriodOf x.frequency
  toneTime_nonneg : 0 ≤ x.toneTime
  noiseTime_nonneg : 0 ≤ x.noiseTime
  envTime_nonneg : 0 ≤ x.envTime
  lastRefresh_le : ∀ t, x.lastRefresh = some t → 0 ≤ t ∧ t ≤ x.envTime
  snapVol_nonneg : 0 ≤ x.snapVol
  snapVol_le : x.snapVol ≤ x.active.volGain
  snapTonePeriod_pos : 0 < x.snapTonePeriod
  snapNoisePeriod_pos : 0 < x.snapNoisePeriod
  leftMult_unit : IsUnit01 x.leftMult
  rightMult_unit : IsUnit01 x.rightMult
  out_bipolar : IsBipolar x.out
  wavePrev_bipolar : ∀ w, x.wavePrev = some w → IsBipolar w
  noiseHeld_bipolar : IsBipolar x.noiseHeld
  wt_length : x.wt.length = x.active.wtLen
  wt_bipolar : ∀ v ∈ x.wt, IsBipolar v
  wts_wf : Memory.wf p.wtMax x.wts
  lfsr_legal : x.lfsr.Legal p
  env_legal : ∀ i : Fin 4, (x.slot i).Legal p.kMax (slotLow i)

/-- A PCM frame in the range of R295. -/
def PcmFrame.InRange (f : PcmFrame) : Prop :=
  (-32767 ≤ f.left ∧ f.left ≤ 32767) ∧ (-32767 ≤ f.right ∧ f.right ≤ 32767)

/-- A legal state of the chip: parameters as R9 constrains them, the legal values of R34, every channel
legal, the clock in step (R292, R293), one PCM frame in range for each count of the sample counter (R297,
R341). -/
structure State.Legal (s : State) : Prop where
  params_legal : s.params.Legal
  channels_pos : 1 ≤ s.nCh
  channels_le : s.nCh ≤ 255
  sampleRate_ne : s.sampleRate ≠ 0
  peak_ne : s.peak ≠ 0
  elapsed : s.prevElapsed = (s.counter : ℚ) / (s.sampleRate.toNat : ℚ)
  channels_legal : ∀ c, c < s.nCh → (s.channel c).Legal s.params
  pcm_length : s.pcm.length = s.counter
  pcm_range : ∀ f ∈ s.pcm, f.InRange

/-- A run of the chip ends in a next state: it never stops. -/
def Completes (o : Host.Outcome State Fault Refusal) : Prop := ∃ t, o = .next t

end Sys2Proof.Machine
end

