-- ==== Sys2Proof/Certificates/Slice0/Obligations.lean ====
section
/-! DEFINITION. The statements for the provers, made from the numbered rules of `spec/`. What a command
leaves is written as a whole next state, so that each statement is also its frame: every field it does not
name is the one before. -/

namespace Sys2Proof.Claim

open Sys2Proof Sys2Proof.Machine

/-! ## The words the statements share -/

/-- `s` after a command that ended `OK` with this response data (`30_encoding.md` R93). -/
def okay (s : State) (data : Word64) : State :=
  { s with responses := s.responses ++ [⟨.ok, data⟩] }

/-- `s` after a command that ended in an error: `ERRFLAGS[status - 1] <- 1` and the response
(`60_exceptions.md` R335). -/
def failed (s : State) (st : Status) (data : Word64) : State :=
  { s with
    errflags := s.errflags ||| (1#4 <<< (st.code.toNat - 1))
    responses := s.responses ++ [⟨st, data⟩] }

/-- `s` with the channel in slot `c` replaced. -/
def withChannel (s : State) (c : ℕ) (x : Channel) : State :=
  { s with channels := s.channels.set c x }

/-- `x` with the envelope slot `i` replaced. -/
def withSlot (x : Channel) (i : Fin 4) (sl : EnvSlot) : Channel :=
  { x with env := x.env.set i.val sl i.isLt }

/-- `floor(x · 65536)` as a 32-bit word (R95). -/
def fixed16 (x : ℚ) : Word32 := BitVec.ofInt 32 ⌊x * 65536⌋

/-- `x` limited to `[lo, hi]`. -/
def limit (lo hi x : ℚ) : ℚ := max lo (min hi x)

/-- The channel registers and the word each reads as (`10_state.md` R41, R42, R44, R45). -/
def channelRegisters (x : Channel) : List (ℕ × Word32) :=
  (List.range 22).map (fun n => (n, x.staged.toList.getD n 0)) ++
  [ (0x20, fixed16 x.live.tremAmp), (0x21, fixed16 x.live.tremFreq),
    (0x22, BitVec.ofNat 32 x.live.tremSteps), (0x23, fixed16 x.live.vibAmp),
    (0x24, fixed16 x.live.vibFreq), (0x25, BitVec.ofNat 32 x.live.vibSteps),
    (0x26, fixed16 x.live.pitchDepth),
    (0x40, BitVec.ofNat 32 (x.playing.toNat + 2 * x.released.toNat + 4 * x.noiseOn.toNat +
      8 * x.dirty.toNat)),
    (0x41, fixed16 x.volume), (0x42, fixed16 x.pan), (0x43, fixed16 x.frequency),
    (0x44, fixed16 x.midiNote), (0x45, x.lfsr.state), (0x46, BitVec.ofNat 32 x.lfsr.n),
    (0x47, x.lfsr.seed), (0x48, fixed16 x.frameL), (0x49, fixed16 x.frameR),
    (0x4A, fixed16 x.leftMult), (0x4B, fixed16 x.rightMult), (0x4C, fixed16 x.snapVol),
    (0x60, BitVec.ofNat 32 x.active.wtLen), (0x61, BitVec.ofNat 32 x.active.wtSteps),
    (0x62, BitVec.ofNat 32 x.active.wtLoop.toNat), (0x63, BitVec.ofNat 32 x.active.panSteps),
    (0x64, fixed16 x.active.pitchMult), (0x65, fixed16 x.active.pitchLo),
    (0x66, fixed16 x.active.pitchHi), (0x67, BitVec.ofNat 32 x.active.pitchSteps),
    (0x68, fixed16 x.active.volAttn), (0x69, fixed16 x.active.volExp),
    (0x6A, fixed16 x.active.volGain), (0x6B, BitVec.ofNat 32 x.active.volNonneg.toNat),
    (0x6C, BitVec.ofNat 32 x.active.volSteps),
    (0x6D, match x.active.noiseKind with
      | .silent => 0
      | .random => 1
      | .melodic => 2),
    (0x6E, BitVec.ofNat 32 x.active.noiseLen), (0x6F, BitVec.ofNat 32 x.active.noiseVsteps),
    (0x70, fixed16 x.active.noisePmult), (0x71, BitVec.ofNat 32 x.active.noisePsteps),
    (0x72, fixed16 x.active.noisePlo), (0x73, fixed16 x.active.noisePhi),
    (0x74, fixed16 x.active.envRate), (0x75, x.active.lfsrSeed) ]

/-- The live registers and what a write of the word `w` makes of them (R44, `47_system.md` R312). -/
def liveWrites (v : Live) (w : Word32) : List (ℕ × Live) :=
  [ (0x20, { v with tremAmp := limit 0 1 (w.toInt / 65536) }),
    (0x21, { v with tremFreq := w.toNat / 65536 }),
    (0x22, { v with tremSteps := w.toNat }),
    (0x23, { v with vibAmp := limit 0 32767 (w.toInt / 65536) }),
    (0x24, { v with vibFreq := w.toNat / 65536 }),
    (0x25, { v with vibSteps := w.toNat }),
    (0x26, { v with pitchDepth := w.toInt / 65536 }) ]

/-- The data of `E_BAD_OPERAND` for a command whose operands name nothing on a chip of `nCh` channels
(`60_exceptions.md` R333). -/
def badOperandData (nCh : ℕ) : Instr → Word64
  | .rreg ch idx | .wreg ch idx _ | .wtStage ch idx _ =>
    if ch.toNat < nCh then BitVec.ofNat 64 idx.toNat else 0
  | .rglb idx | .wglb idx _ => BitVec.ofNat 64 idx.toNat
  | .wtCommit ch imm => if ch.toNat < nCh then BitVec.ofNat 64 imm.toNat else 0
  | _ => 0

/-- The channel a command names, if its format has the field (`30_encoding.md` R92). -/
def namedChannel : Instr → Option (BitVec 8)
  | .nop | .rglb _ | .wglb _ _ | .tick | .iter _ => none
  | .rreg ch _ | .wreg ch _ _ | .chInit ch | .play ch | .stop ch | .release ch | .reset ch
  | .setNote ch _ _ _ | .setMidi ch _ _ | .setPitch ch _ _ | .setVol ch _ | .setPan ch _
  | .setNoise ch _ | .isNoise ch | .csample ch _ | .wtStage ch _ _ | .wtCommit ch _
  | .wtFromEnv ch | .envKnotT ch _ _ _ | .envKnotV ch _ _ _ | .envKnotI ch _ _ _
  | .envLoop ch _ _ _ _ | .envDecay ch _ _ | .envBuild ch _ _ | .envClear ch _ | .envReset ch _
  | .envRelease ch _ | .envPeek ch _ _ | .lfsrInit ch _ _ | .lfsrStep ch | .lfsrOut ch => some ch

/-- The legality conditions of `CH_INIT` on the staged words under `WT_MAX`, in register-number order, each
with the number a failure is reported at (`42_channel_control.md` R182). -/
def profileConditions (wtMax : ℕ) (w : Vector Word32 22) : List (ℕ × Prop) :=
  [ (0x00, 1 ≤ w[0x00].toNat ∧ w[0x00].toNat ≤ wtMax),
    (0x02, w[0x02] = 0 ∨ w[0x02] = 1),
    (0x04, 0 < w[0x04].toInt),
    (0x05, 0 < w[0x05].toNat),
    (0x06, w[0x05].toNat ≤ w[0x06].toNat),
    (0x08, 0 ≤ w[0x08].toInt ∧ w[0x08].toInt ≤ 65536),
    (0x09, 0 < w[0x09].toInt),
    (0x0A, 0 ≤ w[0x0A].toInt),
    (0x0B, w[0x0B] = 0 ∨ w[0x0B] = 1),
    (0x0D, w[0x0D] = 0 ∨ w[0x0D] = 1 ∨ w[0x0D] = 2),
    (0x10, 0 < w[0x10].toInt),
    (0x12, 2 ≤ w[0x11].toNat → 0 < w[0x12].toNat),
    (0x13, 2 ≤ w[0x11].toNat → w[0x12].toNat ≤ w[0x13].toNat) ]

/-- The effective tone period of a profile at a frequency (R196). -/
def tonePeriod (p : Profile) (f : ℚ) : ℚ :=
  1 / (if 2 ≤ p.pitchSteps then quantize (f * p.pitchMult) p.pitchSteps p.pitchLo p.pitchHi
       else limit p.pitchLo p.pitchHi (f * p.pitchMult))

/-- The noise period of a profile at a frequency (R196). -/
def noisePeriod (p : Profile) (f : ℚ) : ℚ :=
  p.noisePmult / (if 2 ≤ p.noisePsteps then quantize f p.noisePsteps p.noisePlo p.noisePhi else f)

/-- The channel after `set_frequency(c, f, m, rst)` (R187). -/
def retuned (x : Channel) (f m : ℚ) (rst : Bool) : Channel :=
  { x with
    frequency := f
    midiNote := m
    tonePeriod := 1 / f
    noisePeriod := noisePeriod x.active f
    toneTime :=
      if x.active.wtLoop && x.playing && !rst then
        Int.fract (x.toneTime / x.snapTonePeriod) * tonePeriod x.active f
      else 0
    snapTonePeriod := tonePeriod x.active f
    snapNoisePeriod := noisePeriod x.active f
    dirty := true }

/-- The envelopes of slots 0 to 2 changed by `f`, slot 3 as it is. -/
def soundingEnvelopes (x : Channel) (f : Envelope → Envelope) : Vector EnvSlot 4 :=
  Vector.ofFn fun i =>
    if i.val ≤ 2 then { x.slot i with env := (x.slot i).env.map f } else x.slot i

/-- An envelope after `env_reset` (`41_envelope.md` R142), with the model's record of query times cleared
(log 9). -/
def rewound (e : Envelope) : Envelope :=
  { e with
    head := 0, release := false, captured := false, relTime := 0, relPos := 0
    lastQuery := none, strayed := false }

/-- The channel after `channel_reset` (R186). -/
def rewoundChannel (x : Channel) : Channel :=
  { x with
    toneTime := 0, noiseTime := 0, envTime := 0
    env := soundingEnvelopes x rewound
    released := false, dirty := true, lastRefresh := none }

/-- Whether the next sample refreshes the snapshot (`43_channel_sample.md` R223). -/
def refreshes (x : Channel) : Bool :=
  x.dirty || x.lastRefresh.isNone || decide (x.active.envRate = 0) ||
    decide (1 / x.active.envRate ≤ x.envTime - x.lastRefresh.getD 0)

/-- A sine modulator at the channel's envelope time (R224, R225). -/
def sineAt (x : Channel) (amp freq : ℚ) (steps : ℕ) : ℚ :=
  amp * quantize (Config.num.val.sint (freq * x.envTime)) steps (-1) 1

/-- The refreshed volume multiplier for the volume envelope value `ve` (R224). -/
def refreshedVolume (x : Channel) (ve : ℚ) : ℚ :=
  let trem := sineAt x x.live.tremAmp x.live.tremFreq x.live.tremSteps
  Config.num.val.pow (quantize (limit 0 1 (x.volume * ve + trem)) x.active.volSteps 0 1)
    x.active.volExp * x.active.volGain

/-- The deflected frequency for the pitch envelope value `pe` (R225). -/
def refreshedFrequency (x : Channel) (pe : ℚ) : ℚ :=
  let vib := sineAt x x.live.vibAmp x.live.vibFreq x.live.vibSteps
  x.frequency * Config.num.val.exp2 ((pe * x.live.pitchDepth + vib) / 12)

/-- The quantized wavetable sample at the channel's phase under the period `p` (R226). -/
def tableSample (x : Channel) (p : ℚ) : ℚ :=
  let ph := if x.active.wtLoop then Int.fract (x.toneTime / p) else limit 0 1 (x.toneTime / p)
  quantize (x.wt.getD (min ⌊ph * x.active.wtLen⌋.toNat (x.active.wtLen - 1)) 0) x.active.wtSteps (-1) 1

/-- The level of step 8 for the value `val` under the volume multiplier `vol` (R231). -/
def outputLevel (p : Profile) (vol val : ℚ) : ℚ :=
  if p.volNonneg then max (val * vol) 0 else val * vol

/-- The value an envelope slot of channel `c` answers to the sampler at the channel's envelope time, under
the width threshold `eps`; `absent` without an envelope (R224, R225, R229). -/
def envelopeValue (eps : ℚ) (c : ℕ) (x : Channel) (i : Fin 4) (absent : ℚ) : ℚ :=
  match (x.slot i).env with
  | none => absent
  | some e => (e.peek eps (Config.strayPeek c i.val (x.slot i).peeks) x.envTime).1

/-- The envelope slot `i` after the sampler has queried it. -/
def queriedSlot (eps : ℚ) (c : ℕ) (x : Channel) (i : Fin 4) : EnvSlot :=
  match (x.slot i).env with
  | none => x.slot i
  | some e =>
    { x.slot i with
      env := some (e.peek eps (Config.strayPeek c i.val (x.slot i).peeks) x.envTime).2
      peeks := (x.slot i).peeks + 1 }

/-- The value of step 6 when noise is on: the noise, or the blend of tone and noise by the noise envelope
(R229). -/
def noisyValue (eps : ℚ) (c : ℕ) (x : Channel) (tone nz : ℚ) : ℚ :=
  if (x.slot 2).env = none then nz else tone + (nz - tone) * envelopeValue eps c x 2 1

/-- `lfsr_next(state, n)` (R262). -/
def nextWord (p : Config.Params) (n : ℕ) (w : Word32) : Word32 :=
  (w >>> 1) ^^^ (p.tap n &&& (if w.getLsbD 0 then BitVec.allOnes 32 else 0))

/-- The Random noise value of a generator whose register holds `w` (R227, R264). -/
def randomValue (x : Channel) (w : Word32) : ℚ :=
  quantize (2 * ((w.toNat % 2 ^ x.lfsr.n : ℕ) / ((2 ^ x.lfsr.n : ℕ) : ℚ)) - 1) x.active.noiseVsteps (-1) 1

/-- The Melodic noise value under the noise period `pn` (R228, R266). -/
def melodicValue (p : Config.Params) (x : Channel) (pn : ℚ) : ℚ :=
  let len : ℕ := 2 ^ x.lfsr.n - 1
  let k := min ⌊Int.fract (x.noiseTime / pn) * len⌋.toNat (len - 1)
  let u : ℚ := (((nextWord p x.lfsr.n)^[k] x.lfsr.seed).toNat : ℚ) / ((2 ^ x.lfsr.n : ℕ) : ℚ)
  quantize (2 * u - 1) x.active.noiseVsteps (-1) 1

/-- Whether step 5 resamples the Random noise under the noise period `pn` (R227). -/
def resamples (x : Channel) (pn : ℚ) : Bool :=
  x.active.noiseKind = .random && decide (pn ≤ x.noiseTime)

/-- The state after `n` commands `TICK` in a row. -/
def tickRun : ℕ → State → State
  | 0, s => s
  | n + 1, s =>
    match exec .tick s with
    | .next t => tickRun n t
    | _ => s

/-- `to_pcm(soft_clip(sum))` of a side (`45_mixer.md` R294, R295). -/
def pcmOf (peak : Word32) (sum : ℚ) : ℤ :=
  let y := limit (-1) 1 (Config.num.val.sint (limit (-1) 1 (sum / peak.toNat) / 4)) * 32767
  if 0 ≤ y then ⌊y⌋ else ⌈y⌉

/-- Entry `i` of the wavetable staging RAM; an entry never written is a free value (log 8). -/
def stagedValue (s : State) (c i : ℕ) : ℚ :=
  (((Memory.read (s.channel c).wts i).getD
    (Config.unwrittenSample s.responses.length c i)).toInt : ℚ) / 65536

/-- Staged knot `k` of a slot; a part never written is a free value (log 8). -/
def stagedKnot (s : State) (c : ℕ) (i : Fin 4) (k : ℕ) : Knot where
  time := (((Memory.read ((s.channel c).slot i).sknotTime k).getD
    (Config.unwrittenKnotTime s.responses.length c i.val k)).toInt : ℚ) / 65536
  value := (((Memory.read ((s.channel c).slot i).sknotValue k).getD
    (Config.unwrittenKnotValue s.responses.length c i.val k)).toInt : ℚ) / 65536
  interp := (Memory.read ((s.channel c).slot i).sknotInterp k).getD
    (if Config.unwrittenKnotStep s.responses.length c i.val k then .step else .linear)

/-- The lowest value an envelope slot may hold (`10_state.md` R51). -/
def lowest (i : Fin 4) : ℚ := if i.val % 2 = 0 then 0 else -1

end Sys2Proof.Claim

open Sys2Proof Sys2Proof.Machine Sys2Proof.Claim

/-! ## Encoding (`30_encoding.md`) -/

/-- Decoding undoes encoding, for every command with every operand (R91, R92, R97, R98). -/
def Obligations.DecodeUndoesEncode : Prop :=
  ∀ i : Instr, decode (encode i) = .ok i

/-- A word that decodes is the one word of its command (R105: any word is exactly one command or is
illegal). -/
def Obligations.EncodeUndoesDecode : Prop :=
  ∀ (w : Word64) (i : Instr), decode w = .ok i → encode i = w

/-- The decoder accepts exactly the words of the opcode table in its mask and pattern form (R98, R105). -/
def Obligations.DecoderAcceptsTheOpcodeTable : Prop :=
  ∀ w : Word64, (∃ i, decode w = .ok i) ↔ ∃ r ∈ opcodeTable, w &&& r.mask = r.pattern

/-- Words written out from the examples of the spec decode to their commands (R110, R157, R267, R269 and
vector V-D1). -/
def Obligations.ExampleWordsDecode : Prop :=
  decode 0x2700000001B80000 = .ok (.setPitch 0 false 0x01B80000) ∧
  decode 0x2700000101B80000 = .ok (.setPitch 0 true 0x01B80000) ∧
  decode 0x4002100500008000 = .ok (.envKnotT 2 1 5 0x00008000) ∧
  decode 0x0200000900030000 = .ok (.wreg 0 9 0x00030000) ∧
  decode 0x1000000000000000 = .ok .tick ∧
  decode 0x25020001FFFF000B = .ok (.setNote 2 true 0xFFFF 0x000B) ∧
  decode 0x4301000000030022 = .ok (.envLoop 1 0 .loopPoints 2 3) ∧
  decode 0x4500200000000003 = .ok (.envBuild 0 2 3) ∧
  decode 0x500000100000ACE1 = .ok (.lfsrInit 0 16 0xACE1) ∧
  decode 0x5200000000000000 = .ok (.lfsrOut 0)

/-- A step takes the word the host presents next and runs the command it decodes to (R80, R105; the inbox
is the model's, log 1). -/
def Obligations.StepRunsTheDecodedCommand : Prop :=
  ∀ (s : State) (w : Word64) (rest : List Word64) (i : Instr),
    s.inbox = w :: rest → decode w = .ok i → step s = exec i { s with inbox := rest }

/-- A word of no row of the opcode table, by its opcode (R107) or by a must-be-zero bit (R106), is
answered with `E_ILLEGAL_COMMAND` and data 0 and changes nothing but the flag. -/
def Obligations.WordsOffTheTableAreIllegal : Prop :=
  ∀ (s : State) (w : Word64) (rest : List Word64),
    s.inbox = w :: rest → (∀ r ∈ opcodeTable, w &&& r.mask ≠ r.pattern) →
    step s = .next (failed { s with inbox := rest } .illegalCommand 0)

/-- Between commands no state changes (R7; that such a step is taken at all is the model's choice, log 2). -/
def Obligations.IdleChipChangesNothing : Prop :=
  ∀ s : State, s.inbox = [] → step s = .next s

/-! ## The whole machine -/

/-- Every word the host presents is answered, once; an error changes its sticky flag and nothing else, a
success leaves the flags (R93, R330, R335). -/
def Obligations.EveryWordIsAnsweredOnce : Prop :=
  ∀ (s : State) (w : Word64) (rest : List Word64), s.inbox = w :: rest →
    ∃ (t : State) (r : Response), step s = .next t ∧
      t.responses = s.responses ++ [r] ∧ t.inbox = rest ∧
      (r.status = .ok → t.errflags = s.errflags) ∧
      (r.status ≠ .ok → t = failed { s with inbox := rest } r.status r.data)

/-- A command whose operands name nothing or have an illegal value, as far as the command alone shows, is
refused with the data the table gives, and nothing else happens (R105 (3) and (4), R333, R335). -/
def Obligations.OperandsThatNameNothingAreRefused : Prop :=
  ∀ (i : Instr) (s : State), i.wellFormed s.nCh s.params = false →
    exec i s = .next (failed s .badOperand (badOperandData s.nCh i))

/-- A command that names a channel changes no other channel, no global register but the error flags, and no
parameter (`00_scope.md` R8, R9). -/
def Obligations.ChannelCommandsStayInTheirChannel : Prop :=
  ∀ (i : Instr) (ch : BitVec 8) (s : State), namedChannel i = some ch →
    ∃ t, exec i s = .next t ∧
      (∀ c, c ≠ ch.toNat → t.channel c = s.channel c) ∧ t.nCh = s.nCh ∧ t.params = s.params ∧
      t.sampleRate = s.sampleRate ∧ t.peak = s.peak ∧ t.counter = s.counter ∧
      t.prevElapsed = s.prevElapsed ∧ t.pcm = s.pcm ∧ t.inbox = s.inbox

/-- What a command that names a channel does there does not depend on the other channels: from two states
of one configuration that agree on that channel and on the number of responses given, it leaves the same
channel and the same response (R8). The number of responses matters only through the free values of
log 8. -/
def Obligations.ChannelCommandsReadTheirChannelOnly : Prop :=
  ∀ (i : Instr) (ch : BitVec 8) (s s' : State),
    let c := ch.toNat
    namedChannel i = some ch → s.params = s'.params → s.nCh = s'.nCh → s.channel c = s'.channel c →
    s.responses.length = s'.responses.length →
    ∃ t t' r, exec i s = .next t ∧ exec i s' = .next t' ∧ t.channel c = t'.channel c ∧
      t.responses = s.responses ++ [r] ∧ t'.responses = s'.responses ++ [r]

/-- Every step from a legal state leads to a legal state, under every configuration of R9: the ranges
of R34, R41, R44, R46, R50, the generator invariants that the spec infers in R265, the range of a frame (R297),
and the canonical form of the staging RAMs, which is the model's (log 11). -/
def Obligations.StepKeepsTheStateLegal : Prop :=
  ∀ s t : State, s.Legal → step s = .next t → t.Legal

/-- The state after reset is legal (R360), for every legal configuration whose wavetables can hold the 32
entries of the reset profile, and for the defaults of R9, whose tap table has every period it must (R263);
that `State.reset` carries the defaults is the model's choice (log 4). -/
def Obligations.ResetStateIsLegal : Prop :=
  (∀ (nCh : ℕ) (p : Config.Params), 1 ≤ nCh → nCh ≤ 255 → p.Legal → 32 ≤ p.wtMax →
    (State.resetWith nCh p).Legal) ∧
  State.reset = State.resetWith 8 Config.defaults ∧ State.reset.Legal

/-! ## Register access (`47_system.md`) -/

/-- `NOP` only answers, and its only word is 0 (R310). -/
def Obligations.NopOnlyAnswers : Prop :=
  (∀ w : Word64, decode w = .ok .nop ↔ w = 0) ∧
  (∀ w : Word64, w ≠ 0 → w.toNat < 2 ^ 56 → decode w = .error (.reservedBits 0)) ∧
  ∀ s : State, exec .nop s = .next (okay s 0)

/-- `RREG` answers the word of the register and changes nothing; a number that does not exist is refused
with the number (R311, R40 to R45). -/
def Obligations.ReadRegisterAnswersItsWord : Prop :=
  ∀ (ch : BitVec 8) (idx : BitVec 16) (s : State), ch.toNat < s.nCh →
    encode (.rreg ch idx) = 0x01#8 ++ ch ++ idx ++ 0#32 ∧
    (∀ v, (idx.toNat, v) ∈ channelRegisters (s.channel ch.toNat) →
      exec (.rreg ch idx) s = .next (okay s (BitVec.ofNat 64 v.toNat))) ∧
    (idx.toNat ∉ (channelRegisters (s.channel ch.toNat)).map Prod.fst →
      exec (.rreg ch idx) s = .next (failed s .badOperand (BitVec.ofNat 64 idx.toNat)))

/-- `WREG` stores a staged word raw, converts and clamps a live register and sets `dirty`, and refuses
every other number (R312). -/
def Obligations.WriteRegisterStoresItsWord : Prop :=
  ∀ (ch : BitVec 8) (idx : BitVec 16) (imm : Word32) (s : State), ch.toNat < s.nCh →
    let c := ch.toNat
    let x := s.channel c
    encode (.wreg ch idx imm) = 0x02#8 ++ ch ++ idx ++ imm ∧
    (∀ hn : idx.toNat < 22,
      exec (.wreg ch idx imm) s =
        .next (okay (withChannel s c { x with staged := x.staged.set idx.toNat imm hn }) 0)) ∧
    (∀ v, (idx.toNat, v) ∈ liveWrites x.live imm →
      exec (.wreg ch idx imm) s =
        .next (okay (withChannel s c { x with live := v, dirty := true }) 0)) ∧
    (22 ≤ idx.toNat → idx.toNat ∉ (liveWrites x.live imm).map Prod.fst →
      exec (.wreg ch idx imm) s = .next (failed s .badOperand (BitVec.ofNat 64 idx.toNat)))

/-- `RGLB` answers the global registers and refuses every other number (R34, R313). -/
def Obligations.ReadGlobalAnswersItsWord : Prop :=
  ∀ (idx : BitVec 16) (s : State),
    let registers : List (ℕ × ℕ) :=
      [ (0, s.sampleRate.toNat), (1, s.peak.toNat), (2, s.counter % 2 ^ 32),
        (3, s.counter / 2 ^ 32 % 2 ^ 32), (4, s.errflags.toNat), (5, s.nCh % 2 ^ 32) ]
    encode (.rglb idx) = 0x03#8 ++ 0#8 ++ idx ++ 0#32 ∧
    (∀ v, (idx.toNat, v) ∈ registers → exec (.rglb idx) s = .next (okay s (BitVec.ofNat 64 v))) ∧
    (5 < idx.toNat → exec (.rglb idx) s = .next (failed s .badOperand (BitVec.ofNat 64 idx.toNat)))

/-- `WGLB` sets the sample rate, re-basing the elapsed time, or the peak; it refuses zero, the read-only
registers and every other number (R314). -/
def Obligations.WriteGlobalSetsRateOrPeak : Prop :=
  ∀ (idx : BitVec 16) (imm : Word32) (s : State),
    encode (.wglb idx imm) = 0x04#8 ++ 0#8 ++ idx ++ imm ∧
    (idx = 0 → imm ≠ 0 → exec (.wglb idx imm) s =
      .next (okay { s with sampleRate := imm, prevElapsed := (s.counter : ℚ) / (imm.toNat : ℚ) } 0)) ∧
    (idx = 1 → imm ≠ 0 → exec (.wglb idx imm) s = .next (okay { s with peak := imm } 0)) ∧
    (imm = 0 ∨ 1 < idx.toNat →
      exec (.wglb idx imm) s = .next (failed s .badOperand (BitVec.ofNat 64 idx.toNat)))

/-! ## The mixer (`45_mixer.md`) -/

/-- `TICK` advances the clock, samples every channel with the elapsed delta, and emits and answers the
soft-clipped sum of the sides (R291 to R295). -/
def Obligations.TickAdvancesSamplesAndMixes : Prop :=
  ∀ s : State,
    let elapsed : ℚ := ((s.counter + 1 : ℕ) : ℚ) / (s.sampleRate.toNat : ℚ)
    let after : ℕ → Channel := fun c => (s.channel c).sample s.params c (elapsed - s.prevElapsed)
    let l := pcmOf s.peak (∑ c ∈ Finset.range s.nCh, (after c).frameL)
    let r := pcmOf s.peak (∑ c ∈ Finset.range s.nCh, (after c).frameR)
    exec .tick s = .next (okay
      { s with
        counter := s.counter + 1
        prevElapsed := elapsed
        channels := (List.range s.nCh).map after
        pcm := s.pcm ++ [⟨l, r⟩] }
      (BitVec.ofNat 64 ((l % 65536).toNat * 65536 + (r % 65536).toNat)))

/-- `ITER n` is exactly `n` commands `TICK` in a row, in state and in PCM output, with one response (R296). -/
def Obligations.IterIsRepeatedTicks : Prop :=
  ∀ (imm : Word32) (s : State),
    exec (.iter imm) s = .next
      { tickRun imm.toNat s with
        responses := s.responses ++ [⟨.ok, BitVec.ofNat 64 imm.toNat⟩] }

/-- From every state, a tick emits one frame within -32767 .. 32767 (R297, an inference the spec marks
as its own, from R294 and R295). -/
def Obligations.TickOutputStaysInRange : Prop :=
  ∀ s : State, ∃ t f, exec .tick s = .next t ∧ t.pcm = s.pcm ++ [f] ∧
    -32767 ≤ f.left ∧ f.left ≤ 32767 ∧ -32767 ≤ f.right ∧ f.right ≤ 32767

/-- The soft clip is the quarter sine of the limited sum: 0 at 0, 1/2 at a third of the peak, 1 from the
peak on, odd and non-decreasing (R294). -/
def Obligations.SoftClipIsAQuarterSine : Prop :=
  ∀ p : ℚ, 0 < p →
    (∀ x, softClip p x = limit (-1) 1 (Config.num.val.sint (limit (-1) 1 (x / p) / 4))) ∧
    softClip p 0 = 0 ∧ softClip p (p / 3) = 1 / 2 ∧ (∀ x, p ≤ x → softClip p x = 1) ∧
    (∀ x, softClip p (-x) = -softClip p x) ∧
    (∀ x y, x ≤ y → softClip p x ≤ softClip p y)

/-- A chip whose channels are all stopped with nothing held stays silent for any number of ticks (R362, an
inference the spec marks as its own; here for every such state and not the reset state alone). -/
def Obligations.SilentChipStaysSilent : Prop :=
  ∀ (imm : Word32) (s : State),
    (∀ c < s.nCh, (s.channel c).playing = false ∧ (s.channel c).out = 0) →
    ∃ t, exec (.iter imm) s = .next t ∧
      t.pcm = s.pcm ++ List.replicate imm.toNat ⟨0, 0⟩ ∧ t.counter = s.counter + imm.toNat ∧
      t.nCh = s.nCh ∧ ∀ c < s.nCh, (t.channel c).playing = false ∧ (t.channel c).out = 0

/-- A channel after a tick depends only on itself and on the delta (R298, an inference the spec marks as its
own, from R291 and R8). -/
def Obligations.ChannelsTickIndependently : Prop :=
  ∀ (s s' : State) (c : ℕ), c < s.nCh → c < s'.nCh → s.params = s'.params → s.channel c = s'.channel c →
    ((s.counter + 1 : ℕ) : ℚ) / (s.sampleRate.toNat : ℚ) - s.prevElapsed =
      ((s'.counter + 1 : ℕ) : ℚ) / (s'.sampleRate.toNat : ℚ) - s'.prevElapsed →
    ∃ t t', exec .tick s = .next t ∧ exec .tick s' = .next t' ∧ t.channel c = t'.channel c

/-! ## Channel control (`42_channel_control.md`) -/

/-- `CH_INIT` with legal staged words installs the profile they mean and sets every other element to its
reset value; the staged words and the staging areas stay (R182). The pan multipliers are the one clause
that is the model's choice: they follow R182's call of `update_pan`, which for an even number of pan steps
is not the reset value (1, 1) that R182 remarks (log 15, DEDUCED). -/
def Obligations.ChInitInstallsTheStagedProfile : Prop :=
  ∀ (ch : BitVec 8) (s : State), ch.toNat < s.nCh →
    let c := ch.toNat
    let x := s.channel c
    let p := interpret x.staged
    let pan := quantize 0 p.panSteps (-1) 1
    (∀ q ∈ profileConditions s.params.wtMax x.staged, q.2) →
    exec (.chInit ch) s = .next (okay (withChannel s c
      { staged := x.staged
        active := p
        live := { tremAmp := 0, tremFreq := 0, tremSteps := 0, vibAmp := 0, vibFreq := 0,
                  vibSteps := 0, pitchDepth := 12 }
        playing := false, released := false, noiseOn := false, dirty := true
        volume := 1, pan := 0, frequency := 440, midiNote := 69, tonePeriod := 1 / 440
        noisePeriod := noisePeriod p 440
        toneTime := 0, noiseTime := 0, envTime := 0, lastRefresh := none
        snapVol := 0
        snapTonePeriod := tonePeriod p 440
        snapNoisePeriod := noisePeriod p 440
        leftMult := limit 0 1 (1 - pan), rightMult := limit 0 1 (1 + pan)
        out := 0, wavePrev := none, noiseHeld := 0, frameL := 0, frameR := 0
        wt := (List.range x.staged[0].toNat).map fun i => if 2 * i < x.staged[0].toNat then 1 else -1
        wts := x.wts
        lfsr := lfsrNew s.params x.staged[0x0E].toNat x.staged[0x15]
        env := Vector.ofFn fun i => { x.slot i with env := none } }) 0)

/-- `CH_INIT` reports the first staged register that fails its condition, and nothing else happens (R182). -/
def Obligations.ChInitReportsTheFirstBadRegister : Prop :=
  ∀ (ch : BitVec 8) (s : State) (before after : List (ℕ × Prop)) (n : ℕ) (legal : Prop),
    ch.toNat < s.nCh →
    profileConditions s.params.wtMax (s.channel ch.toNat).staged = before ++ (n, legal) :: after →
    (∀ q ∈ before, q.2) → ¬legal →
    exec (.chInit ch) s = .next (failed s .badOperand (BitVec.ofNat 64 n))

/-- After a successful `CH_INIT` the active mirror of every register reads as the staged word (R42). -/
def Obligations.MirrorReadsTheStagedWord : Prop :=
  ∀ (ch : BitVec 8) (s : State) (n : ℕ) (hn : n < 22), ch.toNat < s.nCh →
    (∀ q ∈ profileConditions s.params.wtMax (s.channel ch.toNat).staged, q.2) →
    ∃ t, exec (.chInit ch) s = .next t ∧
      exec (.rreg ch (BitVec.ofNat 16 (0x60 + n))) t =
        .next (okay t (BitVec.ofNat 64 (s.channel ch.toNat).staged[n].toNat))

/-- Hardware reset (R360) of a chip of any configuration whose wavetables can hold the 32 entries of the
reset profile: the global registers, the staged reset words of R41 and the staging areas of every channel,
and the rest as `CH_INIT` constructs it from those words: `CH_INIT` of a channel right after reset passes
its checks and changes nothing. Two clauses are the model's choice: no staging entry is written, so that
each reads as a free value (log 8), and `State.reset` carries the defaults of R9 (log 4). -/
def Obligations.ResetIsConstructionFromTheResetProfile : Prop :=
  State.reset = State.resetWith 8 Config.defaults ∧
  ∀ (nCh : ℕ) (p : Config.Params), nCh ≤ 255 → 32 ≤ p.wtMax →
    let s := State.resetWith nCh p
    s.nCh = nCh ∧ s.params = p ∧ s.sampleRate = 44100 ∧ s.peak = BitVec.ofNat 32 nCh ∧ s.counter = 0 ∧
    s.prevElapsed = 0 ∧ s.errflags = 0 ∧ s.pcm = [] ∧
    (∀ c < nCh, (s.channel c).staged.toList =
        [0x20, 0, 1, 0, 0x10000, 0x10000, 0xFFFF0000, 0, 0x80, 0x10000, 0x10000, 0, 0, 0, 0xF, 0, 0x10000,
          0, 0x10000, 0xFFFF0000, 0, 1] ∧
      (∀ j, Memory.read (s.channel c).wts j = none) ∧
      ∀ i, let sl := (s.channel c).slot i
        sl.skind = .hold ∧ sl.sloopIn = 0 ∧ sl.sloopOut = 0 ∧ sl.sdecay = 1 ∧
        ∀ k, Memory.read sl.sknotTime k = none ∧ Memory.read sl.sknotValue k = none ∧
          Memory.read sl.sknotInterp k = none) ∧
    ∀ ch : BitVec 8, ch.toNat < nCh → exec (.chInit ch) s = .next (okay s 0)

/-- `PLAY` sets `playing` and recomputes the pan multipliers (R183, R193). -/
def Obligations.PlayStartsTheChannel : Prop :=
  ∀ (ch : BitVec 8) (s : State), ch.toNat < s.nCh →
    let c := ch.toNat
    let x := s.channel c
    let pan := quantize x.pan x.active.panSteps (-1) 1
    exec (.play ch) s = .next (okay (withChannel s c
      { x with
        playing := true
        leftMult := limit 0 1 (1 - pan)
        rightMult := limit 0 1 (1 + pan) }) 0)

/-- `STOP`, `RESET` and `RELEASE`: the first two rewind the channel and its sounding envelopes, `STOP` also
clears `playing`; `RELEASE` sets `released` and arms the sounding envelopes (R184, R185, R186). -/
def Obligations.StopResetAndReleaseActOnTheVoice : Prop :=
  ∀ (ch : BitVec 8) (s : State), ch.toNat < s.nCh →
    let c := ch.toNat
    let x := s.channel c
    exec (.stop ch) s =
      .next (okay (withChannel s c { rewoundChannel x with playing := false }) 0) ∧
    exec (.reset ch) s = .next (okay (withChannel s c (rewoundChannel x)) 0) ∧
    exec (.release ch) s = .next (okay (withChannel s c
      { x with
        released := true
        env := soundingEnvelopes x fun e => { e with release := true } }) 0)

/-- The three pitch commands retune the channel to a frequency, a note value, or an octave and note
(R126 to R128, R187 to R190); a zero frequency is refused (R188). -/
def Obligations.PitchCommandsRetuneTheChannel : Prop :=
  ∀ (ch : BitVec 8) (rst : Bool) (imm : Word32) (octave note : BitVec 16)
    (s : State), ch.toNat < s.nCh →
    let c := ch.toNat
    let x := s.channel c
    let f : ℚ := (imm.toNat : ℚ) / 65536
    let m : ℚ := (imm.toInt : ℚ) / 65536
    let n : ℚ := (((octave.toInt % 10 + 1) * 12 + note.toInt % 12 : ℤ) : ℚ)
    let freq : ℚ → ℚ := fun k => 440 * Config.num.val.exp2 ((k - 69) / 12)
    (imm ≠ 0 → exec (.setPitch ch rst imm) s =
      .next (okay (withChannel s c (retuned x f (69 + 12 * Config.num.val.log2 (f / 440)) rst)) 0)) ∧
    (imm = 0 → exec (.setPitch ch rst imm) s = .next (failed s .badOperand 0)) ∧
    exec (.setMidi ch rst imm) s = .next (okay (withChannel s c (retuned x (freq m) m rst)) 0) ∧
    exec (.setNote ch rst octave note) s =
      .next (okay (withChannel s c (retuned x (freq n) n rst)) 0)

/-- A pitch command on a playing, looping channel, not forced, keeps the phase of the tone: `SET_PITCH` of a
frequency other than zero, `SET_MIDI` and `SET_NOTE` alike (R187). -/
def Obligations.PitchChangeKeepsThePhase : Prop :=
  ∀ (i : Instr) (ch : BitVec 8) (imm : Word32) (octave note : BitVec 16) (s : State), ch.toNat < s.nCh →
    let x := s.channel ch.toNat
    x.active.Legal s.params.wtMax → x.active.wtLoop = true → x.playing = true →
    (i = .setPitch ch false imm ∧ imm ≠ 0) ∨ i = .setMidi ch false imm ∨ i = .setNote ch false octave note →
    ∃ t, exec i s = .next t ∧
      Int.fract ((t.channel ch.toNat).toneTime / (t.channel ch.toNat).snapTonePeriod) =
        Int.fract (x.toneTime / x.snapTonePeriod)

/-- `SET_VOL` and `SET_PAN` clamp their operand; the first sets `dirty`, the second recomputes the
multipliers (R191 to R193). -/
def Obligations.VolumeAndPanAreClamped : Prop :=
  ∀ (ch : BitVec 8) (imm : Word32) (s : State), ch.toNat < s.nCh →
    let c := ch.toNat
    let x := s.channel c
    let v : ℚ := (imm.toInt : ℚ) / 65536
    let pan := quantize (limit (-1) 1 v) x.active.panSteps (-1) 1
    exec (.setVol ch imm) s =
      .next (okay (withChannel s c { x with volume := limit 0 1 v, dirty := true }) 0) ∧
    exec (.setPan ch imm) s = .next (okay (withChannel s c
      { x with
        pan := limit (-1) 1 v
        leftMult := limit 0 1 (1 - pan)
        rightMult := limit 0 1 (1 + pan) }) 0)

/-- `SET_NOISE` switches the noise of a channel that has one and has no effect on one that has none;
`IS_NOISE` answers the flag and changes nothing (R194, R195). -/
def Obligations.NoiseSwitchNeedsANoiseKind : Prop :=
  ∀ (ch : BitVec 8) (on : Bool) (s : State), ch.toNat < s.nCh →
    let c := ch.toNat
    let x := s.channel c
    encode (.setNoise ch on) = 0x2A#8 ++ ch ++ 0#16 ++ (if on then 1#32 else 0#32) ∧
    encode (.isNoise ch) = 0x2B#8 ++ ch ++ 0#16 ++ 0#32 ∧
    (x.active.noiseKind = .silent → exec (.setNoise ch on) s = .next (okay s 0)) ∧
    (x.active.noiseKind ≠ .silent →
      exec (.setNoise ch on) s = .next (okay (withChannel s c { x with noiseOn := on }) 0)) ∧
    exec (.isNoise ch) s = .next (okay s (BitVec.ofNat 64 x.noiseOn.toNat))

/-! ## The synthesizer (`43_channel_sample.md`) -/

/-- `CSAMPLE` of a stopped channel decays the held output and answers it through the pan multipliers; no
time passes (R220 to R222). -/
def Obligations.StoppedSampleIsTheDecayingOutput : Prop :=
  ∀ (ch : BitVec 8) (imm : Word32) (s : State), ch.toNat < s.nCh →
    let c := ch.toNat
    let x := s.channel c
    let o := x.out * (1 - x.active.volAttn)
    x.playing = false →
    exec (.csample ch imm) s = .next (okay
      (withChannel s c { x with out := o, frameL := o * x.leftMult, frameR := o * x.rightMult })
      (fixed16 (o * x.leftMult) ++ fixed16 (o * x.rightMult)))

/-- The output of a stopped channel strictly decreases in magnitude from call to call, on a side whose
multiplier is positive (R232, an inference the spec marks as its own, from R221 and R222). -/
def Obligations.StoppedOutputStrictlyDecreases : Prop :=
  ∀ (ch : BitVec 8) (imm imm' : Word32) (s : State), ch.toNat < s.nCh →
    let c := ch.toNat
    let x := s.channel c
    x.playing = false → 0 < x.active.volAttn → x.active.volAttn < 1 → x.out ≠ 0 →
    ∃ t t', exec (.csample ch imm) s = .next t ∧ exec (.csample ch imm') t = .next t' ∧
      (t'.channel c).playing = false ∧ (t'.channel c).out ≠ 0 ∧
      (0 < x.leftMult → |(t'.channel c).frameL| < |(t.channel c).frameL|) ∧
      (0 < x.rightMult → |(t'.channel c).frameR| < |(t.channel c).frameR|)

/-- `CSAMPLE` of a playing channel, whole, for every noise kind and with any envelopes: decay, snapshot from
the volume and pitch envelopes, table lookup, the noise of the profile's kind, its substitution or blend,
time, frame (R220, R221, R223 to R231). An envelope is queried when the snapshot is due (slots 0 and 1) or
noise is on (slot 2). -/
def Obligations.PlayingToneSample : Prop :=
  ∀ (ch : BitVec 8) (imm : Word32) (s : State), ch.toNat < s.nCh →
    let c := ch.toNat
    let x := s.channel c
    let eps := s.params.envEps
    let delta : ℚ := (imm.toNat : ℚ) / 4294967296
    let due := refreshes x
    let fn := refreshedFrequency x (envelopeValue eps c x 1 0)
    let vol := if due then refreshedVolume x (envelopeValue eps c x 0 1) else x.snapVol
    let p := if due then tonePeriod x.active fn else x.snapTonePeriod
    let pn := if due then noisePeriod x.active fn else x.snapNoisePeriod
    let w := tableSample x p
    let o := if x.wavePrev = some w then x.out * (1 - x.active.volAttn) else w
    let again := resamples x pn
    let word := if again then nextWord s.params x.lfsr.n x.lfsr.state else x.lfsr.state
    let held := if again then randomValue x word else x.noiseHeld
    let nz := if x.active.noiseKind = .random then held else melodicValue s.params x pn
    let level := outputLevel x.active vol (if x.noiseOn then noisyValue eps c x o nz else o)
    x.playing = true → (x.noiseOn = true → x.active.noiseKind ≠ .silent) →
    x.active.Legal s.params.wtMax →
    exec (.csample ch imm) s = .next (okay
      (withChannel s c
        { x with
          dirty := false
          lastRefresh := if due then some x.envTime else x.lastRefresh
          snapVol := vol, snapTonePeriod := p, snapNoisePeriod := pn
          out := o, wavePrev := some w
          lfsr := { x.lfsr with state := word }, noiseHeld := held
          toneTime := x.toneTime + delta
          noiseTime := (if again then x.noiseTime - pn * ⌊x.noiseTime / pn⌋ else x.noiseTime) + delta
          envTime := x.envTime + delta
          frameL := level * x.leftMult, frameR := level * x.rightMult
          env := Vector.ofFn fun i =>
            if (due ∧ i.val ≤ 1) ∨ (x.noiseOn ∧ i.val = 2) then queriedSlot eps c x i else x.slot i })
      (fixed16 (level * x.leftMult) ++ fixed16 (level * x.rightMult)))

/-- When the snapshot is due, a playing channel's sample refreshes it from the volume and pitch envelopes,
tremolo and vibrato; when it is not due, the snapshot stays (R223 to R225). -/
def Obligations.SnapshotFollowsTheEnvelopes : Prop :=
  ∀ (ch : BitVec 8) (imm : Word32) (s : State), ch.toNat < s.nCh →
    let c := ch.toNat
    let x := s.channel c
    x.playing = true → x.active.Legal s.params.wtMax →
    ∃ t, exec (.csample ch imm) s = .next t ∧
      let y := t.channel c
      (refreshes x = true →
        y.snapVol = refreshedVolume x (envelopeValue s.params.envEps ch.toNat x 0 1) ∧
        y.snapTonePeriod =
          tonePeriod x.active (refreshedFrequency x (envelopeValue s.params.envEps ch.toNat x 1 0)) ∧
        y.snapNoisePeriod =
          noisePeriod x.active (refreshedFrequency x (envelopeValue s.params.envEps ch.toNat x 1 0)) ∧
        y.lastRefresh = some x.envTime ∧ y.dirty = false) ∧
      (refreshes x = false →
        y.snapVol = x.snapVol ∧ y.snapTonePeriod = x.snapTonePeriod ∧
        y.snapNoisePeriod = x.snapNoisePeriod ∧ y.lastRefresh = x.lastRefresh ∧
        y.dirty = x.dirty ∧ y.slot 0 = x.slot 0 ∧ y.slot 1 = x.slot 1)

/-- The Random profile steps the generator, at most once a call, when the noise time has reached the
refreshed noise period, and holds the value otherwise; with noise on the frame is the noise or its blend
(R227, R229 to R231). -/
def Obligations.RandomNoiseIsHeldBetweenResamples : Prop :=
  ∀ (ch : BitVec 8) (imm : Word32) (s : State), ch.toNat < s.nCh →
    let c := ch.toNat
    let x := s.channel c
    let delta : ℚ := (imm.toNat : ℚ) / 4294967296
    x.playing = true → x.active.noiseKind = .random →
    ∃ t, exec (.csample ch imm) s = .next t ∧
      let y := t.channel c
      let pn := y.snapNoisePeriod
      let next := nextWord s.params x.lfsr.n x.lfsr.state
      (pn ≤ x.noiseTime →
        y.lfsr = { x.lfsr with state := next } ∧ y.noiseHeld = randomValue x next ∧
        y.noiseTime = x.noiseTime - pn * ⌊x.noiseTime / pn⌋ + delta) ∧
      (x.noiseTime < pn →
        y.lfsr = x.lfsr ∧ y.noiseHeld = x.noiseHeld ∧ y.noiseTime = x.noiseTime + delta) ∧
      (x.noiseOn = true →
        y.frameL = outputLevel x.active y.snapVol
          (noisyValue s.params.envEps ch.toNat x y.out y.noiseHeld) * x.leftMult ∧
        y.frameR = outputLevel x.active y.snapVol
          (noisyValue s.params.envEps ch.toNat x y.out y.noiseHeld) * x.rightMult)

/-- The Melodic profile reads the output cycle by the noise phase and leaves the generator alone (R228 to
R231). -/
def Obligations.MelodicNoiseReadsTheCycle : Prop :=
  ∀ (ch : BitVec 8) (imm : Word32) (s : State), ch.toNat < s.nCh →
    let c := ch.toNat
    let x := s.channel c
    x.playing = true → x.active.noiseKind = .melodic →
    ∃ t, exec (.csample ch imm) s = .next t ∧
      let y := t.channel c
      let nz := melodicValue s.params x y.snapNoisePeriod
      y.lfsr = x.lfsr ∧ y.noiseHeld = x.noiseHeld ∧
      y.noiseTime = x.noiseTime + (imm.toNat : ℚ) / 4294967296 ∧
      (x.noiseOn = true →
        y.frameL = outputLevel x.active y.snapVol
          (noisyValue s.params.envEps ch.toNat x y.out nz) * x.leftMult ∧
        y.frameR = outputLevel x.active y.snapVol
          (noisyValue s.params.envEps ch.toNat x y.out nz) * x.rightMult)

/-! ## Wavetables (`43_channel_sample.md`) -/

/-- `WT_STAGE` writes one staging entry and no other; an index outside the RAM is refused (R241). -/
def Obligations.WtStageWritesOneEntry : Prop :=
  ∀ (ch : BitVec 8) (idx : BitVec 16) (imm : Word32) (s : State), ch.toNat < s.nCh →
    let c := ch.toNat
    let x := s.channel c
    encode (.wtStage ch idx imm) = 0x30#8 ++ ch ++ idx ++ imm ∧
    (idx.toNat < s.params.wtMax → ∃ m : Memory Word32,
      exec (.wtStage ch idx imm) s = .next (okay (withChannel s c { x with wts := m }) 0) ∧
      Memory.read m idx.toNat = some imm ∧
      ∀ j, j ≠ idx.toNat → Memory.read m j = Memory.read x.wts j) ∧
    (s.params.wtMax ≤ idx.toNat →
      exec (.wtStage ch idx imm) s = .next (failed s .badOperand (BitVec.ofNat 64 idx.toNat)))

/-- `WT_COMMIT` of legal samples replaces the wavetable by the raw buffer resampled to the profile's
length (R242). -/
def Obligations.WtCommitInstallsTheResampledBuffer : Prop :=
  ∀ (ch : BitVec 8) (imm : Word32) (s : State), ch.toNat < s.nCh →
    let c := ch.toNat
    let x := s.channel c
    1 ≤ imm.toNat → imm.toNat ≤ s.params.wtMax →
    (∀ j < imm.toNat, -1 ≤ stagedValue s c j ∧ stagedValue s c j ≤ 1) →
    exec (.wtCommit ch imm) s = .next (okay (withChannel s c
      { x with
        wt := (List.range x.active.wtLen).map fun i : ℕ =>
          stagedValue s c ⌊(i * imm.toNat : ℚ) / x.active.wtLen⌋.toNat }) 0)

/-- `WT_COMMIT` with a sample out of range fails whole, naming the first one; a length out of range is
refused (R242, R331). -/
def Obligations.WtCommitFailsWhole : Prop :=
  ∀ (ch : BitVec 8) (imm : Word32) (s : State), ch.toNat < s.nCh →
    let c := ch.toNat
    (∀ j, j < imm.toNat → imm.toNat ≤ s.params.wtMax →
      (∀ i < j, -1 ≤ stagedValue s c i ∧ stagedValue s c i ≤ 1) →
      stagedValue s c j < -1 ∨ 1 < stagedValue s c j →
      exec (.wtCommit ch imm) s = .next (failed s .invalidWavetable (BitVec.ofNat 64 j))) ∧
    (imm.toNat = 0 ∨ s.params.wtMax < imm.toNat →
      exec (.wtCommit ch imm) s = .next (failed s .badOperand (BitVec.ofNat 64 imm.toNat)))

/-- `WT_FROM_ENV` reads the reset envelope of slot 3 at `i / A_WT_LEN` into entry `i`, for every loop kind;
an empty slot 3 is refused (R243). -/
def Obligations.WtFromEnvSamplesTheShape : Prop :=
  ∀ (ch : BitVec 8) (s : State), ch.toNat < s.nCh →
    let c := ch.toNat
    let x := s.channel c
    (∀ e, (x.slot 3).env = some e → ∃ e' : Envelope,
      exec (.wtFromEnv ch) s = .next (okay (withChannel s c
        { withSlot x 3 { x.slot 3 with env := some e', peeks := (x.slot 3).peeks + x.active.wtLen } with
          wt := (List.range x.active.wtLen).map fun i : ℕ =>
            ((rewound e).peek s.params.envEps 0 ((i : ℚ) / x.active.wtLen)).1 }) 0) ∧
      e'.knots = e.knots ∧ e'.kind = e.kind ∧ e'.loopIn = e.loopIn ∧ e'.loopOut = e.loopOut ∧
      e'.decay = e.decay ∧ e'.release = false ∧ e'.captured = false ∧ e'.strayed = false) ∧
    ((x.slot 3).env = none → exec (.wtFromEnv ch) s = .next (failed s .badOperand 3))

/-! ## Envelopes (`41_envelope.md`) -/

/-- The five staging commands write the one field they name: a part of a staged knot, the loop payload, the
clamped decay (R157 to R159). -/
def Obligations.EnvStagingWritesOneField : Prop :=
  ∀ (ch : BitVec 8) (slot : BitVec 4) (k loopIn loopOut : BitVec 12) (imm : Word32) (interp : Interp)
    (kind : LoopKind) (hs : slot.toNat < 4) (s : State), ch.toNat < s.nCh →
    let c := ch.toNat
    let i : Fin 4 := ⟨slot.toNat, hs⟩
    let x := s.channel c
    let sl := x.slot i
    (k.toNat < s.params.kMax → ∃ m : Memory Word32,
      exec (.envKnotT ch slot k imm) s =
        .next (okay (withChannel s c (withSlot x i { sl with sknotTime := m })) 0) ∧
      Memory.read m k.toNat = some imm ∧
      ∀ j, j ≠ k.toNat → Memory.read m j = Memory.read sl.sknotTime j) ∧
    (k.toNat < s.params.kMax → ∃ m : Memory Word32,
      exec (.envKnotV ch slot k imm) s =
        .next (okay (withChannel s c (withSlot x i { sl with sknotValue := m })) 0) ∧
      Memory.read m k.toNat = some imm ∧
      ∀ j, j ≠ k.toNat → Memory.read m j = Memory.read sl.sknotValue j) ∧
    (k.toNat < s.params.kMax → ∃ m : Memory Interp,
      exec (.envKnotI ch slot k interp) s =
        .next (okay (withChannel s c (withSlot x i { sl with sknotInterp := m })) 0) ∧
      Memory.read m k.toNat = some interp ∧
      ∀ j, j ≠ k.toNat → Memory.read m j = Memory.read sl.sknotInterp j) ∧
    exec (.envLoop ch slot kind loopIn loopOut) s = .next (okay (withChannel s c (withSlot x i
      { sl with skind := kind, sloopIn := loopIn, sloopOut := loopOut })) 0) ∧
    exec (.envDecay ch slot imm) s = .next (okay (withChannel s c (withSlot x i
      { sl with sdecay := limit 0 1 ((imm.toInt : ℚ) / 65536) })) 0)

/-- `ENV_BUILD` of legal values installs the staged knots sorted by time, stably, with the staged loop
payload, reset, and sets `dirty` for slots 0 to 2 (R141, R160). -/
def Obligations.EnvBuildInstallsTheSortedKnots : Prop :=
  ∀ (ch : BitVec 8) (slot : BitVec 4) (imm : Word32)
    (hs : slot.toNat < 4) (s : State), ch.toNat < s.nCh →
    let c := ch.toNat
    let i : Fin 4 := ⟨slot.toNat, hs⟩
    let x := s.channel c
    let sl := x.slot i
    let knots := (List.range imm.toNat).map (stagedKnot s c i)
    1 ≤ imm.toNat → imm.toNat ≤ s.params.kMax → (∀ k ∈ knots, lowest i ≤ k.value ∧ k.value ≤ 1) →
    ∃ sorted : List Knot,
      exec (.envBuild ch slot imm) s = .next (okay (withChannel s c
        { withSlot x i
            { sl with
              env := some
                { knots := sorted, kind := sl.skind, loopIn := sl.sloopIn, loopOut := sl.sloopOut
                  decay := sl.sdecay, head := 0, release := false, captured := false
                  relTime := 0, relPos := 0, lastQuery := none, strayed := false } } with
          dirty := x.dirty || decide (slot.toNat ≤ 2) }) 0) ∧
      sorted.Pairwise (fun a b => a.time ≤ b.time) ∧
      ∀ t : ℚ, sorted.filter (fun k => decide (k.time = t)) = knots.filter (fun k => decide (k.time = t))

/-- `ENV_BUILD` with a value out of the slot's range fails whole, naming the first one; a knot count out of
range is refused (R160, R331, R333). -/
def Obligations.EnvBuildFailsWhole : Prop :=
  ∀ (ch : BitVec 8) (slot : BitVec 4) (imm : Word32)
    (hs : slot.toNat < 4) (s : State), ch.toNat < s.nCh →
    let c := ch.toNat
    let i : Fin 4 := ⟨slot.toNat, hs⟩
    (∀ j, j < imm.toNat → imm.toNat ≤ s.params.kMax →
      (∀ k < j, lowest i ≤ (stagedKnot s c i k).value ∧ (stagedKnot s c i k).value ≤ 1) →
      (stagedKnot s c i j).value < lowest i ∨ 1 < (stagedKnot s c i j).value →
      exec (.envBuild ch slot imm) s = .next (failed s .invalidEnvelope (BitVec.ofNat 64 j))) ∧
    (imm.toNat = 0 ∨ s.params.kMax < imm.toNat →
      exec (.envBuild ch slot imm) s = .next (failed s .badOperand 0))

/-- `ENV_CLEAR`, `ENV_RESET`, `ENV_RELEASE` and `ENV_PEEK` on a slot: the last three act on the envelope it
holds and refuse an empty slot (R161 to R164). -/
def Obligations.EnvSlotCommandsActOnTheEnvelope : Prop :=
  ∀ (ch : BitVec 8) (slot : BitVec 4) (imm : Word32)
    (hs : slot.toNat < 4) (s : State), ch.toNat < s.nCh →
    let c := ch.toNat
    let i : Fin 4 := ⟨slot.toNat, hs⟩
    let x := s.channel c
    let sl := x.slot i
    exec (.envClear ch slot) s = .next (okay (withChannel s c
      { withSlot x i { sl with env := none } with dirty := x.dirty || decide (slot.toNat ≤ 2) }) 0) ∧
    (∀ e, sl.env = some e →
      exec (.envReset ch slot) s =
        .next (okay (withChannel s c (withSlot x i { sl with env := some (rewound e) })) 0) ∧
      exec (.envRelease ch slot) s = .next (okay (withChannel s c
        (withSlot x i { sl with env := some { e with release := true } })) 0) ∧
      let a := e.peek s.params.envEps (Config.strayPeek ch.toNat slot.toNat sl.peeks) ((imm.toInt : ℚ) / 65536)
      exec (.envPeek ch slot imm) s = .next (okay (withChannel s c
        (withSlot x i { sl with env := some a.2, peeks := sl.peeks + 1 }))
        (BitVec.ofNat 64 (fixed16 a.1).toNat))) ∧
    (sl.env = none →
      exec (.envReset ch slot) s = .next (failed s .badOperand 0) ∧
      exec (.envRelease ch slot) s = .next (failed s .badOperand 0) ∧
      exec (.envPeek ch slot imm) s = .next (failed s .badOperand 0))

/-- At or before the first knot every query answers the first value, whatever the loop kind and the flags,
and changes nothing the rules name (R144; that it does so for LoopPoints and Echo also after the query times
have gone backwards is the model's choice, log 9). -/
def Obligations.PeekHoldsTheFirstValue : Prop :=
  ∀ (e : Envelope) (k : Knot) (rest : List Knot) (eps time free : ℚ),
    e.knots = k :: rest → time ≤ k.time →
    (e.peek eps free time).1 = k.value ∧
    { (e.peek eps free time).2 with lastQuery := e.lastQuery, strayed := e.strayed } = e

/-- Kind None after the first knot: between two neighbouring knots the left one's interpolation, at or
after the last knot its value (R145, R146, R148). -/
def Obligations.PeekInterpolatesBetweenKnots : Prop :=
  ∀ (e : Envelope) (eps time free : ℚ), e.kind = .hold →
    e.knots.Pairwise (fun a b => a.time ≤ b.time) →
    (∀ a b : Knot, ∀ before after : List Knot, e.knots = before ++ a :: b :: after →
      e.first < time → a.time ≤ time → time < b.time →
      (e.peek eps free time).1 =
        match a.interp with
        | .step => a.value
        | .linear => a.value + (b.value - a.value) * ((time - a.time) / (b.time - a.time))) ∧
    (∀ b : Knot, e.knots.getLast? = some b → e.first < time → b.time ≤ time →
      (e.peek eps free time).1 = b.value)

/-- Kind Repeat: the curve up to the last knot, from there on the curve folded into its range, so that a
time of the curve and one whole length later answer the same; a range no wider than the threshold holds the
last value (R147, R149). -/
def Obligations.RepeatIsPeriodic : Prop :=
  ∀ (e : Envelope) (eps time free free' : ℚ), e.kind = .cycle → 0 ≤ eps →
    let d := e.last - e.first
    (e.first < time → time < e.last → (e.peek eps free time).1 = (e.curveAt time).1) ∧
    (e.first < time → e.last ≤ time → eps < d →
      (e.peek eps free time).1 = (e.curveAt (e.first + d * Int.fract ((time - e.last) / d))).1) ∧
    (e.first ≤ time → time < e.last → eps < d →
      (e.peek eps free time).1 = (e.peek eps free' (time + d)).1) ∧
    (∀ l, e.knots.getLast? = some l → e.first < time → e.last ≤ time → d ≤ eps →
      (e.peek eps free time).1 = l.value ∧
      { (e.peek eps free time).2 with lastQuery := e.lastQuery, strayed := e.strayed } = e)

/-- LoopPoints and Echo before the release is captured, with query times that do not go backwards: the
attack plays once, also with the release armed, and captures nothing; from the start of the loop on the
curve is folded into the loop, so that it plays on to the loop's end and then repeats with the loop's width
as period; a loop no wider than the threshold, or reversed, holds the value of its end (R147, R150 to R152,
R155). -/
def Obligations.SustainRepeatsTheLoop : Prop :=
  ∀ (e : Envelope) (i o : ℕ) (a b : Knot) (eps time free free' : ℚ),
    e.kind = .loopPoints ∨ e.kind = .echo → e.release = false ∨ e.captured = false →
    e.strayed = false → (∀ u, e.lastQuery = some u → u ≤ time) → 0 ≤ eps → e.first < time →
    i = min e.loopIn.toNat (e.knots.length - 1) → o = min e.loopOut.toNat (e.knots.length - 1) →
    e.knots[i]? = some a → e.knots[o]? = some b →
    let w := b.time - a.time
    let after := (e.peek eps free time).2
    (time < a.time → (e.peek eps free time).1 = (e.curveAt time).1 ∧ after.captured = e.captured ∧
      after.relTime = e.relTime ∧ after.relPos = e.relPos) ∧
    (a.time ≤ time → eps < w →
      (e.peek eps free time).1 = (e.curveAt (a.time + w * Int.fract ((time - a.time) / w))).1 ∧
      (time < b.time → (e.peek eps free time).1 = (e.curveAt time).1) ∧
      (e.peek eps free (time + w)).1 = (e.peek eps free' time).1) ∧
    (a.time ≤ time → w ≤ eps → (e.peek eps free time).1 = b.value) ∧
    (e.release = false →
      after.captured = e.captured ∧ after.relTime = e.relTime ∧ after.relPos = e.relPos)

/-- The first query of a released envelope that has reached the loop captures its time and its place in the
loop, the loop's end when the loop is no wider than the threshold; then LoopPoints plays the tail once, and
Echo repeats the whole shape, each pass scaled by one more factor of `decay`, or holds the last value when
the shape is no wider than the threshold (R147, R152 to R154). Query times do not go backwards (R155). -/
def Obligations.ReleaseContinuesFromTheCapturedPlace : Prop :=
  ∀ (e : Envelope) (i o : ℕ) (a b : Knot) (eps t0 t free free' : ℚ),
    e.release = true → e.captured = false → e.strayed = false →
    (∀ u, e.lastQuery = some u → u ≤ t0) → t0 ≤ t → 0 ≤ eps →
    i = min e.loopIn.toNat (e.knots.length - 1) → o = min e.loopOut.toNat (e.knots.length - 1) →
    e.knots[i]? = some a → e.knots[o]? = some b →
    e.first < t0 → a.time ≤ t0 →
    let e' := (e.peek eps free t0).2
    let w := b.time - a.time
    let pos := if eps < w then a.time + w * Int.fract ((t0 - a.time) / w) else b.time
    let place := pos + (t - t0)
    let d := e.last - e.first
    (e.kind = .loopPoints ∨ e.kind = .echo →
      (e.peek eps free t0).1 = (if eps < w then (e.curveAt pos).1 else b.value) ∧
      e'.captured = true ∧ e'.relTime = t0 ∧ e'.relPos = pos) ∧
    (e.kind = .loopPoints → (e'.peek eps free' t).1 = (e.curveAt place).1) ∧
    (e.kind = .echo → place < e.last → (e'.peek eps free' t).1 = (e.curveAt place).1) ∧
    (e.kind = .echo → e.last ≤ place → eps < d →
      (e'.peek eps free' t).1 =
        (e.curveAt (e.first + d * Int.fract ((place - e.last) / d))).1 *
          e.decay ^ (1 + ⌊(place - e.last) / d⌋).toNat) ∧
    (∀ l, e.knots.getLast? = some l → e.kind = .echo → e.last ≤ place → d ≤ eps →
      (e'.peek eps free' t).1 = l.value)

/-- The cached head is no input of a query: it changes neither the answer nor anything but itself (R52). -/
def Obligations.PeekIgnoresTheHead : Prop :=
  ∀ (e : Envelope) (head : ℕ) (eps time free : ℚ),
    ({ e with head := head }.peek eps free time).1 = (e.peek eps free time).1 ∧
    { ({ e with head := head }.peek eps free time).2 with head := 0 } =
      { (e.peek eps free time).2 with head := 0 }

/-! ## The noise generator (`44_noise_lfsr.md`) -/

/-- `LFSR_INIT` clamps the length, masks the seed and replaces a zero seed by the masked fallback seed;
`LFSR_STEP` steps the register and answers it; `LFSR_OUT` answers the UQ0.32 word of the output (R261, R262,
R267 to R269). -/
def Obligations.NoiseCommandsDriveTheGenerator : Prop :=
  ∀ (ch : BitVec 8) (idx : BitVec 16) (imm : Word32) (s : State), ch.toNat < s.nCh →
    let c := ch.toNat
    let x := s.channel c
    let n := max 3 (min 32 idx.toNat)
    let seed := if imm.toNat % 2 ^ n = 0 then s.params.fallbackSeed.toNat % 2 ^ n else imm.toNat % 2 ^ n
    let next := nextWord s.params x.lfsr.n x.lfsr.state
    exec (.lfsrInit ch idx imm) s = .next (okay (withChannel s c
      { x with lfsr := { n := n, seed := BitVec.ofNat 32 seed, state := BitVec.ofNat 32 seed } })
      (BitVec.ofNat 64 seed)) ∧
    exec (.lfsrStep ch) s = .next (okay (withChannel s c
      { x with lfsr := { x.lfsr with state := next } }) (BitVec.ofNat 64 next.toNat)) ∧
    exec (.lfsrOut ch) s =
      .next (okay s (BitVec.ofNat 64 (x.lfsr.state.toNat * 2 ^ (32 - x.lfsr.n))))

/-- The step of a generator permutes the non-zero words of its length, under every tap table that R9 allows
(R265, an inference the spec marks as its own, from R261 and R262). -/
def Obligations.GeneratorStepPermutesTheWords : Prop :=
  ∀ (p : Config.Params) (n : ℕ), p.Legal → 3 ≤ n → n ≤ 32 →
    (∀ w : Word32, w.toNat < 2 ^ n → (lfsrNext p n w).toNat < 2 ^ n) ∧
    (∀ w : Word32, w.toNat < 2 ^ n → (lfsrNext p n w = 0 ↔ w = 0)) ∧
    (∀ v w : Word32, v.toNat < 2 ^ n → w.toNat < 2 ^ n → lfsrNext p n v = lfsrNext p n w → v = w)

/-- The non-zero words of a length form one cycle of `2^n - 1` steps, under every tap table that R9 allows
(R262, R266), and the default table of R263 has, for the lengths 5, 8 and 16 that the document checks, the
period `2^n - 1` from seed 1. -/
def Obligations.GeneratorPeriodIsMaximal : Prop :=
  (∀ (p : Config.Params) (n : ℕ) (v w : Word32), p.Legal → 3 ≤ n → n ≤ 32 → v ≠ 0 → w ≠ 0 →
    v.toNat < 2 ^ n → w.toNat < 2 ^ n →
    ∃ k < 2 ^ n - 1, (lfsrNext p n)^[k] v = w ∧
      ∀ j < 2 ^ n - 1, (lfsrNext p n)^[j] v = w → j = k) ∧
  ∀ n ∈ [5, 8, 16],
    (lfsrNext Config.defaults n)^[2 ^ n - 1] 1 = 1 ∧
    ∀ k, 0 < k → k < 2 ^ n - 1 → (lfsrNext Config.defaults n)^[k] 1 ≠ 1

/-! ## Math utilities (`40_math_utilities.md`) -/

/-- Quantization is idempotent, and over its range it reaches exactly the `steps` equally spaced levels
(R123, an inference the spec marks as its own, from R122). -/
def Obligations.QuantizeReachesExactlyItsLevels : Prop :=
  (∀ (v lo hi : ℚ) (steps : ℕ), quantize (quantize v steps lo hi) steps lo hi = quantize v steps lo hi) ∧
  (∀ (lo hi : ℚ) (steps : ℕ), 2 ≤ steps → lo < hi → ∀ y : ℚ,
    (∃ v, quantize v steps lo hi = y) ↔
      ∃ k < steps, y = lo + k * (hi - lo) / (steps - 1)) ∧
  (∀ (v lo hi : ℚ) (steps k : ℕ), 2 ≤ steps → lo < hi → lo ≤ v → v ≤ hi → k < steps →
    |v - quantize v steps lo hi| ≤ |v - (lo + k * (hi - lo) / (steps - 1))|)

/-- `wrap` is `value - modulus · floor(value / modulus)` and always returns the residue in `[0, modulus)`
(R124); notes combine, each part wrapped, to 12 .. 131 and repeat with the octave modulo 10 and the note
modulo 12 (R128). -/
def Obligations.WrapAndNotesStayInRange : Prop :=
  (∀ v m : ℤ, 0 < m → wrap v m = v - m * ⌊(v : ℚ) / m⌋ ∧
    0 ≤ wrap v m ∧ wrap v m < m ∧ m ∣ v - wrap v m) ∧
  (∀ octave note : ℤ, noteOf octave note = (wrap octave 10 + 1) * 12 + wrap note 12 ∧
    12 ≤ noteOf octave note ∧ noteOf octave note ≤ 131 ∧
    noteOf (octave + 10) note = noteOf octave note ∧ noteOf octave (note + 12) = noteOf octave note) ∧
  wrap (-5) 10 = 5 ∧ wrap 55 10 = 5 ∧ noteOf 4 9 = 69 ∧ noteOf (-1) (-1) = 131

/-- The note and frequency conversions (R126, R127): they round-trip within 0.01 Hz over the notes 24 to 96
(R11), note 60 is 261.63 Hz within 0.01 Hz, and octaves of 440 Hz are exact. -/
def Obligations.NotesAndFrequenciesRoundTrip : Prop :=
  (∀ m : ℚ, noteToFrequency m = 440 * Config.num.val.exp2 ((m - 69) / 12) ∧ 0 < noteToFrequency m) ∧
  (∀ f : ℚ, 0 < f → frequencyToNote f = 69 + 12 * Config.num.val.log2 (f / 440)) ∧
  (∀ n : ℕ, 24 ≤ n → n ≤ 96 →
    |noteToFrequency (frequencyToNote (noteToFrequency n)) - noteToFrequency n| < 1 / 100) ∧
  |noteToFrequency 60 - 26163 / 100| < 1 / 100 ∧
  (∀ k : ℤ, noteToFrequency (69 + 12 * k) = 440 * (2 : ℚ) ^ k ∧
    frequencyToNote (440 * (2 : ℚ) ^ k) = 69 + 12 * k) ∧
  (∀ x y : ℚ, x ≤ y → noteToFrequency x ≤ noteToFrequency y)
end

