-- ==== Sys2Proof/Laws/Memory.lean ====
section
/-! SUPPORT. The staging RAMs (`20_memory.md` R70, R71): a read after a write, and the canonical form. -/

namespace Sys2Proof.Laws

open Sys2Proof Sys2Proof.Machine

variable {α : Type}

@[simp] theorem Memory.read_nil (i : ℕ) : Memory.read ([] : Memory α) i = none := rfl

/-- A read of the entry written answers the value written. -/
@[simp] theorem Memory.read_write_same (m : Memory α) (i : ℕ) (v : α) :
    Memory.read (Memory.write m i v) i = some v := by
  induction m with
  | nil => simp [Memory.write, Memory.read]
  | cons p m ih =>
    obtain ⟨j, u⟩ := p
    unfold Memory.write
    split
    · simp [Memory.read]
    · split
      · simp [Memory.read]
      · next h => simp [Memory.read, h, ih]

/-- A write leaves every other entry alone. -/
theorem Memory.read_write_other (m : Memory α) {i j : ℕ} (v : α) (h : j ≠ i) :
    Memory.read (Memory.write m i v) j = Memory.read m j := by
  induction m with
  | nil => simp [Memory.write, Memory.read, h]
  | cons p m ih =>
    obtain ⟨k, u⟩ := p
    unfold Memory.write
    split
    · simp [Memory.read, h]
    · split
      · next hik => subst hik; simp [Memory.read, h]
      · simp only [Memory.read, ih]

/-- The indices after a write: those before, and the one written. -/
theorem Memory.mem_write_keys (m : Memory α) (i : ℕ) (v : α) (j : ℕ) :
    j ∈ (Memory.write m i v).map Prod.fst ↔ j = i ∨ j ∈ m.map Prod.fst := by
  induction m with
  | nil => simp [Memory.write]
  | cons p m ih =>
    obtain ⟨k, u⟩ := p
    unfold Memory.write
    split
    · simp
    · split
      · next h => subst h; simp
      · simp only [List.map_cons, List.mem_cons, ih]; tauto

/-- The empty staging RAM, as after reset, is in canonical form. -/
theorem Memory.wf_nil (size : ℕ) : Memory.wf size ([] : Memory α) := by simp [Memory.wf]

/-- Every write below the capacity keeps the canonical form. -/
theorem Memory.wf_write {size : ℕ} {m : Memory α} (hm : Memory.wf size m) {i : ℕ} (v : α) (hi : i < size) :
    Memory.wf size (Memory.write m i v) := by
  refine ⟨?_, ?_⟩
  · have hp := hm.1
    clear hm
    induction m with
    | nil => simp [Memory.write]
    | cons p m ih =>
      obtain ⟨k, u⟩ := p
      simp only [List.map_cons, List.pairwise_cons] at hp
      unfold Memory.write
      split
      · next h =>
        simp only [List.map_cons, List.pairwise_cons, List.mem_cons]
        refine ⟨?_, hp⟩
        rintro j (rfl | hj)
        · exact h
        · exact h.trans (hp.1 j hj)
      · split
        · next h => subst h; simpa using hp
        · next h1 h2 =>
          simp only [List.map_cons, List.pairwise_cons]
          refine ⟨fun j hj => ?_, ih hp.2⟩
          rw [Memory.mem_write_keys] at hj
          rcases hj with rfl | hj
          · omega
          · exact hp.1 j hj
  · intro j hj
    rw [Memory.mem_write_keys] at hj
    rcases hj with rfl | hj
    · exact hi
    · exact hm.2 j hj

/-- Two canonical RAMs that read the same are the same data. -/
theorem Memory.ext {size : ℕ} {m m' : Memory α} (hm : Memory.wf size m) (hm' : Memory.wf size m')
    (h : ∀ i, Memory.read m i = Memory.read m' i) : m = m' := by
  have hnone : ∀ (l : Memory α) (k : ℕ), (∀ j ∈ l.map Prod.fst, k < j) → Memory.read l k = none := by
    intro l
    induction l with
    | nil => intros; rfl
    | cons p l ih =>
      intro k hk
      obtain ⟨j, u⟩ := p
      simp only [List.map_cons, List.mem_cons] at hk
      have := hk j (.inl rfl)
      simp only [Memory.read]
      rw [if_neg (by omega)]
      exact ih k fun i hi => hk i (.inr hi)
  have hp := hm.1
  have hp' := hm'.1
  clear hm hm'
  induction m generalizing m' with
  | nil =>
    cases m' with
    | nil => rfl
    | cons p m' => simpa [Memory.read] using h p.1
  | cons p m ih =>
    obtain ⟨j, u⟩ := p
    cases m' with
    | nil => simpa [Memory.read] using h j
    | cons p' m' =>
      obtain ⟨j', u'⟩ := p'
      simp only [List.map_cons, List.pairwise_cons] at hp hp'
      have hj : j = j' := by
        rcases Nat.lt_trichotomy j j' with hlt | heq | hgt
        · have h1 := h j
          rw [hnone ((j', u') :: m') j (by
            simp only [List.map_cons, List.mem_cons]
            rintro i (rfl | hi)
            · exact hlt
            · exact hlt.trans (hp'.1 i hi))] at h1
          simp [Memory.read] at h1
        · exact heq
        · have h1 := h j'
          rw [hnone ((j, u) :: m) j' (by
            simp only [List.map_cons, List.mem_cons]
            rintro i (rfl | hi)
            · exact hgt
            · exact hgt.trans (hp.1 i hi))] at h1
          simp [Memory.read] at h1
      subst hj
      have hu : u = u' := by simpa [Memory.read] using h j
      subst hu
      congr 1
      refine ih ?_ hp.2 hp'.2
      intro i
      by_cases hi : i = j
      · subst hi
        rw [hnone m i hp.1, hnone m' i hp'.1]
      · simpa [Memory.read, hi] using h i

end Sys2Proof.Laws
end

