-- ==== Sys2Proof/Laws/Numeric.lean ====
section
/-! SUPPORT. The four functions of `NUM` are the record's own (`00_scope.md` R11): answering at the points
R11 fixes by the value itself changes nothing. And the ranges of the combinational functions. -/

namespace Sys2Proof.Laws

open Sys2Proof Sys2Proof.Machine

/-- The properties R11 requires of the record. -/
theorem num_lawful : Config.num.val.Lawful := Config.num.property

theorem modQ_one (x : ℚ) : modQ x 1 = Int.fract x := by
  change x - 1 * (⌊x / 1⌋ : ℤ) = x - (⌊x⌋ : ℤ)
  simp

theorem modQ_eq_fract {w : ℚ} (x : ℚ) (hw : w ≠ 0) : modQ x w = Int.fract (x / w) * w := by
  have h : ⌊x / w⌋ = (x / w).floor := rfl
  simp only [modQ, Int.fract, h]
  field_simp

theorem modQ_div {w : ℚ} (x : ℚ) (hw : w ≠ 0) : modQ x w / w = Int.fract (x / w) := by
  rw [modQ_eq_fract x hw]; field_simp

theorem modQ_nonneg {w : ℚ} (x : ℚ) (hw : 0 < w) : 0 ≤ modQ x w := by
  rw [modQ_eq_fract x hw.ne']; exact mul_nonneg (Int.fract_nonneg _) hw.le

theorem modQ_lt {w : ℚ} (x : ℚ) (hw : 0 < w) : modQ x w < w := by
  rw [modQ_eq_fract x hw.ne']
  have := Int.fract_lt_one (x / w)
  nlinarith

/-! ## `SINT` -/

theorem num_sint_add_int (x : ℚ) (n : ℤ) : Config.num.val.sint (x + n) = Config.num.val.sint x := by
  induction n with
  | zero => simp
  | succ n ih =>
    have h := num_lawful.sint_add_one (x + n)
    push_cast at ih ⊢
    rw [← add_assoc, h, ih]
  | pred n ih =>
    have h := num_lawful.sint_add_one (x + (-(n : ℚ) - 1))
    push_cast at ih ⊢
    rw [← ih, ← h]
    ring_nf

theorem num_sint_fract (x : ℚ) : Config.num.val.sint (Int.fract x) = Config.num.val.sint x := by
  conv_rhs => rw [← Int.fract_add_floor x]
  exact (num_sint_add_int _ _).symm

theorem num_sint_reflect {x y v : ℚ} (h : x = -y + 1) (hy : Config.num.val.sint y = v) :
    Config.num.val.sint x = -v := by
  rw [h, num_lawful.sint_add_one, num_lawful.sint_neg, hy]

/-- `sint` is the record's sine (R11). -/
theorem sint_eq (x : ℚ) : sint x = Config.num.val.sint x := by
  have L := num_lawful
  rw [← num_sint_fract x]
  unfold sint exactSine
  rw [← num_sint_fract x]
  simp only [modQ_one]
  generalize Int.fract x = r
  split
  · next h => rcases h with rfl | rfl <;> simp only [Option.getD_some, L.sint_zero, L.sint_half]
  · split
    · next h => rcases h with rfl | rfl <;> simp only [Option.getD_some, L.sint_twelfth, L.sint_five_twelfths]
    · split
      · next h => subst h; simp only [Option.getD_some, L.sint_quarter]
      · split
        · next h =>
          rcases h with rfl | rfl
          · exact (num_sint_reflect (by norm_num) L.sint_five_twelfths).symm
          · exact (num_sint_reflect (by norm_num) L.sint_twelfth).symm
        · split
          · next h => subst h; exact (num_sint_reflect (by norm_num) L.sint_quarter).symm
          · rfl

theorem sint_ge (x : ℚ) : -1 ≤ sint x := by rw [sint_eq]; exact num_lawful.sint_ge x
theorem sint_le (x : ℚ) : sint x ≤ 1 := by rw [sint_eq]; exact num_lawful.sint_le x

/-! ## `EXP2` and `LOG2` -/

theorem twoPow_eq (n : ℤ) : twoPow n = (2 : ℚ) ^ n := by
  cases n with
  | ofNat n => simp [twoPow]
  | negSucc n => simp [twoPow, zpow_negSucc]

theorem eq_num_of_den {x : ℚ} (h : x.den = 1) : x = x.num := by
  conv_lhs => rw [← Rat.num_div_den x, h]
  simp

/-- `exp2` is the record's power of two (R11). -/
theorem exp2_eq (x : ℚ) : exp2 x = Config.num.val.exp2 x := by
  unfold exp2
  split
  · next h =>
    rw [twoPow_eq]
    conv_rhs => rw [eq_num_of_den h]
    exact (num_lawful.exp2_int _).symm
  · rfl

theorem exp2_pos (x : ℚ) : 0 < exp2 x := by rw [exp2_eq]; exact num_lawful.exp2_pos x

/-- The exponent `exactLog2` answers is the logarithm. -/
theorem exactLog2_some {x : ℚ} {n : ℤ} (h : exactLog2 x = some n) : x = (2 : ℚ) ^ n := by
  unfold exactLog2 at h
  split at h
  · next hx =>
    obtain ⟨hd, hp, he⟩ := hx
    simp only [Option.some.injEq] at h
    subst h
    rw [zpow_natCast]
    have h1 : x = ((x.num.natAbs : ℕ) : ℚ) := by
      conv_lhs => rw [eq_num_of_den hd]
      have : x.num = (x.num.natAbs : ℤ) := by omega
      conv_lhs => rw [this]
      simp
    conv_lhs => rw [h1, ← he]
    push_cast; rfl
  · split at h
    · next hx =>
      obtain ⟨hn, he⟩ := hx
      simp only [Option.some.injEq] at h
      subst h
      rw [zpow_neg, zpow_natCast]
      conv_lhs => rw [← Rat.num_div_den x, hn, ← he]
      push_cast; simp
    · cases h

/-- `log2` is the record's logarithm (R11). -/
theorem log2_eq (x : ℚ) : log2 x = Config.num.val.log2 x := by
  unfold log2
  split
  · next n h =>
    conv_rhs => rw [exactLog2_some h]
    exact (num_lawful.log2_zpow n).symm
  · rfl

/-! ## `POW` -/

/-- `pow` is the record's power, on its domain (R11). -/
theorem pow_eq {x y : ℚ} (h0 : 0 ≤ x) (h1 : x ≤ 1) (hy : 0 < y) : pow x y = Config.num.val.pow x y := by
  have L := num_lawful
  unfold pow
  split
  · next h =>
    have hn : y = ((y.num.toNat : ℕ) : ℚ) := by
      conv_lhs => rw [eq_num_of_den h.1]
      exact_mod_cast (by omega : y.num = (y.num.toNat : ℤ))
    conv_rhs => rw [hn]
    exact (L.pow_nat x h0 h1 _ (by omega)).symm
  · split
    · next h => rw [h, L.pow_zero y hy]
    · split
      · next h => rw [h, L.pow_one y hy]
      · rfl

theorem pow_nonneg' {x y : ℚ} (h0 : 0 ≤ x) (h1 : x ≤ 1) (hy : 0 < y) : 0 ≤ pow x y := by
  rw [pow_eq h0 h1 hy]; exact num_lawful.pow_nonneg x y h0 h1 hy

theorem pow_le_one' {x y : ℚ} (h0 : 0 ≤ x) (h1 : x ≤ 1) (hy : 0 < y) : pow x y ≤ 1 := by
  rw [pow_eq h0 h1 hy]; exact num_lawful.pow_le_one x y h0 h1 hy

/-! ## Ranges of `clamp`, `quantize`, `lerp` and `trunc` -/

theorem clamp_ge {lo hi : ℚ} (x : ℚ) : lo ≤ clamp x lo hi := le_max_left _ _

theorem clamp_le {lo hi : ℚ} (x : ℚ) (h : lo ≤ hi) : clamp x lo hi ≤ hi :=
  max_le h (min_le_left _ _)

theorem clamp_of_mem {lo hi x : ℚ} (h1 : lo ≤ x) (h2 : x ≤ hi) : clamp x lo hi = x := by
  simp [clamp, h1, h2]

theorem clamp_mono {lo hi x y : ℚ} (h : x ≤ y) : clamp x lo hi ≤ clamp y lo hi :=
  max_le_max le_rfl (min_le_min le_rfl h)

theorem quantize_small {steps : ℕ} (v lo hi : ℚ) (h : steps < 2) : quantize v steps lo hi = v := by
  simp [quantize, h]

/-- The level index of `quantize` lies in `0 .. steps - 1`. -/
theorem roundHalfUp_mem {t : ℚ} {n : ℕ} (h0 : 0 ≤ t) (h1 : t ≤ n) :
    0 ≤ roundHalfUp t ∧ roundHalfUp t ≤ n := by
  unfold roundHalfUp
  change 0 ≤ ⌊t + 1 / 2⌋ ∧ ⌊t + 1 / 2⌋ ≤ (n : ℤ)
  constructor
  · exact Int.floor_nonneg.mpr (by linarith : (0 : ℚ) ≤ t + 1 / 2)
  · have : ⌊t + 1 / 2⌋ < (n : ℤ) + 1 := by
      rw [Int.floor_lt]; push_cast; linarith
    exact Int.lt_add_one_iff.mp this

/-- With two steps or more, quantization lands in its range (R122). -/
theorem quantize_range {steps : ℕ} {lo hi : ℚ} (v : ℚ) (hs : 2 ≤ steps) (h : lo ≤ hi) :
    lo ≤ quantize v steps lo hi ∧ quantize v steps lo hi ≤ hi := by
  obtain ⟨n, rfl⟩ : ∃ n, steps = n + 2 := ⟨steps - 2, by omega⟩
  unfold quantize
  rw [if_neg (by omega)]
  split
  · exact ⟨le_rfl, h⟩
  · next hlt =>
    have hw : 0 < hi - lo := by linarith [not_le.mp hlt]
    have hc1 := clamp_ge (lo := lo) (hi := hi) v
    have hc2 := clamp_le (lo := lo) (hi := hi) v h
    have ht0 : 0 ≤ (clamp v lo hi - lo) / (hi - lo) := div_nonneg (by linarith) hw.le
    have ht1 : (clamp v lo hi - lo) / (hi - lo) ≤ 1 := by rw [div_le_one hw]; linarith
    have hn : ((n + 2 : ℕ) : ℚ) - 1 = ((n + 1 : ℕ) : ℚ) := by push_cast; ring
    have hp : (0 : ℚ) < ((n + 1 : ℕ) : ℚ) := by positivity
    simp only [hn]
    obtain ⟨k0, k1⟩ := roundHalfUp_mem (n := n + 1)
      (mul_nonneg ht0 hp.le) (by nlinarith : (clamp v lo hi - lo) / (hi - lo) * ((n + 1 : ℕ) : ℚ) ≤ _)
    generalize roundHalfUp ((clamp v lo hi - lo) / (hi - lo) * ((n + 1 : ℕ) : ℚ)) = k at k0 k1
    have k0' : (0 : ℚ) ≤ k := by exact_mod_cast k0
    have k1' : (k : ℚ) ≤ ((n + 1 : ℕ) : ℚ) := by exact_mod_cast k1
    refine ⟨by have := div_nonneg (mul_nonneg k0' hw.le) hp.le; linarith, ?_⟩
    have : (k : ℚ) * (hi - lo) / ((n + 1 : ℕ) : ℚ) ≤ hi - lo := by
      rw [div_le_iff₀ hp]; nlinarith
    linarith

/-- Quantization of a value of the range stays in the range (R122). -/
theorem quantize_mem {lo hi v : ℚ} (steps : ℕ) (h1 : lo ≤ v) (h2 : v ≤ hi) :
    lo ≤ quantize v steps lo hi ∧ quantize v steps lo hi ≤ hi := by
  by_cases hs : 2 ≤ steps
  · exact quantize_range v hs (h1.trans h2)
  · rw [quantize_small v lo hi (by omega)]; exact ⟨h1, h2⟩

/-- Interpolation between two values of a range stays in the range (R120). -/
theorem lerp_mem {lo hi a b t : ℚ} (ha : lo ≤ a ∧ a ≤ hi) (hb : lo ≤ b ∧ b ≤ hi) (h0 : 0 ≤ t)
    (h1 : t ≤ 1) : lo ≤ lerp a b t ∧ lerp a b t ≤ hi := by
  unfold lerp
  constructor <;> nlinarith [ha.1, ha.2, hb.1, hb.2]

/-- `trunc` of a product with 32767 of a value in [-1, 1] (R295). -/
theorem trunc_range {y : ℚ} (h0 : -1 ≤ y) (h1 : y ≤ 1) :
    -32767 ≤ trunc (y * 32767) ∧ trunc (y * 32767) ≤ 32767 := by
  unfold trunc
  split
  · next h =>
    change -32767 ≤ ⌊y * 32767⌋ ∧ ⌊y * 32767⌋ ≤ 32767
    have h2 : (0 : ℤ) ≤ ⌊y * 32767⌋ := Int.floor_nonneg.mpr h
    have h3 : ⌊y * 32767⌋ < 32768 := by rw [Int.floor_lt]; push_cast; linarith
    omega
  · next h =>
    change -32767 ≤ -⌊-(y * 32767)⌋ ∧ -⌊-(y * 32767)⌋ ≤ 32767
    have h2 : (0 : ℤ) ≤ ⌊-(y * 32767)⌋ := Int.floor_nonneg.mpr (by linarith)
    have h3 : ⌊-(y * 32767)⌋ < 32768 := by rw [Int.floor_lt]; push_cast; linarith
    omega

end Sys2Proof.Laws
end

