-- ==== Sys2Proof/Laws/Envelope.lean ====
section
/-! SUPPORT. The envelope engine (`41_envelope.md`): what a query changes, what it depends on, and that it
stays in the range of the knots. -/

namespace Sys2Proof.Laws

open Sys2Proof Sys2Proof.Machine

/-! ## Updates -/

@[simp] theorem noteQuery_knots (e : Envelope) (t : ℚ) : (e.noteQuery t).knots = e.knots := rfl
@[simp] theorem noteQuery_kind (e : Envelope) (t : ℚ) : (e.noteQuery t).kind = e.kind := rfl
@[simp] theorem noteQuery_loopIn (e : Envelope) (t : ℚ) : (e.noteQuery t).loopIn = e.loopIn := rfl
@[simp] theorem noteQuery_loopOut (e : Envelope) (t : ℚ) : (e.noteQuery t).loopOut = e.loopOut := rfl
@[simp] theorem noteQuery_decay (e : Envelope) (t : ℚ) : (e.noteQuery t).decay = e.decay := rfl
@[simp] theorem noteQuery_head (e : Envelope) (t : ℚ) : (e.noteQuery t).head = e.head := rfl
@[simp] theorem noteQuery_release (e : Envelope) (t : ℚ) : (e.noteQuery t).release = e.release := rfl
@[simp] theorem noteQuery_captured (e : Envelope) (t : ℚ) : (e.noteQuery t).captured = e.captured := rfl
@[simp] theorem noteQuery_relTime (e : Envelope) (t : ℚ) : (e.noteQuery t).relTime = e.relTime := rfl
@[simp] theorem noteQuery_relPos (e : Envelope) (t : ℚ) : (e.noteQuery t).relPos = e.relPos := rfl
@[simp] theorem noteQuery_lastQuery (e : Envelope) (t : ℚ) : (e.noteQuery t).lastQuery = some t := rfl

@[simp] theorem noteQuery_count (e : Envelope) (t : ℚ) : (e.noteQuery t).count = e.count := rfl
@[simp] theorem noteQuery_first (e : Envelope) (t : ℚ) : (e.noteQuery t).first = e.first := rfl
@[simp] theorem noteQuery_last (e : Envelope) (t : ℚ) : (e.noteQuery t).last = e.last := rfl
@[simp] theorem noteQuery_width (e : Envelope) (t : ℚ) : (e.noteQuery t).width = e.width := rfl
@[simp] theorem noteQuery_loopStart (e : Envelope) (t : ℚ) : (e.noteQuery t).loopStart = e.loopStart := rfl
@[simp] theorem noteQuery_loopEnd (e : Envelope) (t : ℚ) : (e.noteQuery t).loopEnd = e.loopEnd := rfl

@[simp] theorem answer_fst (e : Envelope) (p : ℚ) : (e.answer p).1 = (e.curveAt p).1 := rfl
@[simp] theorem answer_snd (e : Envelope) (p : ℚ) :
    (e.answer p).2 = { e with head := (e.curveAt p).2 } := rfl

/-- A query is orderly while the times have not gone backwards since the last reset (R155). -/
theorem noteQuery_strayed (e : Envelope) (t : ℚ) :
    (e.noteQuery t).strayed = false ↔ e.strayed = false ∧ ∀ u, e.lastQuery = some u → u ≤ t := by
  unfold Envelope.noteQuery
  cases e.lastQuery <;> simp

/-! ## The curve depends on the knots alone -/

theorem first_congr {e e' : Envelope} (h : e.knots = e'.knots) : e.first = e'.first := by
  simp only [Envelope.first, Envelope.timeAt, Envelope.knotAt, h]

theorem last_congr {e e' : Envelope} (h : e.knots = e'.knots) : e.last = e'.last := by
  simp only [Envelope.last, Envelope.timeAt, Envelope.knotAt, Envelope.count, h]

theorem valueAt_congr {e e' : Envelope} (h : e.knots = e'.knots) (i : ℕ) : e.valueAt i = e'.valueAt i := by
  simp only [Envelope.valueAt, Envelope.knotAt, h]

/-- Two envelopes with the same knots have the same curve (R146). -/
theorem curveAt_congr {e e' : Envelope} (h : e.knots = e'.knots) (p : ℚ) :
    (e.curveAt p).1 = (e'.curveAt p).1 := by
  have hk : ∀ i, e.knotAt i = e'.knotAt i := fun i => by simp only [Envelope.knotAt, h]
  have ht : ∀ i, e.timeAt i = e'.timeAt i := fun i => by simp only [Envelope.timeAt, hk]
  have hs : e.seg p = e'.seg p := by simp only [Envelope.seg, Envelope.count, h, ht]
  unfold Envelope.curveAt
  rw [first_congr h, last_congr h, hs]
  split
  · exact valueAt_congr h 0
  · split
    · simp only [Envelope.lastValue, Envelope.count, h, valueAt_congr h]
    · simp only [hk, ht, valueAt_congr h]

/-! ## Segments -/

theorem seg_mem (e : Envelope) {p : ℚ} (h1 : e.first ≤ p) (h2 : 2 ≤ e.count) :
    e.seg p + 1 < e.count ∧ e.timeAt (e.seg p) ≤ p := by
  have h0 : 0 ∈ (List.range (e.count - 1)).filter fun i => decide (e.timeAt i ≤ p) := by
    rw [List.mem_filter]
    exact ⟨List.mem_range.mpr (by omega), by simpa [Envelope.first] using h1⟩
  have hne : (List.range (e.count - 1)).filter (fun i => decide (e.timeAt i ≤ p)) ≠ [] :=
    List.ne_nil_of_mem h0
  have hm := List.getLast_mem hne
  have hseg : e.seg p = ((List.range (e.count - 1)).filter fun i => decide (e.timeAt i ≤ p)).getLast hne := by
    unfold Envelope.seg
    rw [List.getLast?_eq_getLast_of_ne_nil hne]; rfl
  rw [hseg]
  rw [List.mem_filter, List.mem_range] at hm
  exact ⟨by omega, by simpa using hm.2⟩

/-- No later knot of the segment range starts at or before `p` (R145). -/
theorem seg_max (e : Envelope) {p : ℚ} {j : ℕ} (hj : j + 1 < e.count) (ht : e.timeAt j ≤ p) :
    j ≤ e.seg p := by
  have hjm : j ∈ (List.range (e.count - 1)).filter fun i => decide (e.timeAt i ≤ p) := by
    rw [List.mem_filter]
    exact ⟨List.mem_range.mpr (by omega), by simpa using ht⟩
  have hne := List.ne_nil_of_mem hjm
  have hseg : e.seg p = ((List.range (e.count - 1)).filter fun i => decide (e.timeAt i ≤ p)).getLast hne := by
    unfold Envelope.seg
    rw [List.getLast?_eq_getLast_of_ne_nil hne]; rfl
  rw [hseg]
  have hs : ((List.range (e.count - 1)).filter fun i => decide (e.timeAt i ≤ p)).Pairwise (· < ·) :=
    List.Pairwise.filter _ List.pairwise_lt_range
  obtain ⟨k, hk, hkj⟩ := List.mem_iff_getElem.mp hjm
  rw [List.getLast_eq_getElem]
  rcases Nat.lt_or_ge k (((List.range (e.count - 1)).filter fun i => decide (e.timeAt i ≤ p)).length - 1) with
    hlt | hge
  · have := List.pairwise_iff_getElem.mp hs k _ hk (by omega) hlt
    omega
  · have : k = ((List.range (e.count - 1)).filter fun i => decide (e.timeAt i ≤ p)).length - 1 := by omega
    subst this
    exact hkj.ge

theorem knotAt_mem (e : Envelope) {i : ℕ} (h : i < e.count) : e.knotAt i ∈ e.knots := by
  have h' : i < e.knots.length := h
  simp [Envelope.knotAt, List.getD, h']

/-- The head a query leaves is a knot of the envelope (R52). -/
theorem curveAt_head (e : Envelope) (p : ℚ) (h : e.head < e.count) : (e.curveAt p).2 < e.count := by
  unfold Envelope.curveAt
  split
  · exact h
  · next h1 =>
    split
    · exact h
    · next h2 =>
      have hc : 2 ≤ e.count := by
        by_contra hc
        have : e.count = 1 := by omega
        simp only [Envelope.first, Envelope.last, this] at h1 h2
        exact h2 (not_le.mp h1).le
      have := (seg_mem e (not_le.mp h1).le hc).1
      dsimp only
      split <;> dsimp only <;> omega

/-- The curve stays between the values of its knots (R146). -/
theorem curveAt_range {n : ℕ} {lo : ℚ} {e : Envelope} (h : e.Legal n lo) (p : ℚ) :
    lo ≤ (e.curveAt p).1 ∧ (e.curveAt p).1 ≤ 1 := by
  have hpos : 0 < e.count := List.length_pos_of_ne_nil h.knots_ne
  have hv : ∀ i, i < e.count → lo ≤ e.valueAt i ∧ e.valueAt i ≤ 1 := fun i hi =>
    h.values _ (knotAt_mem e hi)
  unfold Envelope.curveAt
  split
  · exact hv 0 hpos
  · next h1 =>
    split
    · exact hv _ (by omega)
    · next h2 =>
      have hc : 2 ≤ e.count := by
        by_contra hc
        have : e.count = 1 := by omega
        simp only [Envelope.first, Envelope.last, this] at h1 h2
        exact h2 (not_le.mp h1).le
      obtain ⟨s1, s2⟩ := seg_mem e (not_le.mp h1).le hc
      have s3 : p < e.timeAt (e.seg p + 1) := by
        by_cases hlast : e.seg p + 1 = e.count - 1
        · rw [hlast]; exact not_le.mp h2
        · by_contra hcon
          have := seg_max e (j := e.seg p + 1) (by omega) (not_lt.mp hcon)
          omega
      dsimp only
      split
      · exact hv _ (by omega)
      · refine lerp_mem (hv _ (by omega)) (hv _ (by omega)) ?_ ?_
        · exact div_nonneg (by linarith) (by linarith)
        · rw [div_le_one (by linarith)]; linarith

/-! ## All a query can do -/

/-- What sustain answers (R151). -/
theorem sustain_fst (eps : ℚ) (e : Envelope) (t : ℚ) : (e.sustain eps t).1 =
    if t < e.loopStart then (e.curveAt t).1
    else if e.loopEnd - e.loopStart ≤ eps then e.valueAt e.outIndex
    else (e.curveAt (fold t e.loopStart e.loopEnd)).1 := by
  unfold Envelope.sustain
  dsimp only
  split
  · rfl
  · split <;> rfl

/-- A query changes the head, the capture and the model's record of its time, and nothing else (R144). -/
theorem peek_keeps (eps free : ℚ) (e : Envelope) (t : ℚ) :
    (e.peek eps free t).2.knots = e.knots ∧ (e.peek eps free t).2.kind = e.kind ∧
    (e.peek eps free t).2.loopIn = e.loopIn ∧ (e.peek eps free t).2.loopOut = e.loopOut ∧
    (e.peek eps free t).2.decay = e.decay ∧ (e.peek eps free t).2.release = e.release ∧
    (e.peek eps free t).2.lastQuery = some t ∧
    (e.peek eps free t).2.strayed = (e.noteQuery t).strayed := by
  have hsus : ∀ (d : Envelope) (u : ℚ), ∃ hd cp rt rp, (d.sustain eps u).2 =
      { d with head := hd, captured := cp, relTime := rt, relPos := rp } := by
    intro d u
    unfold Envelope.sustain Envelope.capture
    dsimp only
    split
    · exact ⟨_, _, _, _, rfl⟩
    · split <;> split <;> exact ⟨_, _, _, _, rfl⟩
  have hloop : ∀ (d : Envelope) (u : ℚ) (b : Bool), ∃ hd cp rt rp, (d.peekLoop eps free u b).2 =
      { d with head := hd, captured := cp, relTime := rt, relPos := rp } := by
    intro d u b
    unfold Envelope.peekLoop
    split
    · exact ⟨d.head, d.captured, d.relTime, d.relPos, rfl⟩
    · split
      · exact hsus d u
      · split
        · unfold Envelope.echoTail
          simp only
          split
          · exact ⟨_, _, _, _, rfl⟩
          · split <;> exact ⟨_, _, _, _, rfl⟩
        · exact ⟨_, _, _, _, rfl⟩
  have hall : ∃ hd cp rt rp, (e.peek eps free t).2 =
      { e.noteQuery t with head := hd, captured := cp, relTime := rt, relPos := rp } := by
    unfold Envelope.peek
    simp only
    split
    · exact ⟨_, _, _, _, rfl⟩
    · split
      · exact ⟨_, _, _, _, rfl⟩
      · unfold Envelope.peekCycle
        split
        · exact ⟨_, _, _, _, rfl⟩
        · split <;> exact ⟨_, _, _, _, rfl⟩
      · exact hloop _ _ _
      · exact hloop _ _ _
  obtain ⟨hd, cp, rt, rp, h⟩ := hall
  rw [h]
  exact ⟨rfl, rfl, rfl, rfl, rfl, rfl, rfl, rfl⟩

/-- The head stays a knot of the envelope. -/
theorem peek_head (eps free : ℚ) (e : Envelope) (t : ℚ) (h : e.head < e.count) :
    (e.peek eps free t).2.head < e.count := by
  have hc : ∀ (d : Envelope) (p : ℚ), d.head < d.count → d.count = e.count → (d.curveAt p).2 < e.count :=
    fun d p hd he => he ▸ curveAt_head d p hd
  have hn : (e.noteQuery t).head < (e.noteQuery t).count := h
  unfold Envelope.peek
  simp only
  split
  · exact h
  · split
    · exact hc _ _ hn rfl
    · unfold Envelope.peekCycle
      split
      · exact hc _ _ hn rfl
      · split
        · exact h
        · exact hc _ _ hn rfl
    all_goals
      unfold Envelope.peekLoop
      split
      · exact h
      · split
        · unfold Envelope.sustain Envelope.capture
          dsimp only
          split
          · exact hc _ _ hn rfl
          · split <;> split <;> first | exact h | exact hc _ _ hn rfl
        · simp only [Bool.false_eq_true, if_true, if_false, Envelope.echoTail, Envelope.tail]
          first
          | exact hc _ _ hn rfl
          | (split
             · exact hc _ _ hn rfl
             · split <;> first | exact h | exact hc _ _ hn rfl)

/-- Every query leaves a legal envelope legal (R50, R51). -/
theorem peek_legal {n : ℕ} {lo : ℚ} {e : Envelope} (h : e.Legal n lo) (eps free t : ℚ) :
    (e.peek eps free t).2.Legal n lo := by
  obtain ⟨k, _, _, _, d, _, _, _⟩ := peek_keeps eps free e t
  refine ⟨?_, ?_, ?_, ?_, ?_, ?_⟩
  · rw [k]; exact h.knots_ne
  · rw [k]; exact h.knots_le
  · rw [k]; exact h.sorted
  · rw [k]; exact h.values
  · rw [d]; exact h.decay_unit
  · rw [k]; exact peek_head eps free e t h.head_lt

/-- A query of an envelope that is not released captures nothing (R152). -/
theorem peek_unreleased_captured (eps free : ℚ) (e : Envelope) (t : ℚ) (h : e.release = false) :
    (e.peek eps free t).2.captured = e.captured := by
  unfold Envelope.peek
  simp only
  split
  · rfl
  · split
    · rfl
    · unfold Envelope.peekCycle
      split
      · rfl
      · split <;> rfl
    all_goals
      unfold Envelope.peekLoop
      split
      · rfl
      · simp only [noteQuery_release, h, Bool.false_and, Bool.not_false, if_true]
        unfold Envelope.sustain Envelope.capture
        dsimp only
        split
        · rfl
        · split <;> simp [h]

/-- What an orderly query of an envelope that is not released answers depends on its knots, its loop payload
and the time alone. -/
theorem peek_unreleased_congr {e e' : Envelope} {eps free free' t : ℚ} (hk : e.knots = e'.knots)
    (hd : e.kind = e'.kind)
    (hi : e.loopIn = e'.loopIn) (ho : e.loopOut = e'.loopOut) (h : e.release = false)
    (h' : e'.release = false) (hs : (e.noteQuery t).strayed = false)
    (hs' : (e'.noteQuery t).strayed = false) :
    (e.peek eps free t).1 = (e'.peek eps free' t).1 := by
  have hn : (e.noteQuery t).knots = (e'.noteQuery t).knots := hk
  have hc := curveAt_congr hn
  have hcnt : (e.noteQuery t).count = (e'.noteQuery t).count := by simp [Envelope.count, hk]
  have hlv : (e.noteQuery t).lastValue = (e'.noteQuery t).lastValue := by
    simp only [Envelope.lastValue, hcnt, valueAt_congr hn]
  have hin : (e.noteQuery t).inIndex = (e'.noteQuery t).inIndex := by
    simp [Envelope.inIndex, hcnt, hi]
  have hout : (e.noteQuery t).outIndex = (e'.noteQuery t).outIndex := by
    simp [Envelope.outIndex, hcnt, ho]
  have hta : ∀ i, (e.noteQuery t).timeAt i = (e'.noteQuery t).timeAt i := fun i => by
    simp [Envelope.timeAt, Envelope.knotAt, hk]
  have hls : (e.noteQuery t).loopStart = (e'.noteQuery t).loopStart := by
    simp only [Envelope.loopStart, hin, hta]
  have hle : (e.noteQuery t).loopEnd = (e'.noteQuery t).loopEnd := by
    simp only [Envelope.loopEnd, hout, hta]
  unfold Envelope.peek
  simp only [first_congr hn, noteQuery_kind, hd]
  split
  · exact valueAt_congr hn 0
  · split
    · exact hc _
    · unfold Envelope.peekCycle
      rw [last_congr hn, Envelope.width, Envelope.width, last_congr hn, first_congr hn, hlv]
      split
      · exact hc _
      · split
        · rfl
        · exact hc _
    all_goals
      simp only [Envelope.peekLoop, noteQuery_release, h, h', hs, hs', Bool.false_eq_true, if_false,
        Bool.false_and, Bool.not_false, if_true]
      rw [sustain_fst, sustain_fst]
      simp only [hls, hle, hout, hc, valueAt_congr hn]

/-- An orderly query of a legal envelope that is not released answers a value of its range. -/
theorem peek_unreleased_range {n : ℕ} {lo eps free t : ℚ} {e : Envelope} (hl : e.Legal n lo)
    (h : e.release = false) (hs : (e.noteQuery t).strayed = false) : lo ≤ (e.peek eps free t).1 ∧
    (e.peek eps free t).1 ≤ 1 := by
  have hn : (e.noteQuery t).Legal n lo := ⟨hl.1, hl.2, hl.3, hl.4, hl.5, hl.6⟩
  have hpos : 0 < e.count := List.length_pos_of_ne_nil hl.knots_ne
  have hv : ∀ i, i < e.count → lo ≤ (e.noteQuery t).valueAt i ∧ (e.noteQuery t).valueAt i ≤ 1 :=
    fun i hi => hl.values _ (knotAt_mem (e.noteQuery t) hi)
  unfold Envelope.peek
  simp only
  split
  · exact hv 0 hpos
  · split
    · exact curveAt_range hn _
    · unfold Envelope.peekCycle
      split
      · exact curveAt_range hn _
      · split
        · exact hv (e.count - 1) (by omega)
        · exact curveAt_range hn _
    all_goals
      simp only [Envelope.peekLoop, hs, Bool.false_eq_true, if_false, noteQuery_release, h, Bool.false_and,
        Bool.not_false, if_true]
      rw [sustain_fst]
      split
      · exact curveAt_range hn _
      · split
        · exact hv _ (by
            have : (e.noteQuery t).outIndex ≤ e.count - 1 := Nat.min_le_right _ _
            omega)
        · exact curveAt_range hn _

/-- `env_reset` keeps an envelope legal (R142). -/
theorem reset_legal {n : ℕ} {lo : ℚ} {e : Envelope} (h : e.Legal n lo) : e.reset.Legal n lo :=
  ⟨h.1, h.2, h.3, h.4, h.5, List.length_pos_of_ne_nil h.knots_ne⟩

/-- `env_release` keeps an envelope legal (R143). -/
theorem arm_legal {n : ℕ} {lo : ℚ} {e : Envelope} (h : e.Legal n lo) : e.arm.Legal n lo :=
  ⟨h.1, h.2, h.3, h.4, h.5, h.6⟩

/-- Construction from knots in range gives a legal envelope (R141). -/
theorem envBuild_legal {n : ℕ} {lo : ℚ} {knots : List Knot} (hne : knots ≠ []) (hle : knots.length ≤ n)
    (hv : ∀ k ∈ knots, lo ≤ k.value ∧ k.value ≤ 1) (kind : LoopKind) (i o : BitVec 12) {d : ℚ}
    (hd : IsUnit01 d) : (envBuild knots kind i o d).Legal n lo := by
  have hp : (knots.insertionSort fun a b => a.time ≤ b.time).Perm knots := List.perm_insertionSort _ _
  refine ⟨?_, ?_, ?_, ?_, hd, ?_⟩
  · intro h0
    have : knots.insertionSort (fun a b => a.time ≤ b.time) = [] := h0
    rw [this] at hp
    exact hne hp.nil_eq.symm
  · change (knots.insertionSort fun a b => a.time ≤ b.time).length ≤ _
    rw [hp.length_eq]; exact hle
  · have : Std.Total (fun a b : Knot => a.time ≤ b.time) := ⟨fun a b => le_total a.time b.time⟩
    have : IsTrans Knot (fun a b : Knot => a.time ≤ b.time) := ⟨fun a b c => le_trans⟩
    exact List.pairwise_insertionSort _ _
  · intro k hk
    exact hv k (hp.mem_iff.mp hk)
  · change 0 < (knots.insertionSort fun a b => a.time ≤ b.time).length
    rw [hp.length_eq]; exact List.length_pos_of_ne_nil hne

/-- A slot after a query. -/
theorem query_legal {n : ℕ} {lo : ℚ} {sl : EnvSlot} (h : sl.Legal n lo) (eps : ℚ) (c i : ℕ) (a t : ℚ) :
    (sl.query eps c i a t).2.Legal n lo := by
  unfold EnvSlot.query
  split
  · exact h
  · next e he =>
    refine ⟨fun e' he' => ?_, h.2, h.3, h.4, h.5⟩
    simp only [Option.some.injEq] at he'
    subst he'
    exact peek_legal (h.env_legal e he) _ _ _

end Sys2Proof.Laws
end

