-- ==== Sys2Proof/Laws/State.lean ====
section
/-! SUPPORT. One lemma for each field under each update of the state, so that no proof unfolds an update. -/

namespace Sys2Proof.Laws

open Sys2Proof Sys2Proof.Machine

/-! ## `respond` -/

@[simp] theorem respond_params (d : Word64) (s : State) : (respond d s).params = s.params := rfl
@[simp] theorem respond_sampleRate (d : Word64) (s : State) : (respond d s).sampleRate = s.sampleRate := rfl
@[simp] theorem respond_peak (d : Word64) (s : State) : (respond d s).peak = s.peak := rfl
@[simp] theorem respond_counter (d : Word64) (s : State) : (respond d s).counter = s.counter := rfl
@[simp] theorem respond_prevElapsed (d : Word64) (s : State) :
    (respond d s).prevElapsed = s.prevElapsed := rfl
@[simp] theorem respond_errflags (d : Word64) (s : State) : (respond d s).errflags = s.errflags := rfl
@[simp] theorem respond_channels (d : Word64) (s : State) : (respond d s).channels = s.channels := rfl
@[simp] theorem respond_inbox (d : Word64) (s : State) : (respond d s).inbox = s.inbox := rfl
@[simp] theorem respond_responses (d : Word64) (s : State) :
    (respond d s).responses = s.responses ++ [⟨.ok, d⟩] := rfl
@[simp] theorem respond_pcm (d : Word64) (s : State) : (respond d s).pcm = s.pcm := rfl

/-! ## `raiseError` -/

@[simp] theorem raiseError_params (e : Status) (d : Word64) (s : State) :
    (raiseError e d s).params = s.params := rfl
@[simp] theorem raiseError_sampleRate (e : Status) (d : Word64) (s : State) :
    (raiseError e d s).sampleRate = s.sampleRate := rfl
@[simp] theorem raiseError_peak (e : Status) (d : Word64) (s : State) :
    (raiseError e d s).peak = s.peak := rfl
@[simp] theorem raiseError_counter (e : Status) (d : Word64) (s : State) :
    (raiseError e d s).counter = s.counter := rfl
@[simp] theorem raiseError_prevElapsed (e : Status) (d : Word64) (s : State) :
    (raiseError e d s).prevElapsed = s.prevElapsed := rfl
@[simp] theorem raiseError_errflags (e : Status) (d : Word64) (s : State) :
    (raiseError e d s).errflags = s.errflags ||| e.flag := rfl
@[simp] theorem raiseError_channels (e : Status) (d : Word64) (s : State) :
    (raiseError e d s).channels = s.channels := rfl
@[simp] theorem raiseError_inbox (e : Status) (d : Word64) (s : State) :
    (raiseError e d s).inbox = s.inbox := rfl
@[simp] theorem raiseError_responses (e : Status) (d : Word64) (s : State) :
    (raiseError e d s).responses = s.responses ++ [⟨e, d⟩] := rfl
@[simp] theorem raiseError_pcm (e : Status) (d : Word64) (s : State) : (raiseError e d s).pcm = s.pcm := rfl

/-! ## `State.setChannel` -/

@[simp] theorem setChannel_params (s : State) (c : ℕ) (x : Channel) :
    (s.setChannel c x).params = s.params := rfl
@[simp] theorem setChannel_sampleRate (s : State) (c : ℕ) (x : Channel) :
    (s.setChannel c x).sampleRate = s.sampleRate := rfl
@[simp] theorem setChannel_peak (s : State) (c : ℕ) (x : Channel) : (s.setChannel c x).peak = s.peak := rfl
@[simp] theorem setChannel_counter (s : State) (c : ℕ) (x : Channel) :
    (s.setChannel c x).counter = s.counter := rfl
@[simp] theorem setChannel_prevElapsed (s : State) (c : ℕ) (x : Channel) :
    (s.setChannel c x).prevElapsed = s.prevElapsed := rfl
@[simp] theorem setChannel_errflags (s : State) (c : ℕ) (x : Channel) :
    (s.setChannel c x).errflags = s.errflags := rfl
@[simp] theorem setChannel_channels (s : State) (c : ℕ) (x : Channel) :
    (s.setChannel c x).channels = s.channels.set c x := rfl
@[simp] theorem setChannel_inbox (s : State) (c : ℕ) (x : Channel) : (s.setChannel c x).inbox = s.inbox := rfl
@[simp] theorem setChannel_responses (s : State) (c : ℕ) (x : Channel) :
    (s.setChannel c x).responses = s.responses := rfl
@[simp] theorem setChannel_pcm (s : State) (c : ℕ) (x : Channel) : (s.setChannel c x).pcm = s.pcm := rfl

/-! ## `updateChannel` -/

@[simp] theorem updateChannel_params (s : State) (c : ℕ) (x : Channel) :
    (updateChannel s c x).params = s.params := rfl
@[simp] theorem updateChannel_sampleRate (s : State) (c : ℕ) (x : Channel) :
    (updateChannel s c x).sampleRate = s.sampleRate := rfl
@[simp] theorem updateChannel_peak (s : State) (c : ℕ) (x : Channel) :
    (updateChannel s c x).peak = s.peak := rfl
@[simp] theorem updateChannel_counter (s : State) (c : ℕ) (x : Channel) :
    (updateChannel s c x).counter = s.counter := rfl
@[simp] theorem updateChannel_prevElapsed (s : State) (c : ℕ) (x : Channel) :
    (updateChannel s c x).prevElapsed = s.prevElapsed := rfl
@[simp] theorem updateChannel_errflags (s : State) (c : ℕ) (x : Channel) :
    (updateChannel s c x).errflags = s.errflags := rfl
@[simp] theorem updateChannel_channels (s : State) (c : ℕ) (x : Channel) :
    (updateChannel s c x).channels = s.channels.set c x := rfl
@[simp] theorem updateChannel_inbox (s : State) (c : ℕ) (x : Channel) :
    (updateChannel s c x).inbox = s.inbox := rfl
@[simp] theorem updateChannel_responses (s : State) (c : ℕ) (x : Channel) :
    (updateChannel s c x).responses = s.responses ++ [⟨.ok, 0⟩] := rfl
@[simp] theorem updateChannel_pcm (s : State) (c : ℕ) (x : Channel) : (updateChannel s c x).pcm = s.pcm := rfl

/-! ## `present` -/

@[simp] theorem present_params (w : Word64) (s : State) : (present w s).params = s.params := rfl
@[simp] theorem present_sampleRate (w : Word64) (s : State) : (present w s).sampleRate = s.sampleRate := rfl
@[simp] theorem present_peak (w : Word64) (s : State) : (present w s).peak = s.peak := rfl
@[simp] theorem present_counter (w : Word64) (s : State) : (present w s).counter = s.counter := rfl
@[simp] theorem present_prevElapsed (w : Word64) (s : State) :
    (present w s).prevElapsed = s.prevElapsed := rfl
@[simp] theorem present_errflags (w : Word64) (s : State) : (present w s).errflags = s.errflags := rfl
@[simp] theorem present_channels (w : Word64) (s : State) : (present w s).channels = s.channels := rfl
@[simp] theorem present_inbox (w : Word64) (s : State) : (present w s).inbox = w :: s.inbox := rfl
@[simp] theorem present_responses (w : Word64) (s : State) : (present w s).responses = s.responses := rfl
@[simp] theorem present_pcm (w : Word64) (s : State) : (present w s).pcm = s.pcm := rfl

/-! ## `tick` -/

@[simp] theorem tick_params (s : State) : (tick s).params = s.params := rfl
@[simp] theorem tick_sampleRate (s : State) : (tick s).sampleRate = s.sampleRate := rfl
@[simp] theorem tick_peak (s : State) : (tick s).peak = s.peak := rfl
@[simp] theorem tick_counter (s : State) : (tick s).counter = s.counter + 1 := rfl
@[simp] theorem tick_prevElapsed (s : State) : (tick s).prevElapsed = s.elapsedAt (s.counter + 1) := rfl
@[simp] theorem tick_errflags (s : State) : (tick s).errflags = s.errflags := rfl
@[simp] theorem tick_channels (s : State) : (tick s).channels = s.sampled := rfl
@[simp] theorem tick_inbox (s : State) : (tick s).inbox = s.inbox := rfl
@[simp] theorem tick_responses (s : State) : (tick s).responses = s.responses := rfl
@[simp] theorem tick_pcm (s : State) : (tick s).pcm = s.pcm ++ [s.mixed] := rfl

/-! ## The channels -/

@[simp] theorem respond_nCh (d : Word64) (s : State) : (respond d s).nCh = s.nCh := rfl
@[simp] theorem raiseError_nCh (e : Status) (d : Word64) (s : State) : (raiseError e d s).nCh = s.nCh := rfl
@[simp] theorem present_nCh (w : Word64) (s : State) : (present w s).nCh = s.nCh := rfl
@[simp] theorem setChannel_nCh (s : State) (c : ℕ) (x : Channel) : (s.setChannel c x).nCh = s.nCh := by
  simp [State.nCh, State.setChannel]
@[simp] theorem updateChannel_nCh (s : State) (c : ℕ) (x : Channel) : (updateChannel s c x).nCh = s.nCh :=
  setChannel_nCh s c x
@[simp] theorem tick_nCh (s : State) : (tick s).nCh = s.nCh := by
  simp [State.nCh, tick, State.sampled]
@[simp] theorem respond_channel (d : Word64) (s : State) (c : ℕ) :
    (respond d s).channel c = s.channel c := rfl
@[simp] theorem raiseError_channel (e : Status) (d : Word64) (s : State) (c : ℕ) :
    (raiseError e d s).channel c = s.channel c := rfl
@[simp] theorem present_channel (w : Word64) (s : State) (c : ℕ) :
    (present w s).channel c = s.channel c := rfl
theorem setChannel_channel_same {s : State} {c : ℕ} (h : c < s.nCh) (x : Channel) :
    (s.setChannel c x).channel c = x := by
  have h' : c < s.channels.length := h
  simp [State.channel, State.setChannel, h']
theorem setChannel_channel_other (s : State) (x : Channel) {c d : ℕ} (h : d ≠ c) :
    (s.setChannel c x).channel d = s.channel d := by
  simp [State.channel, State.setChannel, Ne.symm h]
theorem updateChannel_channel_same {s : State} {c : ℕ} (h : c < s.nCh) (x : Channel) :
    (updateChannel s c x).channel c = x := setChannel_channel_same h x
theorem updateChannel_channel_other (s : State) (x : Channel) {c d : ℕ} (h : d ≠ c) :
    (updateChannel s c x).channel d = s.channel d := setChannel_channel_other s x h
@[simp] theorem setChannel_channel_self (s : State) (c : ℕ) : s.setChannel c (s.channel c) = s := by
  unfold State.setChannel State.channel
  congr 1
  apply List.ext_getElem?
  intro i
  rw [List.getElem?_set]
  split
  · next h =>
    subst h
    by_cases hc : c < s.channels.length <;> simp [hc]
  · rfl
theorem tick_channel {s : State} {c : ℕ} (h : c < s.nCh) :
    (tick s).channel c = (s.channel c).sample s.params c s.tickDelta := by
  simp [State.channel, State.sampled, tick, h]
/-- Two lists of channels of one length with the same channels are the same. -/
theorem channels_ext {s t : State} (hn : s.nCh = t.nCh) (h : ∀ c, c < s.nCh → s.channel c = t.channel c) :
    s.channels = t.channels := by
  apply List.ext_getElem hn
  intro i h1 h2
  have := h i h1
  simpa [State.channel, h1, h2] using this
@[simp] theorem resetWith_nCh (n : ℕ) (p : Config.Params) : (State.resetWith n p).nCh = n := by
  simp [State.nCh, State.resetWith]
@[simp] theorem resetWith_channel (n : ℕ) (p : Config.Params) (c : ℕ) :
    (State.resetWith n p).channel c = resetChannel := by
  simp only [State.channel, State.resetWith, List.getD_eq_getElem?_getD, List.getElem?_replicate]
  split <;> rfl

/-! ## `Channel.setSlot` -/

@[simp] theorem setSlot_staged (x : Channel) (i : Fin 4) (e : EnvSlot) :
    (x.setSlot i e).staged = x.staged := rfl
@[simp] theorem setSlot_active (x : Channel) (i : Fin 4) (e : EnvSlot) :
    (x.setSlot i e).active = x.active := rfl
@[simp] theorem setSlot_live (x : Channel) (i : Fin 4) (e : EnvSlot) : (x.setSlot i e).live = x.live := rfl
@[simp] theorem setSlot_playing (x : Channel) (i : Fin 4) (e : EnvSlot) :
    (x.setSlot i e).playing = x.playing := rfl
@[simp] theorem setSlot_released (x : Channel) (i : Fin 4) (e : EnvSlot) :
    (x.setSlot i e).released = x.released := rfl
@[simp] theorem setSlot_noiseOn (x : Channel) (i : Fin 4) (e : EnvSlot) :
    (x.setSlot i e).noiseOn = x.noiseOn := rfl
@[simp] theorem setSlot_dirty (x : Channel) (i : Fin 4) (e : EnvSlot) : (x.setSlot i e).dirty = x.dirty := rfl
@[simp] theorem setSlot_volume (x : Channel) (i : Fin 4) (e : EnvSlot) :
    (x.setSlot i e).volume = x.volume := rfl
@[simp] theorem setSlot_pan (x : Channel) (i : Fin 4) (e : EnvSlot) : (x.setSlot i e).pan = x.pan := rfl
@[simp] theorem setSlot_frequency (x : Channel) (i : Fin 4) (e : EnvSlot) :
    (x.setSlot i e).frequency = x.frequency := rfl
@[simp] theorem setSlot_midiNote (x : Channel) (i : Fin 4) (e : EnvSlot) :
    (x.setSlot i e).midiNote = x.midiNote := rfl
@[simp] theorem setSlot_tonePeriod (x : Channel) (i : Fin 4) (e : EnvSlot) :
    (x.setSlot i e).tonePeriod = x.tonePeriod := rfl
@[simp] theorem setSlot_noisePeriod (x : Channel) (i : Fin 4) (e : EnvSlot) :
    (x.setSlot i e).noisePeriod = x.noisePeriod := rfl
@[simp] theorem setSlot_toneTime (x : Channel) (i : Fin 4) (e : EnvSlot) :
    (x.setSlot i e).toneTime = x.toneTime := rfl
@[simp] theorem setSlot_noiseTime (x : Channel) (i : Fin 4) (e : EnvSlot) :
    (x.setSlot i e).noiseTime = x.noiseTime := rfl
@[simp] theorem setSlot_envTime (x : Channel) (i : Fin 4) (e : EnvSlot) :
    (x.setSlot i e).envTime = x.envTime := rfl
@[simp] theorem setSlot_lastRefresh (x : Channel) (i : Fin 4) (e : EnvSlot) :
    (x.setSlot i e).lastRefresh = x.lastRefresh := rfl
@[simp] theorem setSlot_snapVol (x : Channel) (i : Fin 4) (e : EnvSlot) :
    (x.setSlot i e).snapVol = x.snapVol := rfl
@[simp] theorem setSlot_snapTonePeriod (x : Channel) (i : Fin 4) (e : EnvSlot) :
    (x.setSlot i e).snapTonePeriod = x.snapTonePeriod := rfl
@[simp] theorem setSlot_snapNoisePeriod (x : Channel) (i : Fin 4) (e : EnvSlot) :
    (x.setSlot i e).snapNoisePeriod = x.snapNoisePeriod := rfl
@[simp] theorem setSlot_leftMult (x : Channel) (i : Fin 4) (e : EnvSlot) :
    (x.setSlot i e).leftMult = x.leftMult := rfl
@[simp] theorem setSlot_rightMult (x : Channel) (i : Fin 4) (e : EnvSlot) :
    (x.setSlot i e).rightMult = x.rightMult := rfl
@[simp] theorem setSlot_out (x : Channel) (i : Fin 4) (e : EnvSlot) : (x.setSlot i e).out = x.out := rfl
@[simp] theorem setSlot_wavePrev (x : Channel) (i : Fin 4) (e : EnvSlot) :
    (x.setSlot i e).wavePrev = x.wavePrev := rfl
@[simp] theorem setSlot_noiseHeld (x : Channel) (i : Fin 4) (e : EnvSlot) :
    (x.setSlot i e).noiseHeld = x.noiseHeld := rfl
@[simp] theorem setSlot_frameL (x : Channel) (i : Fin 4) (e : EnvSlot) :
    (x.setSlot i e).frameL = x.frameL := rfl
@[simp] theorem setSlot_frameR (x : Channel) (i : Fin 4) (e : EnvSlot) :
    (x.setSlot i e).frameR = x.frameR := rfl
@[simp] theorem setSlot_wt (x : Channel) (i : Fin 4) (e : EnvSlot) : (x.setSlot i e).wt = x.wt := rfl
@[simp] theorem setSlot_wts (x : Channel) (i : Fin 4) (e : EnvSlot) : (x.setSlot i e).wts = x.wts := rfl
@[simp] theorem setSlot_lfsr (x : Channel) (i : Fin 4) (e : EnvSlot) : (x.setSlot i e).lfsr = x.lfsr := rfl
@[simp] theorem setSlot_env (x : Channel) (i : Fin 4) (e : EnvSlot) :
    (x.setSlot i e).env = x.env.set i.val e i.isLt := rfl
@[simp] theorem setSlot_slot_same (x : Channel) (i : Fin 4) (e : EnvSlot) : (x.setSlot i e).slot i = e := by
  simp [Channel.slot, Channel.setSlot]
theorem setSlot_slot_other (x : Channel) (e : EnvSlot) {i j : Fin 4} (h : j ≠ i) :
    (x.setSlot i e).slot j = x.slot j := by
  have h' : i.val ≠ j.val := fun q => h (Fin.ext q.symm)
  simp [Channel.slot, Channel.setSlot, h']
@[simp] theorem setSlot_self (x : Channel) (i : Fin 4) : x.setSlot i (x.slot i) = x := by
  simp [Channel.slot, Channel.setSlot]

/-! ## `Channel.touchSlot`, `Channel.updatePan`, `Channel.onSounding` -/

@[simp] theorem touchSlot_staged (x : Channel) (i : Fin 4) : (x.touchSlot i).staged = x.staged := rfl
@[simp] theorem touchSlot_active (x : Channel) (i : Fin 4) : (x.touchSlot i).active = x.active := rfl
@[simp] theorem touchSlot_live (x : Channel) (i : Fin 4) : (x.touchSlot i).live = x.live := rfl
@[simp] theorem touchSlot_playing (x : Channel) (i : Fin 4) : (x.touchSlot i).playing = x.playing := rfl
@[simp] theorem touchSlot_released (x : Channel) (i : Fin 4) : (x.touchSlot i).released = x.released := rfl
@[simp] theorem touchSlot_noiseOn (x : Channel) (i : Fin 4) : (x.touchSlot i).noiseOn = x.noiseOn := rfl
@[simp] theorem touchSlot_dirty (x : Channel) (i : Fin 4) :
    (x.touchSlot i).dirty = (x.dirty || decide (i.val ≤ 2)) := rfl
@[simp] theorem touchSlot_volume (x : Channel) (i : Fin 4) : (x.touchSlot i).volume = x.volume := rfl
@[simp] theorem touchSlot_pan (x : Channel) (i : Fin 4) : (x.touchSlot i).pan = x.pan := rfl
@[simp] theorem touchSlot_frequency (x : Channel) (i : Fin 4) : (x.touchSlot i).frequency = x.frequency := rfl
@[simp] theorem touchSlot_midiNote (x : Channel) (i : Fin 4) : (x.touchSlot i).midiNote = x.midiNote := rfl
@[simp] theorem touchSlot_tonePeriod (x : Channel) (i : Fin 4) :
    (x.touchSlot i).tonePeriod = x.tonePeriod := rfl
@[simp] theorem touchSlot_noisePeriod (x : Channel) (i : Fin 4) :
    (x.touchSlot i).noisePeriod = x.noisePeriod := rfl
@[simp] theorem touchSlot_toneTime (x : Channel) (i : Fin 4) : (x.touchSlot i).toneTime = x.toneTime := rfl
@[simp] theorem touchSlot_noiseTime (x : Channel) (i : Fin 4) : (x.touchSlot i).noiseTime = x.noiseTime := rfl
@[simp] theorem touchSlot_envTime (x : Channel) (i : Fin 4) : (x.touchSlot i).envTime = x.envTime := rfl
@[simp] theorem touchSlot_lastRefresh (x : Channel) (i : Fin 4) :
    (x.touchSlot i).lastRefresh = x.lastRefresh := rfl
@[simp] theorem touchSlot_snapVol (x : Channel) (i : Fin 4) : (x.touchSlot i).snapVol = x.snapVol := rfl
@[simp] theorem touchSlot_snapTonePeriod (x : Channel) (i : Fin 4) :
    (x.touchSlot i).snapTonePeriod = x.snapTonePeriod := rfl
@[simp] theorem touchSlot_snapNoisePeriod (x : Channel) (i : Fin 4) :
    (x.touchSlot i).snapNoisePeriod = x.snapNoisePeriod := rfl
@[simp] theorem touchSlot_leftMult (x : Channel) (i : Fin 4) : (x.touchSlot i).leftMult = x.leftMult := rfl
@[simp] theorem touchSlot_rightMult (x : Channel) (i : Fin 4) : (x.touchSlot i).rightMult = x.rightMult := rfl
@[simp] theorem touchSlot_out (x : Channel) (i : Fin 4) : (x.touchSlot i).out = x.out := rfl
@[simp] theorem touchSlot_wavePrev (x : Channel) (i : Fin 4) : (x.touchSlot i).wavePrev = x.wavePrev := rfl
@[simp] theorem touchSlot_noiseHeld (x : Channel) (i : Fin 4) : (x.touchSlot i).noiseHeld = x.noiseHeld := rfl
@[simp] theorem touchSlot_frameL (x : Channel) (i : Fin 4) : (x.touchSlot i).frameL = x.frameL := rfl
@[simp] theorem touchSlot_frameR (x : Channel) (i : Fin 4) : (x.touchSlot i).frameR = x.frameR := rfl
@[simp] theorem touchSlot_wt (x : Channel) (i : Fin 4) : (x.touchSlot i).wt = x.wt := rfl
@[simp] theorem touchSlot_wts (x : Channel) (i : Fin 4) : (x.touchSlot i).wts = x.wts := rfl
@[simp] theorem touchSlot_lfsr (x : Channel) (i : Fin 4) : (x.touchSlot i).lfsr = x.lfsr := rfl
@[simp] theorem touchSlot_env (x : Channel) (i : Fin 4) : (x.touchSlot i).env = x.env := rfl
@[simp] theorem touchSlot_slot (x : Channel) (i j : Fin 4) : (x.touchSlot i).slot j = x.slot j := rfl
@[simp] theorem updatePan_staged (x : Channel) : (x.updatePan).staged = x.staged := rfl
@[simp] theorem updatePan_active (x : Channel) : (x.updatePan).active = x.active := rfl
@[simp] theorem updatePan_live (x : Channel) : (x.updatePan).live = x.live := rfl
@[simp] theorem updatePan_playing (x : Channel) : (x.updatePan).playing = x.playing := rfl
@[simp] theorem updatePan_released (x : Channel) : (x.updatePan).released = x.released := rfl
@[simp] theorem updatePan_noiseOn (x : Channel) : (x.updatePan).noiseOn = x.noiseOn := rfl
@[simp] theorem updatePan_dirty (x : Channel) : (x.updatePan).dirty = x.dirty := rfl
@[simp] theorem updatePan_volume (x : Channel) : (x.updatePan).volume = x.volume := rfl
@[simp] theorem updatePan_pan (x : Channel) : (x.updatePan).pan = x.pan := rfl
@[simp] theorem updatePan_frequency (x : Channel) : (x.updatePan).frequency = x.frequency := rfl
@[simp] theorem updatePan_midiNote (x : Channel) : (x.updatePan).midiNote = x.midiNote := rfl
@[simp] theorem updatePan_tonePeriod (x : Channel) : (x.updatePan).tonePeriod = x.tonePeriod := rfl
@[simp] theorem updatePan_noisePeriod (x : Channel) : (x.updatePan).noisePeriod = x.noisePeriod := rfl
@[simp] theorem updatePan_toneTime (x : Channel) : (x.updatePan).toneTime = x.toneTime := rfl
@[simp] theorem updatePan_noiseTime (x : Channel) : (x.updatePan).noiseTime = x.noiseTime := rfl
@[simp] theorem updatePan_envTime (x : Channel) : (x.updatePan).envTime = x.envTime := rfl
@[simp] theorem updatePan_lastRefresh (x : Channel) : (x.updatePan).lastRefresh = x.lastRefresh := rfl
@[simp] theorem updatePan_snapVol (x : Channel) : (x.updatePan).snapVol = x.snapVol := rfl
@[simp] theorem updatePan_snapTonePeriod (x : Channel) :
    (x.updatePan).snapTonePeriod = x.snapTonePeriod := rfl
@[simp] theorem updatePan_snapNoisePeriod (x : Channel) :
    (x.updatePan).snapNoisePeriod = x.snapNoisePeriod := rfl
@[simp] theorem updatePan_leftMult (x : Channel) :
    (x.updatePan).leftMult = clamp (1 - quantize x.pan x.active.panSteps (-1) 1) 0 1 := rfl
@[simp] theorem updatePan_rightMult (x : Channel) :
    (x.updatePan).rightMult = clamp (1 + quantize x.pan x.active.panSteps (-1) 1) 0 1 := rfl
@[simp] theorem updatePan_out (x : Channel) : (x.updatePan).out = x.out := rfl
@[simp] theorem updatePan_wavePrev (x : Channel) : (x.updatePan).wavePrev = x.wavePrev := rfl
@[simp] theorem updatePan_noiseHeld (x : Channel) : (x.updatePan).noiseHeld = x.noiseHeld := rfl
@[simp] theorem updatePan_frameL (x : Channel) : (x.updatePan).frameL = x.frameL := rfl
@[simp] theorem updatePan_frameR (x : Channel) : (x.updatePan).frameR = x.frameR := rfl
@[simp] theorem updatePan_wt (x : Channel) : (x.updatePan).wt = x.wt := rfl
@[simp] theorem updatePan_wts (x : Channel) : (x.updatePan).wts = x.wts := rfl
@[simp] theorem updatePan_lfsr (x : Channel) : (x.updatePan).lfsr = x.lfsr := rfl
@[simp] theorem updatePan_env (x : Channel) : (x.updatePan).env = x.env := rfl
@[simp] theorem updatePan_slot (x : Channel) (i : Fin 4) : x.updatePan.slot i = x.slot i := rfl
@[simp] theorem onSounding_staged (x : Channel) (f : EnvSlot → EnvSlot) :
    (x.onSounding f).staged = x.staged := rfl
@[simp] theorem onSounding_active (x : Channel) (f : EnvSlot → EnvSlot) :
    (x.onSounding f).active = x.active := rfl
@[simp] theorem onSounding_live (x : Channel) (f : EnvSlot → EnvSlot) : (x.onSounding f).live = x.live := rfl
@[simp] theorem onSounding_playing (x : Channel) (f : EnvSlot → EnvSlot) :
    (x.onSounding f).playing = x.playing := rfl
@[simp] theorem onSounding_released (x : Channel) (f : EnvSlot → EnvSlot) :
    (x.onSounding f).released = x.released := rfl
@[simp] theorem onSounding_noiseOn (x : Channel) (f : EnvSlot → EnvSlot) :
    (x.onSounding f).noiseOn = x.noiseOn := rfl
@[simp] theorem onSounding_dirty (x : Channel) (f : EnvSlot → EnvSlot) :
    (x.onSounding f).dirty = x.dirty := rfl
@[simp] theorem onSounding_volume (x : Channel) (f : EnvSlot → EnvSlot) :
    (x.onSounding f).volume = x.volume := rfl
@[simp] theorem onSounding_pan (x : Channel) (f : EnvSlot → EnvSlot) : (x.onSounding f).pan = x.pan := rfl
@[simp] theorem onSounding_frequency (x : Channel) (f : EnvSlot → EnvSlot) :
    (x.onSounding f).frequency = x.frequency := rfl
@[simp] theorem onSounding_midiNote (x : Channel) (f : EnvSlot → EnvSlot) :
    (x.onSounding f).midiNote = x.midiNote := rfl
@[simp] theorem onSounding_tonePeriod (x : Channel) (f : EnvSlot → EnvSlot) :
    (x.onSounding f).tonePeriod = x.tonePeriod := rfl
@[simp] theorem onSounding_noisePeriod (x : Channel) (f : EnvSlot → EnvSlot) :
    (x.onSounding f).noisePeriod = x.noisePeriod := rfl
@[simp] theorem onSounding_toneTime (x : Channel) (f : EnvSlot → EnvSlot) :
    (x.onSounding f).toneTime = x.toneTime := rfl
@[simp] theorem onSounding_noiseTime (x : Channel) (f : EnvSlot → EnvSlot) :
    (x.onSounding f).noiseTime = x.noiseTime := rfl
@[simp] theorem onSounding_envTime (x : Channel) (f : EnvSlot → EnvSlot) :
    (x.onSounding f).envTime = x.envTime := rfl
@[simp] theorem onSounding_lastRefresh (x : Channel) (f : EnvSlot → EnvSlot) :
    (x.onSounding f).lastRefresh = x.lastRefresh := rfl
@[simp] theorem onSounding_snapVol (x : Channel) (f : EnvSlot → EnvSlot) :
    (x.onSounding f).snapVol = x.snapVol := rfl
@[simp] theorem onSounding_snapTonePeriod (x : Channel) (f : EnvSlot → EnvSlot) :
    (x.onSounding f).snapTonePeriod = x.snapTonePeriod := rfl
@[simp] theorem onSounding_snapNoisePeriod (x : Channel) (f : EnvSlot → EnvSlot) :
    (x.onSounding f).snapNoisePeriod = x.snapNoisePeriod := rfl
@[simp] theorem onSounding_leftMult (x : Channel) (f : EnvSlot → EnvSlot) :
    (x.onSounding f).leftMult = x.leftMult := rfl
@[simp] theorem onSounding_rightMult (x : Channel) (f : EnvSlot → EnvSlot) :
    (x.onSounding f).rightMult = x.rightMult := rfl
@[simp] theorem onSounding_out (x : Channel) (f : EnvSlot → EnvSlot) : (x.onSounding f).out = x.out := rfl
@[simp] theorem onSounding_wavePrev (x : Channel) (f : EnvSlot → EnvSlot) :
    (x.onSounding f).wavePrev = x.wavePrev := rfl
@[simp] theorem onSounding_noiseHeld (x : Channel) (f : EnvSlot → EnvSlot) :
    (x.onSounding f).noiseHeld = x.noiseHeld := rfl
@[simp] theorem onSounding_frameL (x : Channel) (f : EnvSlot → EnvSlot) :
    (x.onSounding f).frameL = x.frameL := rfl
@[simp] theorem onSounding_frameR (x : Channel) (f : EnvSlot → EnvSlot) :
    (x.onSounding f).frameR = x.frameR := rfl
@[simp] theorem onSounding_wt (x : Channel) (f : EnvSlot → EnvSlot) : (x.onSounding f).wt = x.wt := rfl
@[simp] theorem onSounding_wts (x : Channel) (f : EnvSlot → EnvSlot) : (x.onSounding f).wts = x.wts := rfl
@[simp] theorem onSounding_lfsr (x : Channel) (f : EnvSlot → EnvSlot) : (x.onSounding f).lfsr = x.lfsr := rfl
@[simp] theorem onSounding_env (x : Channel) (f : EnvSlot → EnvSlot) :
    (x.onSounding f).env = #v[f x.env[0], f x.env[1], f x.env[2], x.env[3]] := rfl
/-- Slots 0 to 2 change, slot 3 stays. -/
theorem onSounding_slot (x : Channel) (f : EnvSlot → EnvSlot) (i : Fin 4) :
    (x.onSounding f).slot i = if i.val ≤ 2 then f (x.slot i) else x.slot i := by
  fin_cases i <;> rfl

end Sys2Proof.Laws
end

