-- ==== Sys2Proof/Laws/Ops.lean ====
section
/-! SUPPORT. For each shared operation of `Machine/Ops.lean`, one lemma that says all it can do. -/

namespace Sys2Proof.Laws

open Sys2Proof Sys2Proof.Machine

/-- A step with nothing presented. -/
theorem step_of_nil {s : State} (h : s.inbox = []) : fetch s = none := by simp [fetch, h]

/-- The word taken is the oldest one presented; the rest stays. -/
theorem fetch_of_cons {s : State} {w : Word64} {rest : List Word64} (h : s.inbox = w :: rest) :
    fetch s = some (w, { s with inbox := rest }) := by simp [fetch, h]

/-- All `fetch` can answer. -/
theorem fetch_cases {s : State} {r : Word64 × State} (h : fetch s = some r) :
    s.inbox = r.1 :: r.2.inbox ∧ r.2 = { s with inbox := r.2.inbox } := by
  unfold fetch at h
  split at h
  · cases h
  · next w rest hi => cases h; exact ⟨hi, rfl⟩

/-- Putting a word back undoes taking it: the word presented is the one taken next. -/
theorem fetch_present (w : Word64) (s : State) : fetch (present w s) = some (w, s) := by
  simp [fetch, present]

theorem runWord_of_ok {meaning : Instr → State → Host.Outcome State Fault Refusal} {w : Word64}
    {i : Instr} (h : decode w = .ok i) (s : State) : runWord meaning w s = meaning i s := by
  simp [runWord, h]

theorem runWord_of_error {meaning : Instr → State → Host.Outcome State Fault Refusal} {w : Word64}
    {e : DecodeError} (h : decode w = .error e) (s : State) :
    runWord meaning w s = .next (raiseIllegal s) := by
  simp [runWord, h]

/-- A command of a channel that exists runs on it. -/
theorem onChannel_of_lt {ch : BitVec 8} {s : State} (h : ch.toNat < s.nCh) (body : ℕ → State) :
    onChannel ch s body = .next (body ch.toNat) := by
  simp [onChannel, h]

/-- A command of a channel that does not exist is refused with data 0 (R333). -/
theorem onChannel_of_ge {ch : BitVec 8} {s : State} (h : ¬ch.toNat < s.nCh) (body : ℕ → State) :
    onChannel ch s body = .next (raiseError .badOperand 0 s) := by
  simp [onChannel, h]

/-- All a command of a channel can answer: always a next state. -/
theorem onChannel_cases {ch : BitVec 8} {s t : State} {body : ℕ → State}
    (h : onChannel ch s body = .next t) :
    (ch.toNat < s.nCh ∧ t = body ch.toNat) ∨
      (s.nCh ≤ ch.toNat ∧ t = raiseError .badOperand 0 s) := by
  by_cases hc : ch.toNat < s.nCh
  · rw [onChannel_of_lt hc] at h
    cases h
    exact .inl ⟨hc, rfl⟩
  · rw [onChannel_of_ge hc] at h
    cases h
    exact .inr ⟨by omega, rfl⟩

theorem onSlot_of_lt {slot : BitVec 4} (h : slot.toNat < 4) (s : State) (body : Fin 4 → State) :
    onSlot slot s body = body ⟨slot.toNat, h⟩ := by
  simp [onSlot, h]

/-- A slot above 3 is refused with data 0 (R108 (b), R333). -/
theorem onSlot_of_ge {slot : BitVec 4} (h : ¬slot.toNat < 4) (s : State) (body : Fin 4 → State) :
    onSlot slot s body = raiseError .badOperand 0 s := by
  simp [onSlot, h]

/-- All an envelope command can do past its channel. -/
theorem onSlot_cases (slot : BitVec 4) (s : State) (body : Fin 4 → State) :
    (∃ i : Fin 4, i.val = slot.toNat ∧ onSlot slot s body = body i) ∨
      (4 ≤ slot.toNat ∧ onSlot slot s body = raiseError .badOperand 0 s) := by
  by_cases h : slot.toNat < 4
  · exact .inl ⟨_, rfl, onSlot_of_lt h s body⟩
  · exact .inr ⟨by omega, onSlot_of_ge h s body⟩

/-- The flag of an error status is bit `status - 1` (R36, R335). -/
theorem flag_eq {e : Status} (h : e ≠ .ok) : e.flag = 1#4 <<< (e.code.toNat - 1) := by
  cases e <;> first | exact absurd rfl h | rfl

/-- A zero-extended 32-bit word. -/
theorem zext_eq (w : Word32) : zext w = BitVec.ofNat 64 w.toNat := by
  apply BitVec.eq_of_toNat_eq
  simp [zext]

/-- An index as response data. -/
theorem idx_data (i : BitVec 16) : i.setWidth 64 = BitVec.ofNat 64 i.toNat := by
  apply BitVec.eq_of_toNat_eq
  simp

end Sys2Proof.Laws
end

