-- ==== Sys2Proof/Laws/Noise.lean ====
section
/-! SUPPORT. The noise generator (`44_noise_lfsr.md`): its mask, its step, its cycle. -/

namespace Sys2Proof.Laws

open Sys2Proof Sys2Proof.Machine

theorem lfsrIter_eq (p : Config.Params) (n k : ℕ) (w : Word32) : lfsrIter p n k w = (lfsrNext p n)^[k] w := by
  induction k generalizing w with
  | zero => rfl
  | succ k ih => simp only [lfsrIter, ih, Function.iterate_succ, Function.comp]

theorem lfsrIter_succ (p : Config.Params) (n k : ℕ) (w : Word32) : lfsrIter p n (k + 1) w = lfsrNext p n
    (lfsrIter p n k w) := by
  simp only [lfsrIter_eq, Function.iterate_succ_apply']

theorem lfsrMask_toNat {n : ℕ} (h : n ≤ 32) : (lfsrMask n).toNat = 2 ^ n - 1 := by
  have : 2 ^ n ≤ 2 ^ 32 := Nat.pow_le_pow_right (by norm_num) h
  rw [lfsrMask, BitVec.toNat_ofNat, Nat.mod_eq_of_lt (by omega)]

/-- Masking is reduction modulo `2^n` (R260). -/
theorem and_lfsrMask {n : ℕ} (h : n ≤ 32) (w : Word32) : (w &&& lfsrMask n).toNat = w.toNat % 2 ^ n := by
  rw [BitVec.toNat_and, lfsrMask_toNat h, Nat.and_two_pow_sub_one_eq_mod]

theorem lfsrNext_lt {p : Config.Params} (hp : p.Legal) {n : ℕ} (h1 : 3 ≤ n) (h2 : n ≤ 32) {w : Word32}
    (hw : w.toNat < 2 ^ n) :
    (lfsrNext p n w).toNat < 2 ^ n := by
  have hs : (w >>> 1).toNat < 2 ^ n := by
    rw [BitVec.toNat_ushiftRight, Nat.shiftRight_eq_div_pow]
    omega
  unfold lfsrNext
  split
  · rw [BitVec.toNat_xor]
    exact Nat.xor_lt_two_pow hs (hp.taps_lt n h1 h2)
  · simpa using hs

theorem lfsrNext_ne {p : Config.Params} (hl : p.Legal) {n : ℕ} (h1 : 3 ≤ n) (h2 : n ≤ 32) {w : Word32}
    (hw : w.toNat < 2 ^ n) (h0 : w ≠ 0) :
    lfsrNext p n w ≠ 0 := by
  have hs : (w >>> 1).toNat = w.toNat / 2 := by
    rw [BitVec.toNat_ushiftRight, Nat.shiftRight_eq_div_pow]
  have hp : 2 ^ n = 2 * 2 ^ (n - 1) := by
    rw [← Nat.pow_succ']; congr 1; omega
  unfold lfsrNext
  split
  · intro h
    have := congrArg BitVec.toNat (BitVec.xor_eq_zero_iff.mp h)
    rw [hs] at this
    have := hl.taps_ge n h1 h2
    omega
  · next hb =>
    intro h
    apply h0
    have h' : w >>> 1 = 0#32 := by simpa using h
    have h3 : w.toNat / 2 = 0 := by rw [← hs, h']; rfl
    rw [BitVec.getLsbD, Nat.testBit_zero] at hb
    apply BitVec.eq_of_toNat_eq
    simp only [decide_eq_true_eq] at hb
    change w.toNat = 0
    omega

/-- `LFSR_STEP` keeps a legal generator legal (R265). -/
theorem lfsr_step_legal {p : Config.Params} (hp : p.Legal) {l : Lfsr} (h : l.Legal p) :
    (l.step p).Legal p := by
  refine ⟨h.n_ge, h.n_le, h.seed_ne, h.seed_lt, ?_, ?_, ?_⟩
  · exact lfsrNext_ne hp h.n_ge h.n_le h.state_lt h.state_ne
  · exact lfsrNext_lt hp h.n_ge h.n_le h.state_lt
  · obtain ⟨k, hk⟩ := h.on_cycle
    refine ⟨k + 1, ?_⟩
    change lfsrNext p l.n l.state = lfsrIter p l.n (k + 1) l.seed
    rw [lfsrIter_succ, hk]; rfl

/-- A constructed generator is legal (R261, R265). -/
theorem lfsrNew_legal {p : Config.Params} (hl : p.Legal) (len : ℕ) (seed : Word32) :
    (lfsrNew p len seed).Legal p := by
  have h1 : 3 ≤ max 3 (min 32 len) := le_max_left _ _
  have h2 : max 3 (min 32 len) ≤ 32 := max_le (by norm_num) (min_le_left _ _)
  unfold lfsrNew
  generalize max 3 (min 32 len) = n at h1 h2
  dsimp only
  have hp : 2 ^ 3 ≤ 2 ^ n := Nat.pow_le_pow_right (by norm_num) h1
  have hlt : ∀ w : Word32, (w &&& lfsrMask n).toNat < 2 ^ n := fun w => by
    rw [and_lfsrMask h2]; exact Nat.mod_lt _ (by omega)
  have hf : p.fallbackSeed &&& lfsrMask n ≠ 0 := fun h => hl.fallback_ne (by
    have h7 : (7 : Word32) = lfsrMask n &&& 7 := by
      apply BitVec.eq_of_toNat_eq
      rw [BitVec.and_comm, BitVec.toNat_and, lfsrMask_toNat h2, Nat.and_two_pow_sub_one_eq_mod]
      exact (Nat.mod_eq_of_lt (by change 7 < 2 ^ n; omega)).symm
    rw [h7, ← BitVec.and_assoc, h]; simp)
  have hne : (if seed &&& lfsrMask n = 0 then p.fallbackSeed &&& lfsrMask n
      else seed &&& lfsrMask n) ≠ 0 := by
    split
    · exact hf
    · assumption
  have hl : (if seed &&& lfsrMask n = 0 then p.fallbackSeed &&& lfsrMask n
      else seed &&& lfsrMask n).toNat < 2 ^ n := by
    split <;> exact hlt _
  exact ⟨h1, h2, hne, hl, hne, hl, 0, rfl⟩

/-- The output lies in [0, 1] (R264). -/
theorem lfsr_output_unit {l : Lfsr} (h : l.n ≤ 32) : 0 ≤ l.output ∧ l.output ≤ 1 := by
  unfold Lfsr.output
  have hp : (0 : ℚ) < ((2 ^ l.n : ℕ) : ℚ) := by positivity
  refine ⟨by positivity, ?_⟩
  rw [div_le_one hp, and_lfsrMask h]
  exact_mod_cast (Nat.mod_lt _ (by positivity)).le

end Sys2Proof.Laws
end

