-- ==== Sys2Proof/Laws/Channel.lean ====
section
/-! SUPPORT. Channels (`42_channel_control.md`, `43_channel_sample.md`): the profile functions are positive,
and every operation on a channel keeps it legal. -/

namespace Sys2Proof.Laws

open Sys2Proof Sys2Proof.Machine

/-! ## Profiles (R41, R196) -/

theorem shape_pos {m : ℕ} {p : Profile} (hp : p.Legal m) (f : ℚ) : 0 < p.shape f := by
  unfold Profile.shape
  split
  · next h => exact hp.pitchLo_pos.trans_le (quantize_range _ h hp.pitch_range).1
  · exact hp.pitchLo_pos.trans_le (clamp_ge _)

theorem tonePeriodEff_pos {m : ℕ} {p : Profile} (hp : p.Legal m) (f : ℚ) : 0 < p.tonePeriodEff f :=
  one_div_pos.mpr (shape_pos hp _)

theorem noisePeriodOf_pos {m : ℕ} {p : Profile} (hp : p.Legal m) {f : ℚ} (hf : 0 < f) : 0 <
    p.noisePeriodOf f := by
  unfold Profile.noisePeriodOf
  split
  · next h =>
    exact div_pos hp.noisePmult_pos
      ((hp.noisePlo_pos h).trans_le (quantize_range _ h (hp.noise_range h)).1)
  · exact div_pos hp.noisePmult_pos hf

theorem resetLive_legal : resetLive.Legal := by
  constructor <;> norm_num [resetLive, IsUnit01]

theorem defaultTable_length (n : ℕ) : (defaultTable n).length = n := by simp [defaultTable]

theorem defaultTable_bipolar (n : ℕ) : ∀ v ∈ defaultTable n, IsBipolar v := by
  intro v hv
  simp only [defaultTable, List.mem_map] at hv
  obtain ⟨i, -, rfl⟩ := hv
  unfold defaultWave IsBipolar
  split <;> norm_num

theorem clamp_unit (x : ℚ) : IsUnit01 (clamp x 0 1) := ⟨clamp_ge x, clamp_le x (by norm_num)⟩

/-! ## Slots -/

theorem clear_legal {n : ℕ} {lo : ℚ} {sl : EnvSlot} (h : sl.Legal n lo) :
    ({ sl with env := none } : EnvSlot).Legal n lo :=
  ⟨fun e he => (by cases he), h.2, h.3, h.4, h.5⟩

theorem resetEnv_legal {n : ℕ} {lo : ℚ} {sl : EnvSlot} (h : sl.Legal n lo) : sl.resetEnv.Legal n lo := by
  refine ⟨fun e he => ?_, h.2, h.3, h.4, h.5⟩
  simp only [EnvSlot.resetEnv, Option.map_eq_some_iff] at he
  obtain ⟨e0, h0, rfl⟩ := he
  exact reset_legal (h.env_legal e0 h0)

theorem armEnv_legal {n : ℕ} {lo : ℚ} {sl : EnvSlot} (h : sl.Legal n lo) : sl.armEnv.Legal n lo := by
  refine ⟨fun e he => ?_, h.2, h.3, h.4, h.5⟩
  simp only [EnvSlot.armEnv, Option.map_eq_some_iff] at he
  obtain ⟨e0, h0, rfl⟩ := he
  exact arm_legal (h.env_legal e0 h0)

/-- Replacing one slot by a legal one keeps a channel legal. -/
theorem setSlot_legal {par : Config.Params} {x : Channel} (h : x.Legal par) (i : Fin 4) {e : EnvSlot}
    (he : e.Legal par.kMax (slotLow i)) :
    (x.setSlot i e).Legal par := by
  have hs : ∀ j : Fin 4, ((x.setSlot i e).slot j).Legal par.kMax (slotLow j) := by
    intro j
    by_cases hj : j = i
    · subst hj; rw [setSlot_slot_same]; exact he
    · rw [setSlot_slot_other _ _ hj]; exact h.env_legal j
  exact { h with env_legal := hs }

theorem touchSlot_legal {par : Config.Params} {x : Channel} (h : x.Legal par) (i : Fin 4) :
    (x.touchSlot i).Legal par :=
  { h with env_legal := h.env_legal }

/-- Changing the sounding slots by a function that keeps slots legal. -/
theorem onSounding_legal {par : Config.Params} {x : Channel} (h : x.Legal par) {f : EnvSlot → EnvSlot}
    (hf : ∀ lo sl, EnvSlot.Legal par.kMax lo sl → (f sl).Legal par.kMax lo) : (x.onSounding f).Legal par := by
  have hs : ∀ j : Fin 4, ((x.onSounding f).slot j).Legal par.kMax (slotLow j) := by
    intro j
    rw [onSounding_slot]
    split
    · exact hf _ _ (h.env_legal j)
    · exact h.env_legal j
  exact { h with env_legal := hs }

/-! ## Control operations -/

theorem updatePan_legal {par : Config.Params} {x : Channel} (h : x.Legal par) : x.updatePan.Legal par :=
  { h with
    leftMult_unit := clamp_unit _
    rightMult_unit := clamp_unit _
    env_legal := h.env_legal }

theorem channelReset_legal {par : Config.Params} {x : Channel} (h : x.Legal par) : x.reset.Legal par := by
  have h' := onSounding_legal h (f := EnvSlot.resetEnv) fun _ _ => resetEnv_legal
  exact
    { h' with
      toneTime_nonneg := le_rfl
      noiseTime_nonneg := le_rfl
      envTime_nonneg := le_rfl
      lastRefresh_le := fun _ ht => (by cases ht)
      env_legal := h'.env_legal }

theorem setFrequency_legal {par : Config.Params} {x : Channel} (h : x.Legal par) {f : ℚ} (hf : 0 < f)
    (m : ℚ) (rst : Bool) :
    (x.setFrequency f m rst).Legal par := by
  have hp := tonePeriodEff_pos h.active_legal f
  exact
    { h with
      frequency_pos := hf
      tone_period := rfl
      noise_period := rfl
      toneTime_nonneg := by
        change 0 ≤ if _ then (0 : ℚ) else _
        split
        · exact le_rfl
        · exact mul_nonneg (div_nonneg (modQ_nonneg _ h.snapTonePeriod_pos) h.snapTonePeriod_pos.le) hp.le
      snapTonePeriod_pos := hp
      snapNoisePeriod_pos := noisePeriodOf_pos h.active_legal hf
      env_legal := h.env_legal }

/-- Construction from a legal profile (R182). -/
theorem construct_legal {par : Config.Params} (hpar : par.Legal) {x : Channel} (h : x.Legal par) {p : Profile}
    (hp : p.Legal par.wtMax) : (x.construct par p).Legal par := by
  have hb : IsBipolar (0 : ℚ) := by norm_num [IsBipolar]
  have hu : IsUnit01 (1 : ℚ) := by norm_num [IsUnit01]
  have hs : ∀ j : Fin 4, ((x.construct par p).slot j).Legal par.kMax (slotLow j) := by
    intro j
    have : (x.construct par p).slot j = { x.slot j with env := none } := by
      simp [Channel.slot, Channel.construct, Channel.updatePan]
    rw [this]
    exact clear_legal (h.env_legal j)
  exact
    { active_legal := hp
      live_legal := resetLive_legal
      noise_kind := fun hn => by cases hn
      volume_unit := hu
      pan_bipolar := hb
      frequency_pos := by change (0 : ℚ) < 440; norm_num
      tone_period := rfl
      noise_period := rfl
      toneTime_nonneg := le_rfl
      noiseTime_nonneg := le_rfl
      envTime_nonneg := le_rfl
      lastRefresh_le := fun t ht => by cases ht
      snapVol_nonneg := le_rfl
      snapVol_le := hp.volGain_nonneg
      snapTonePeriod_pos := tonePeriodEff_pos hp _
      snapNoisePeriod_pos := noisePeriodOf_pos hp (by norm_num)
      leftMult_unit := clamp_unit _
      rightMult_unit := clamp_unit _
      out_bipolar := hb
      wavePrev_bipolar := fun w hw => by cases hw
      noiseHeld_bipolar := hb
      wt_length := defaultTable_length _
      wt_bipolar := defaultTable_bipolar _
      wts_wf := h.wts_wf
      lfsr_legal := lfsrNew_legal hpar _ _
      env_legal := hs }

/-! ## The synthesizer, step by step -/

theorem decayOut_legal {par : Config.Params} {x : Channel} (h : x.Legal par) : x.decayOut.Legal par := by
  have ha := h.active_legal.volAttn_unit
  exact
    { h with
      out_bipolar := by
        change -1 ≤ x.out * (1 - x.active.volAttn) ∧ x.out * (1 - x.active.volAttn) ≤ 1
        constructor <;> nlinarith [h.out_bipolar.1, h.out_bipolar.2, ha.1, ha.2]
      env_legal := h.env_legal }

theorem stoppedFrame_legal {par : Config.Params} {x : Channel} (h : x.Legal par) : x.stoppedFrame.Legal par :=
  { h with env_legal := h.env_legal }

/-- The volume multiplier lies between 0 and the gain (R224). -/
theorem volumeOf_range {m : ℕ} {x : Channel} (h : x.active.Legal m) (ve : ℚ) :
    0 ≤ x.volumeOf ve ∧ x.volumeOf ve ≤ x.active.volGain := by
  unfold Channel.volumeOf
  dsimp only
  have hq := quantize_mem x.active.volSteps
    (clamp_ge (lo := 0) (hi := 1) (x.volume * ve +
      modulator x.live.tremAmp x.live.tremFreq x.live.tremSteps x.envTime))
    (clamp_le _ (by norm_num))
  have h0 := pow_nonneg' hq.1 hq.2 h.volExp_pos
  have h1 := pow_le_one' hq.1 hq.2 h.volExp_pos
  have hg := h.volGain_nonneg
  constructor <;> nlinarith

theorem deflected_pos {x : Channel} (h : 0 < x.frequency) (pe : ℚ) : 0 < x.deflected pe :=
  mul_pos h (exp2_pos _)

theorem refreshVolume_legal {par : Config.Params} {x : Channel} (h : x.Legal par) (c : ℕ) :
    (x.refreshVolume par c).Legal par := by
  have hs := setSlot_legal h 0 (query_legal (h.env_legal 0) par.envEps c 0 1 x.envTime)
  have hv := volumeOf_range h.active_legal ((x.slot 0).query par.envEps c 0 1 x.envTime).1
  exact { hs with snapVol_nonneg := hv.1, snapVol_le := hv.2, env_legal := hs.env_legal }

theorem refreshPitch_legal {par : Config.Params} {x : Channel} (h : x.Legal par) (c : ℕ) :
    (x.refreshPitch par c).Legal par := by
  have hs := setSlot_legal h 1 (query_legal (h.env_legal 1) par.envEps c 1 0 x.envTime)
  exact
    { hs with
      snapTonePeriod_pos := tonePeriodEff_pos h.active_legal _
      snapNoisePeriod_pos := noisePeriodOf_pos h.active_legal (deflected_pos h.frequency_pos _)
      env_legal := hs.env_legal }

theorem refresh_legal {par : Config.Params} {x : Channel} (h : x.Legal par) (c : ℕ) :
    (x.refresh par c).Legal par := by
  unfold Channel.refresh
  split
  · have h' := refreshPitch_legal (refreshVolume_legal h c) c
    exact
      { h' with
        lastRefresh_le := fun t ht => by cases ht; exact ⟨h.envTime_nonneg, le_rfl⟩
        env_legal := h'.env_legal }
  · exact h

theorem waveSample_bipolar {par : Config.Params} {x : Channel} (h : x.Legal par) : IsBipolar
    x.waveSample := by
  unfold Channel.waveSample
  have hb : IsBipolar (x.wt.getD x.tableIndex 0) := by
    rw [List.getD]
    cases hg : x.wt[x.tableIndex]? with
    | none => norm_num [IsBipolar]
    | some v => exact h.wt_bipolar v (List.mem_of_getElem? hg)
  exact quantize_mem _ hb.1 hb.2

theorem lookup_legal {par : Config.Params} {x : Channel} (h : x.Legal par) : x.lookup.Legal par := by
  have hb := waveSample_bipolar h
  unfold Channel.lookup
  split
  · exact h
  · exact
      { h with
        out_bipolar := hb
        wavePrev_bipolar := fun w hw => by cases hw; exact hb
        env_legal := h.env_legal }

theorem stepRandom_legal {par : Config.Params} (hp : par.Legal) {x : Channel} (h : x.Legal par) :
    (x.stepRandom par).Legal par := by
  unfold Channel.stepRandom
  split
  · have ho := lfsr_output_unit (l := x.lfsr.step par) h.lfsr_legal.n_le
    exact
      { h with
        noiseTime_nonneg := modQ_nonneg _ h.snapNoisePeriod_pos
        noiseHeld_bipolar := quantize_mem _ (by linarith [ho.1]) (by linarith [ho.2])
        lfsr_legal := lfsr_step_legal hp h.lfsr_legal
        env_legal := h.env_legal }
  · exact h

theorem noise_legal {par : Config.Params} (hp : par.Legal) {x : Channel} (h : x.Legal par) :
    (x.noise par).2.Legal par := by
  unfold Channel.noise
  split
  · exact h
  · exact stepRandom_legal hp h
  · exact h

theorem mix_legal {par : Config.Params} {x : Channel} (h : x.Legal par) (c : ℕ) (nz : ℚ) :
    (x.mix par c nz).2.Legal par := by
  unfold Channel.mix
  split
  · exact setSlot_legal h 2 (query_legal (h.env_legal 2) par.envEps c 2 1 x.envTime)
  · exact h

theorem advance_legal {par : Config.Params} {x : Channel} (h : x.Legal par) {d : ℚ} (hd : 0 ≤ d) :
    (x.advance d).Legal par :=
  { h with
    toneTime_nonneg := add_nonneg h.toneTime_nonneg hd
    noiseTime_nonneg := add_nonneg h.noiseTime_nonneg hd
    envTime_nonneg := add_nonneg h.envTime_nonneg hd
    lastRefresh_le := fun t ht => ⟨(h.lastRefresh_le t ht).1,
      (h.lastRefresh_le t ht).2.trans (le_add_of_nonneg_right hd)⟩
    env_legal := h.env_legal }

theorem frame_legal {par : Config.Params} {x : Channel} (h : x.Legal par) (v : ℚ) : (x.frame v).Legal par :=
  { h with env_legal := h.env_legal }

/-- A sample keeps a channel legal (R220). -/
theorem sample_legal {par : Config.Params} (hp : par.Legal) {x : Channel} (h : x.Legal par) (c : ℕ)
    {d : ℚ} (hd : 0 ≤ d) : (x.sample par c d).Legal par := by
  unfold Channel.sample
  split
  · exact frame_legal (advance_legal (mix_legal (noise_legal hp (lookup_legal (refresh_legal (decayOut_legal h) c)))
      c _) hd) _
  · exact stoppedFrame_legal (decayOut_legal h)

end Sys2Proof.Laws
end

