-- ==== Sys2Proof/Laws/Decode.lean ====
section
/-! SUPPORT. The fields of a word that was put together from fields (`30_encoding.md` R91), and what a word
that decodes looks like. -/

namespace Sys2Proof.Laws

open Sys2Proof

@[simp] theorem fieldOp_word (op ch : BitVec 8) (idx : BitVec 16) (imm : Word32) :
    fieldOp (word op ch idx imm) = op := by
  ext i hi
  simp only [fieldOp, word, BitVec.getElem_extractLsb', BitVec.getLsbD_append]
  rw [if_neg (by omega), if_neg (by omega), if_neg (by omega), ← BitVec.getLsbD_eq_getElem]
  congr 1; omega

@[simp] theorem fieldCh_word (op ch : BitVec 8) (idx : BitVec 16) (imm : Word32) :
    fieldCh (word op ch idx imm) = ch := by
  ext i hi
  simp only [fieldCh, word, BitVec.getElem_extractLsb', BitVec.getLsbD_append]
  rw [if_neg (by omega), if_neg (by omega), if_pos (by omega), ← BitVec.getLsbD_eq_getElem]
  congr 1; omega

@[simp] theorem fieldIdx_word (op ch : BitVec 8) (idx : BitVec 16) (imm : Word32) :
    fieldIdx (word op ch idx imm) = idx := by
  ext i hi
  simp only [fieldIdx, word, BitVec.getElem_extractLsb', BitVec.getLsbD_append]
  rw [if_neg (by omega), if_pos (by omega), ← BitVec.getLsbD_eq_getElem]
  congr 1; omega

@[simp] theorem fieldImm_word (op ch : BitVec 8) (idx : BitVec 16) (imm : Word32) :
    fieldImm (word op ch idx imm) = imm := by
  ext i hi
  simp only [fieldImm, word, BitVec.getElem_extractLsb', BitVec.getLsbD_append]
  rw [if_pos (by omega), ← BitVec.getLsbD_eq_getElem]
  congr 1; omega

/-- The slot is the upper four bits of `idx`. -/
theorem fieldSlot_eq (w : Word64) : fieldSlot w = (fieldIdx w).extractLsb' 12 4 := by
  ext i hi
  simp [fieldSlot, fieldIdx, show 12 + i < 16 by omega,
    show 32 + (12 + i) = 44 + i by omega]

/-- The knot index is the lower twelve bits of `idx`. -/
theorem fieldK_eq (w : Word64) : fieldK w = (fieldIdx w).extractLsb' 0 12 := by
  ext i hi
  simp [fieldK, fieldIdx, show i < 16 by omega]

/-- The force-reset flag is bit 0 of `idx`. -/
theorem fieldRst_eq (w : Word64) : fieldRst w = (fieldIdx w).getLsbD 0 := by
  simp [fieldRst, fieldIdx]

@[simp] theorem slot_append (slot : BitVec 4) (k : BitVec 12) : (slot ++ k).extractLsb' 12 4 = slot := by
  ext i hi
  simp only [BitVec.getElem_extractLsb', BitVec.getLsbD_append]
  rw [if_neg (by omega), ← BitVec.getLsbD_eq_getElem]
  congr 1; omega

@[simp] theorem k_append (slot : BitVec 4) (k : BitVec 12) : (slot ++ k).extractLsb' 0 12 = k := by
  ext i hi
  simp only [BitVec.getElem_extractLsb', BitVec.getLsbD_append]
  rw [if_pos (by omega), ← BitVec.getLsbD_eq_getElem]
  congr 1; omega

/-- A word is its four fields. -/
theorem word_fields (w : Word64) : word (fieldOp w) (fieldCh w) (fieldIdx w) (fieldImm w) = w := by
  ext i hi
  simp only [word, ← BitVec.getLsbD_eq_getElem, BitVec.getLsbD_append, fieldOp, fieldCh, fieldIdx, fieldImm,
    BitVec.getLsbD_extractLsb']
  split
  · next h => simp [h]
  · split
    · next h1 h2 => simp [h2, show 32 + (i - 32) = i by omega]
    · split
      · next h1 h2 h3 => simp [h3, show 48 + (i - 32 - 16) = i by omega]
      · next h1 h2 h3 =>
        simp [show i - 32 - 16 - 8 < 8 by omega, show 56 + (i - 32 - 16 - 8) = i by omega]

/-- `idx` is its slot and its knot index. -/
theorem slot_k_fields (v : BitVec 16) : v.extractLsb' 12 4 ++ v.extractLsb' 0 12 = v := by
  ext i hi
  simp only [← BitVec.getLsbD_eq_getElem, BitVec.getLsbD_append, BitVec.getLsbD_extractLsb']
  split
  · next h => simp [h]
  · next h => simp [show i - 12 < 4 by omega, show 12 + (i - 12) = i by omega]

/-- What `accept` answers when it accepts: its condition held. -/
theorem accept_ok {w : Word64} {b : Bool} {i j : Instr} (h : accept w b i = .ok j) : b = true ∧ i = j := by
  unfold accept at h
  split at h
  · next hb => cases h; exact ⟨hb, rfl⟩
  · cases h

@[simp] theorem accept_true (w : Word64) (i : Instr) : accept w true i = .ok i := rfl

@[simp] theorem loopKindOf_bits (k : LoopKind) : loopKindOf (loopKindBits k) = k := by cases k <;> rfl

@[simp] theorem loopKindBits_of (v : BitVec 2) : loopKindBits (loopKindOf v) = v := by
  revert v; decide

@[simp] theorem interpOf_bit (i : Interp) : interpOf (interpBit i) = i := by cases i <;> rfl

@[simp] theorem interpBit_of (b : Bool) : interpBit (interpOf b) = b := by cases b <;> rfl

/-- No word is a command of two rows of the opcode table (R98). -/
theorem opcodeTable_disjoint : opcodeTable.Pairwise fun a b =>
    a.pattern &&& (a.mask &&& b.mask) ≠ b.pattern &&& (a.mask &&& b.mask) := by
  decide +kernel

end Sys2Proof.Laws
end

