-- ==== Sys2Proof/Laws/PerInstr.lean ====
section
/-! SUPPORT. A family of laws with one lemma for each command: the word the encoder writes carries the
pattern of a row of the opcode table under the row's mask (`30_encoding.md` R92, R97, R98). -/

namespace Sys2Proof.Laws

open Sys2Proof

/-- The word of the command matches a row of the opcode table. -/
def TableMask.Statement (i : Instr) : Prop := ∃ r ∈ opcodeTable, encode i &&& r.mask = r.pattern

/-- Masking a word masks its fields (R91). -/
theorem word_and (op ch op' ch' : BitVec 8) (idx idx' : BitVec 16) (imm imm' : Word32) :
    word op ch idx imm &&& word op' ch' idx' imm' =
      word (op &&& op') (ch &&& ch') (idx &&& idx') (imm &&& imm') := by
  rw [word, word, BitVec.and_append, BitVec.and_append, BitVec.and_append]; rfl

/-- The slot survives no mask of the knot index bits. -/
theorem slot_mask (slot : BitVec 4) : (slot ++ 0#12) &&& 0x0FFF#16 = 0#16 := by
  rw [show (0x0FFF#16 : BitVec 16) = 0#4 ++ 0xFFF#12 by decide, BitVec.and_append]
  simp

/-- The must-be-zero bits of a loopword are zero (R94). -/
theorem loopword_mask (kind : LoopKind) (loopIn loopOut : BitVec 12) :
    loopword kind loopIn loopOut &&& 0xF000000C#32 = 0#32 := by
  rw [show (0xF000000C#32 : BitVec 32) = 0xF#4 ++ 0#12 ++ 0#12 ++ 3#2 ++ 0#2 by decide]
  rw [loopword, BitVec.and_append, BitVec.and_append, BitVec.and_append, BitVec.and_append]
  simp

/-- A row of the table, by its number, with its mask in fields. -/
theorem TableMask.Statement.of_row {i : Instr} (n : ℕ) {r : OpcodeRow} (h : opcodeTable[n]? = some r)
    (op ch : BitVec 8) (idx : BitVec 16) (imm : Word32) (hm : r.mask = word op ch idx imm)
    (h' : encode i &&& word op ch idx imm = r.pattern) : TableMask.Statement i :=
  ⟨r, List.mem_of_getElem? h, hm ▸ h'⟩

theorem TableMask.nop : TableMask.Statement (.nop) :=
  .of_row 0 rfl 0xFF 0xFF 0xFFFF 0xFFFFFFFF rfl (by (simp [encode, word_and]; rfl))

theorem TableMask.rreg (ch : BitVec 8) (idx : BitVec 16) : TableMask.Statement (.rreg ch idx) :=
  .of_row 1 rfl 0xFF 0x00 0x0000 0xFFFFFFFF rfl (by (simp [encode, word_and]; rfl))

theorem TableMask.wreg (ch : BitVec 8) (idx : BitVec 16) (imm : Word32) :
    TableMask.Statement (.wreg ch idx imm) :=
  .of_row 2 rfl 0xFF 0x00 0x0000 0x00000000 rfl (by (simp [encode, word_and]; rfl))

theorem TableMask.rglb (idx : BitVec 16) : TableMask.Statement (.rglb idx) :=
  .of_row 3 rfl 0xFF 0xFF 0x0000 0xFFFFFFFF rfl (by (simp [encode, word_and]; rfl))

theorem TableMask.wglb (idx : BitVec 16) (imm : Word32) : TableMask.Statement (.wglb idx imm) :=
  .of_row 4 rfl 0xFF 0xFF 0x0000 0x00000000 rfl (by (simp [encode, word_and]; rfl))

theorem TableMask.tick : TableMask.Statement (.tick) :=
  .of_row 5 rfl 0xFF 0xFF 0xFFFF 0xFFFFFFFF rfl (by (simp [encode, word_and]; rfl))

theorem TableMask.iter (imm : Word32) : TableMask.Statement (.iter imm) :=
  .of_row 6 rfl 0xFF 0xFF 0xFFFF 0x00000000 rfl (by (simp [encode, word_and]; rfl))

theorem TableMask.chInit (ch : BitVec 8) : TableMask.Statement (.chInit ch) :=
  .of_row 7 rfl 0xFF 0x00 0xFFFF 0xFFFFFFFF rfl (by (simp [encode, word_and]; rfl))

theorem TableMask.play (ch : BitVec 8) : TableMask.Statement (.play ch) :=
  .of_row 8 rfl 0xFF 0x00 0xFFFF 0xFFFFFFFF rfl (by (simp [encode, word_and]; rfl))

theorem TableMask.stop (ch : BitVec 8) : TableMask.Statement (.stop ch) :=
  .of_row 9 rfl 0xFF 0x00 0xFFFF 0xFFFFFFFF rfl (by (simp [encode, word_and]; rfl))

theorem TableMask.release (ch : BitVec 8) : TableMask.Statement (.release ch) :=
  .of_row 10 rfl 0xFF 0x00 0xFFFF 0xFFFFFFFF rfl (by (simp [encode, word_and]; rfl))

theorem TableMask.reset (ch : BitVec 8) : TableMask.Statement (.reset ch) :=
  .of_row 11 rfl 0xFF 0x00 0xFFFF 0xFFFFFFFF rfl (by (simp [encode, word_and]; rfl))

theorem TableMask.setNote (ch : BitVec 8) (rst : Bool) (octave note : BitVec 16) :
    TableMask.Statement (.setNote ch rst octave note) :=
  .of_row 12 rfl 0xFF 0x00 0xFFFE 0x00000000 rfl (by cases rst <;> (simp [encode, word_and, rstIdx]; rfl))

theorem TableMask.setMidi (ch : BitVec 8) (rst : Bool) (imm : Word32) :
    TableMask.Statement (.setMidi ch rst imm) :=
  .of_row 13 rfl 0xFF 0x00 0xFFFE 0x00000000 rfl (by cases rst <;> (simp [encode, word_and, rstIdx]; rfl))

theorem TableMask.setPitch (ch : BitVec 8) (rst : Bool) (imm : Word32) :
    TableMask.Statement (.setPitch ch rst imm) :=
  .of_row 14 rfl 0xFF 0x00 0xFFFE 0x00000000 rfl (by cases rst <;> (simp [encode, word_and, rstIdx]; rfl))

theorem TableMask.setVol (ch : BitVec 8) (imm : Word32) : TableMask.Statement (.setVol ch imm) :=
  .of_row 15 rfl 0xFF 0x00 0xFFFF 0x00000000 rfl (by (simp [encode, word_and]; rfl))

theorem TableMask.setPan (ch : BitVec 8) (imm : Word32) : TableMask.Statement (.setPan ch imm) :=
  .of_row 16 rfl 0xFF 0x00 0xFFFF 0x00000000 rfl (by (simp [encode, word_and]; rfl))

theorem TableMask.setNoise (ch : BitVec 8) (on : Bool) : TableMask.Statement (.setNoise ch on) :=
  .of_row 17 rfl 0xFF 0x00 0xFFFF 0xFFFFFFFE rfl (by cases on <;> (simp [encode, word_and, boolImm]; rfl))

theorem TableMask.isNoise (ch : BitVec 8) : TableMask.Statement (.isNoise ch) :=
  .of_row 18 rfl 0xFF 0x00 0xFFFF 0xFFFFFFFF rfl (by (simp [encode, word_and]; rfl))

theorem TableMask.csample (ch : BitVec 8) (imm : Word32) : TableMask.Statement (.csample ch imm) :=
  .of_row 19 rfl 0xFF 0x00 0xFFFF 0x00000000 rfl (by (simp [encode, word_and]; rfl))

theorem TableMask.wtStage (ch : BitVec 8) (idx : BitVec 16) (imm : Word32) :
    TableMask.Statement (.wtStage ch idx imm) :=
  .of_row 20 rfl 0xFF 0x00 0x0000 0x00000000 rfl (by (simp [encode, word_and]; rfl))

theorem TableMask.wtCommit (ch : BitVec 8) (imm : Word32) : TableMask.Statement (.wtCommit ch imm) :=
  .of_row 21 rfl 0xFF 0x00 0xFFFF 0x00000000 rfl (by (simp [encode, word_and]; rfl))

theorem TableMask.wtFromEnv (ch : BitVec 8) : TableMask.Statement (.wtFromEnv ch) :=
  .of_row 22 rfl 0xFF 0x00 0xFFFF 0xFFFFFFFF rfl (by (simp [encode, word_and]; rfl))

theorem TableMask.envKnotT (ch : BitVec 8) (slot : BitVec 4) (k : BitVec 12) (imm : Word32) :
    TableMask.Statement (.envKnotT ch slot k imm) :=
  .of_row 23 rfl 0xFF 0x00 0x0000 0x00000000 rfl (by (simp [encode, word_and, wordCS]; rfl))

theorem TableMask.envKnotV (ch : BitVec 8) (slot : BitVec 4) (k : BitVec 12) (imm : Word32) :
    TableMask.Statement (.envKnotV ch slot k imm) :=
  .of_row 24 rfl 0xFF 0x00 0x0000 0x00000000 rfl (by (simp [encode, word_and, wordCS]; rfl))

theorem TableMask.envKnotI (ch : BitVec 8) (slot : BitVec 4) (k : BitVec 12) (interp : Interp) :
    TableMask.Statement (.envKnotI ch slot k interp) :=
  .of_row 25 rfl 0xFF 0x00 0x0000 0xFFFFFFFE rfl (by cases interp <;> (simp [encode, word_and, wordCS, boolImm, interpBit]; rfl))

theorem TableMask.envLoop (ch : BitVec 8) (slot : BitVec 4) (kind : LoopKind) (loopIn loopOut : BitVec 12) :
    TableMask.Statement (.envLoop ch slot kind loopIn loopOut) :=
  .of_row 26 rfl 0xFF 0x00 0x0FFF 0xF000000C rfl (by (simp [encode, word_and, wordCS, slot_mask, loopword_mask]; rfl))

theorem TableMask.envDecay (ch : BitVec 8) (slot : BitVec 4) (imm : Word32) :
    TableMask.Statement (.envDecay ch slot imm) :=
  .of_row 27 rfl 0xFF 0x00 0x0FFF 0x00000000 rfl (by (simp [encode, word_and, wordCS, slot_mask]; rfl))

theorem TableMask.envBuild (ch : BitVec 8) (slot : BitVec 4) (imm : Word32) :
    TableMask.Statement (.envBuild ch slot imm) :=
  .of_row 28 rfl 0xFF 0x00 0x0FFF 0x00000000 rfl (by (simp [encode, word_and, wordCS, slot_mask]; rfl))

theorem TableMask.envClear (ch : BitVec 8) (slot : BitVec 4) : TableMask.Statement (.envClear ch slot) :=
  .of_row 29 rfl 0xFF 0x00 0x0FFF 0xFFFFFFFF rfl (by (simp [encode, word_and, wordCS, slot_mask]; rfl))

theorem TableMask.envReset (ch : BitVec 8) (slot : BitVec 4) : TableMask.Statement (.envReset ch slot) :=
  .of_row 30 rfl 0xFF 0x00 0x0FFF 0xFFFFFFFF rfl (by (simp [encode, word_and, wordCS, slot_mask]; rfl))

theorem TableMask.envRelease (ch : BitVec 8) (slot : BitVec 4) :
    TableMask.Statement (.envRelease ch slot) :=
  .of_row 31 rfl 0xFF 0x00 0x0FFF 0xFFFFFFFF rfl (by (simp [encode, word_and, wordCS, slot_mask]; rfl))

theorem TableMask.envPeek (ch : BitVec 8) (slot : BitVec 4) (imm : Word32) :
    TableMask.Statement (.envPeek ch slot imm) :=
  .of_row 32 rfl 0xFF 0x00 0x0FFF 0x00000000 rfl (by (simp [encode, word_and, wordCS, slot_mask]; rfl))

theorem TableMask.lfsrInit (ch : BitVec 8) (idx : BitVec 16) (imm : Word32) :
    TableMask.Statement (.lfsrInit ch idx imm) :=
  .of_row 33 rfl 0xFF 0x00 0x0000 0x00000000 rfl (by (simp [encode, word_and]; rfl))

theorem TableMask.lfsrStep (ch : BitVec 8) : TableMask.Statement (.lfsrStep ch) :=
  .of_row 34 rfl 0xFF 0x00 0xFFFF 0xFFFFFFFF rfl (by (simp [encode, word_and]; rfl))

theorem TableMask.lfsrOut (ch : BitVec 8) : TableMask.Statement (.lfsrOut ch) :=
  .of_row 35 rfl 0xFF 0x00 0xFFFF 0xFFFFFFFF rfl (by (simp [encode, word_and]; rfl))

end Sys2Proof.Laws
end

