-- ==== Sys2Proof/Laws/Step.lean ====
section
/-! SUPPORT. One step of the chip (`00_scope.md` R7) and the serial form of a word (`20_memory.md` R72). -/

namespace Sys2Proof.Laws

open Sys2Proof Sys2Proof.Machine

/-- All a step can do: it idles, or it takes the oldest word and runs it. -/
theorem step_cases (s : State) :
    (s.inbox = [] ∧ step s = .next s) ∨
      ∃ w rest, s.inbox = w :: rest ∧ step s = runWord exec w { s with inbox := rest } := by
  cases h : s.inbox with
  | nil => exact .inl ⟨rfl, by simp [step, step_of_nil h]⟩
  | cons w rest => exact .inr ⟨w, rest, rfl, by simp [step, fetch_of_cons h]⟩

/-- A step from a state with a word placed runs that word on the state itself (log 1). -/
theorem step_withFetchWord (s : State) (nbits w : ℕ) :
    step (s.withFetchWord nbits w) = runWord exec (wordOfBits nbits w) s := by
  simp [step, State.withFetchWord, fetch_present]

/-- Reading the bytes of a word gives the word back, most significant byte first (R72). -/
theorem wordOfBytes_wordBytes (w : Word64) : wordOfBytes (wordBytes w) = some w := by
  simp only [wordBytes, wordOfBytes, Option.some.injEq]
  ext i hi
  simp only [← BitVec.getLsbD_eq_getElem, BitVec.getLsbD_append, BitVec.getLsbD_extractLsb']
  split_ifs <;> (rw [decide_eq_true (by omega), Bool.true_and]; congr 1; omega)

end Sys2Proof.Laws
end

