-- ==== Sys2Proof/Laws/Taps.lean ====
section
/-! SUPPORT. The default parameters of `00_scope.md` R9 are legal. What needs proof is the period of each
default tap (`44_noise_lfsr.md` R263): the step of a generator of `n` bits is linear over exclusive-or, and
the register with the top bit alone generates all words, so a word `a` stands for the polynomial in the step
that makes `a` from it. `act` is the product of two such polynomials. -/

namespace Sys2Proof.Laws

open Sys2Proof Sys2Proof.Machine

namespace Tap

/-- `lfsr_next` on naturals, for the tap `t`. -/
def next (t w : ℕ) : ℕ := (w >>> 1) ^^^ (w % 2 * t)

/-- The polynomial of the lowest `i` bits of the word `a` applied to `b`, bit `0` deepest. -/
def act (t a b : ℕ) : ℕ → ℕ
  | 0 => 0
  | i + 1 => next t (act t a b i) ^^^ ((a >>> i) % 2 * b)

/-! ## Linearity -/

theorem bit_xor (a b t : ℕ) : (a ^^^ b) % 2 * t = (a % 2 * t) ^^^ (b % 2 * t) := by
  have : (a ^^^ b) % 2 = (a % 2) ^^^ (b % 2) := by
    simpa using Nat.xor_mod_two_pow (a := a) (b := b) (n := 1)
  rw [this]
  rcases Nat.mod_two_eq_zero_or_one a with h | h <;> rcases Nat.mod_two_eq_zero_or_one b with h' | h' <;>
    simp [h, h']

theorem next_xor (t a b : ℕ) : next t (a ^^^ b) = next t a ^^^ next t b := by
  simp only [next, bit_xor, Nat.shiftRight_xor_distrib]
  simp only [Nat.xor_assoc, Nat.xor_left_comm, Nat.xor_comm]

theorem next_zero (t : ℕ) : next t 0 = 0 := by simp [next]

/-- A map that respects exclusive-or and commutes with the step. -/
structure Linear (t : ℕ) (L : ℕ → ℕ) : Prop where
  zero : L 0 = 0
  xor : ∀ a b, L (a ^^^ b) = L a ^^^ L b
  next : ∀ a, L (next t a) = Tap.next t (L a)

theorem Linear.bit {t : ℕ} {L : ℕ → ℕ} (h : Linear t L) (c b : ℕ) : L (c % 2 * b) = c % 2 * L b := by
  rcases Nat.mod_two_eq_zero_or_one c with hc | hc <;> simp [hc, h.zero]

/-- A linear map passes through the polynomial of a word. -/
theorem Linear.act {t : ℕ} {L : ℕ → ℕ} (h : Linear t L) (a b i : ℕ) : L (act t a b i) = act t a (L b) i := by
  induction i with
  | zero => exact h.zero
  | succ i ih => simp only [Tap.act, h.xor, h.next, ih, h.bit]

theorem linear_next (t : ℕ) : Linear t (next t) := ⟨next_zero t, next_xor t, fun _ => rfl⟩

theorem linear_iterate (t k : ℕ) : Linear t (next t)^[k] := by
  induction k with
  | zero => exact ⟨rfl, fun _ _ => rfl, fun _ => rfl⟩
  | succ k ih =>
    refine ⟨?_, fun a b => ?_, fun a => ?_⟩ <;>
      simp only [Function.iterate_succ_apply', ih.zero, ih.xor, ih.next, next_zero, next_xor]

theorem bit_mul_xor (c a b : ℕ) : c % 2 * (a ^^^ b) = (c % 2 * a) ^^^ (c % 2 * b) := by
  rcases Nat.mod_two_eq_zero_or_one c with hc | hc <;> simp [hc]

theorem act_xor_right (t a b c i : ℕ) : act t a (b ^^^ c) i = act t a b i ^^^ act t a c i := by
  induction i with
  | zero => simp [act]
  | succ i ih =>
    simp only [act, ih, next_xor, bit_mul_xor]
    simp only [Nat.xor_assoc, Nat.xor_left_comm, Nat.xor_comm]

theorem act_zero_right (t a i : ℕ) : act t a 0 i = 0 := by
  induction i with
  | zero => rfl
  | succ i ih => simp [act, ih, next_zero]

theorem linear_act (t a i : ℕ) : Linear t fun b => act t a b i :=
  ⟨act_zero_right t a i, fun b c => act_xor_right t a b c i, fun b => ((linear_next t).act a b i).symm⟩

/-! ## The register with the top bit alone -/

/-- The lowest `i` bits of `a` applied to the top bit: those bits, at the top of the register. -/
theorem act_top_bits (t a n : ℕ) (i : ℕ) (hi : i ≤ n) :
    act t a (2 ^ (n - 1)) i = a % 2 ^ i * 2 ^ (n - i) := by
  induction i with
  | zero => simp [act, Nat.mod_one]
  | succ i ih =>
    obtain ⟨m, rfl⟩ : ∃ m, n = m + i + 1 := ⟨n - i - 1, by omega⟩
    have h1 : m + i + 1 - i = m + 1 := by omega
    have h2 : m + i + 1 - (i + 1) = m := by omega
    have h3 : m + i + 1 - 1 = i + m := by omega
    rw [act, ih (by omega), h1, h2, h3]
    have hlt : a % 2 ^ i * 2 ^ m < 2 ^ (i + m) := by
      rw [pow_add]; exact Nat.mul_lt_mul_of_pos_right (Nat.mod_lt _ (by positivity)) (by positivity)
    have hn : next t (a % 2 ^ i * 2 ^ (m + 1)) = a % 2 ^ i * 2 ^ m := by
      rw [pow_succ, ← mul_assoc]
      simp [next, Nat.shiftRight_eq_div_pow]
    rw [hn, Nat.shiftRight_eq_div_pow, pow_succ, Nat.mod_mul]
    rcases Nat.mod_two_eq_zero_or_one (a / 2 ^ i) with h | h
    · simp [h]
    · rw [h, one_mul, mul_one, add_mul, ← pow_add, Nat.xor_comm]
      have := Nat.two_pow_add_eq_or_of_lt hlt 1
      rw [mul_one] at this
      rw [add_comm (a % 2 ^ i * 2 ^ m), this]
      apply Nat.eq_of_testBit_eq
      intro j
      simp only [Nat.testBit_xor, Nat.testBit_or, Nat.testBit_two_pow]
      by_cases hj : i + m = j
      · subst hj; simp [Nat.testBit_lt_two_pow hlt]
      · simp [hj]

/-- Every word is its polynomial applied to the top bit. -/
theorem act_top {t a n : ℕ} (h : a < 2 ^ n) : act t a (2 ^ (n - 1)) n = a := by
  rw [act_top_bits t a n n le_rfl]; simp [Nat.mod_eq_of_lt h]

theorem act_comm {t n a b : ℕ} (ha : a < 2 ^ n) (hb : b < 2 ^ n) : act t a b n = act t b a n := by
  have h := (linear_act t a n).act b (2 ^ (n - 1)) n
  simp only [act_top hb, act_top ha] at h
  exact h

theorem top_lt (n : ℕ) (hn : 0 < n) : 2 ^ (n - 1) < 2 ^ n := Nat.pow_lt_pow_right (by norm_num) (by omega)

theorem act_one {t n b : ℕ} (hn : 0 < n) (hb : b < 2 ^ n) : act t (2 ^ (n - 1)) b n = b := by
  rw [act_comm (top_lt n hn) hb, act_top hb]

theorem next_lt {t n w : ℕ} (ht : t < 2 ^ n) (hw : w < 2 ^ n) : next t w < 2 ^ n := by
  have h1 : w >>> 1 < 2 ^ n := by rw [Nat.shiftRight_eq_div_pow]; omega
  rcases Nat.mod_two_eq_zero_or_one w with h | h <;> simp only [next, h, zero_mul, one_mul, Nat.xor_zero]
  · exact h1
  · exact Nat.xor_lt_two_pow h1 ht

theorem act_lt {t n : ℕ} (ht : t < 2 ^ n) (a : ℕ) {b : ℕ} (hb : b < 2 ^ n) (i : ℕ) : act t a b i < 2 ^ n := by
  induction i with
  | zero => exact Nat.two_pow_pos n
  | succ i ih =>
    refine Nat.xor_lt_two_pow (next_lt ht ih) ?_
    rcases Nat.mod_two_eq_zero_or_one (a >>> i) with h | h <;> simp [h, hb]

theorem act_assoc {t n a b c : ℕ} (ht : t < 2 ^ n) (hb : b < 2 ^ n) (hc : c < 2 ^ n) :
    act t (act t a b n) c n = act t a (act t b c n) n := by
  rw [act_comm (act_lt ht a hb n) hc, act_comm hb hc]
  exact ((linear_act t a n).act c b n).symm

theorem iterate_lt {t n w : ℕ} (ht : t < 2 ^ n) (hw : w < 2 ^ n) (k : ℕ) : (next t)^[k] w < 2 ^ n := by
  induction k with
  | zero => exact hw
  | succ k ih => rw [Function.iterate_succ_apply']; exact next_lt ht ih

/-- `k` steps of a word are the product with the top bit stepped `k` times. -/
theorem iterate_eq_act {t n w : ℕ} (hn : 0 < n) (ht : t < 2 ^ n) (hw : w < 2 ^ n) (k : ℕ) :
    (next t)^[k] w = act t ((next t)^[k] (2 ^ (n - 1))) w n := by
  have h := (linear_iterate t k).act w (2 ^ (n - 1)) n
  rw [act_top hw] at h
  rw [h, act_comm hw (iterate_lt ht (top_lt n hn) k)]

/-! ## What a check of one length shows -/

/-- `f n`, with `n` evaluated first. -/
def force {α : Type} (n : ℕ) (f : ℕ → α) : α := Nat.rec (f 0) (fun k _ => f (k + 1)) n

theorem force_eq {α : Type} (n : ℕ) (f : ℕ → α) : force n f = f n := by cases n <;> rfl

/-- The register with the top bit alone, stepped `k` times, by squaring (`k < 2 ^ fuel`). -/
def power (t n : ℕ) : ℕ → ℕ → ℕ
  | 0, _ => 2 ^ (n - 1)
  | fuel + 1, k =>
    force (power t n fuel (k / 2)) fun h =>
      force (act t h h n) fun s => if k % 2 = 0 then s else next t s

theorem power_eq {t n : ℕ} (hn : 0 < n) (ht : t < 2 ^ n) (fuel k : ℕ) (hk : k < 2 ^ fuel) :
    power t n fuel k = (next t)^[k] (2 ^ (n - 1)) := by
  induction fuel generalizing k with
  | zero => have : k = 0 := by simpa using hk
            subst this; rfl
  | succ fuel ih =>
    have hs : ∀ m, act t ((next t)^[m] (2 ^ (n - 1))) ((next t)^[m] (2 ^ (n - 1))) n =
        (next t)^[m + m] (2 ^ (n - 1)) := fun m => by
      rw [Function.iterate_add_apply, ← iterate_eq_act hn ht (iterate_lt ht (top_lt n hn) m)]
    rw [power, force_eq, force_eq, ih _ (by omega), hs]
    split
    · congr 2; omega
    · rw [← Function.iterate_succ_apply' (next t)]
      congr 2; omega

/-- The product of `T^(N / q) - 1` over a list of factors `q`, `T` the step. -/
def witness (t n : ℕ) : List ℕ → ℕ
  | [] => 2 ^ (n - 1)
  | q :: qs =>
    force (power t n n ((2 ^ n - 1) / q) ^^^ 2 ^ (n - 1)) fun a =>
      force (witness t n qs) fun b => act t a b n

/-- The computed part of a proof of the period: `2^n - 1` steps are none, and `u` is an inverse of the
product of `T^(N / q) - 1` over the prime factors `q` of `N = 2^n - 1`. -/
def check (t n u : ℕ) (factors : List ℕ) : Bool :=
  decide (factors.prod = 2 ^ n - 1) && decide (power t n n (2 ^ n - 1) = 2 ^ (n - 1)) &&
    decide (act t u (witness t n factors) n = 2 ^ (n - 1))

theorem witness_lt {t n : ℕ} (hn : 0 < n) (ht : t < 2 ^ n) (qs : List ℕ) : witness t n qs < 2 ^ n := by
  cases qs with
  | nil => exact top_lt n hn
  | cons q qs =>
    rw [witness, force_eq, force_eq]
    exact act_lt ht _ (witness_lt hn ht qs) n

/-- A word that `T^(N / q)` fixes is annihilated by the product. -/
theorem act_witness {t n w q : ℕ} (hn : 0 < n) (ht : t < 2 ^ n) (hw : w < 2 ^ n) {qs : List ℕ}
    (hq : q ∈ qs) (hf : (next t)^[(2 ^ n - 1) / q] w = w) : act t (witness t n qs) w n = 0 := by
  induction qs with
  | nil => cases hq
  | cons r qs ih =>
    have hr : (2 ^ n - 1) / r < 2 ^ n :=
      (Nat.div_le_self _ _).trans_lt (Nat.sub_lt (Nat.two_pow_pos n) one_pos)
    have ha : power t n n ((2 ^ n - 1) / r) ^^^ 2 ^ (n - 1) < 2 ^ n := by
      rw [power_eq hn ht _ _ hr]
      exact Nat.xor_lt_two_pow (iterate_lt ht (top_lt n hn) _) (top_lt n hn)
    have hb := witness_lt hn ht qs
    rw [witness, force_eq, force_eq, act_assoc ht hb hw]
    rcases List.mem_cons.mp hq with rfl | hq'
    · have hz : act t (power t n n ((2 ^ n - 1) / q) ^^^ 2 ^ (n - 1)) w n = 0 := by
        rw [act_comm ha hw, act_xor_right, power_eq hn ht _ _ hr,
          act_comm hw (iterate_lt ht (top_lt n hn) _), ← iterate_eq_act hn ht hw, hf, act_top hw,
          Nat.xor_self]
      rw [act_comm hb hw, ← act_assoc ht hw hb, hz]
      have := act_comm (t := t) (Nat.two_pow_pos n) hb
      rw [this, act_zero_right]
    · rw [ih hq', act_zero_right]

/-- A length that passes the check has the full period (R262). -/
theorem period_of_check {t n u : ℕ} {factors : List ℕ} (hn : 0 < n) (ht : t < 2 ^ n)
    (hp : ∀ q ∈ factors, q.Prime) (hc : check t n u factors = true) {w : ℕ} (hw : w < 2 ^ n) :
    (next t)^[2 ^ n - 1] w = w ∧
      (w ≠ 0 → ∀ k, 0 < k → k < 2 ^ n - 1 → (next t)^[k] w ≠ w) := by
  simp only [check, Bool.and_eq_true, decide_eq_true_eq] at hc
  obtain ⟨⟨hprod, hone⟩, hinv⟩ := hc
  have hN : 2 ^ n - 1 < 2 ^ n := Nat.sub_lt (Nat.two_pow_pos n) one_pos
  have hclose : (next t)^[2 ^ n - 1] w = w := by
    rw [iterate_eq_act hn ht hw, ← power_eq hn ht n _ hN, hone, act_one hn hw]
  refine ⟨hclose, fun h0 k hk hkN hfix => h0 ?_⟩
  have h1 : Function.minimalPeriod (next t) w ∣ 2 ^ n - 1 :=
    Function.IsPeriodicPt.minimalPeriod_dvd hclose
  have h2 : Function.minimalPeriod (next t) w ≤ k :=
    Function.IsPeriodicPt.minimalPeriod_le hk hfix
  obtain ⟨m, hm⟩ := h1
  have hm1 : m ≠ 1 := by rintro rfl; omega
  have hq := Nat.minFac_prime hm1
  have hqN : m.minFac ∣ factors.prod := hprod ▸ hm ▸ (Nat.minFac_dvd m).mul_left _
  obtain ⟨a, ha, hqa⟩ := hq.prime.dvd_prod_iff.mp hqN
  have hmem : m.minFac ∈ factors := by
    rwa [(Nat.prime_dvd_prime_iff_eq hq (hp a ha)).mp hqa]
  have hfixq : (next t)^[(2 ^ n - 1) / m.minFac] w = w := by
    obtain ⟨r, hr⟩ := Nat.minFac_dvd m
    have : (2 ^ n - 1) / m.minFac = Function.minimalPeriod (next t) w * r := by
      rw [hm]
      apply Nat.div_eq_of_eq_mul_left hq.pos
      conv_lhs => rw [hr]
      ring
    rw [this]
    exact (Function.isPeriodicPt_minimalPeriod (next t) w).mul_const r
  have hz := act_witness hn ht hw hmem hfixq
  rw [← act_one (t := t) hn hw, ← hinv, act_assoc ht (witness_lt hn ht _) hw, hz, act_zero_right]

/-! ## The defaults -/

/-- Per length `n` from 3: an inverse as `check` takes it, and the prime factors of `2^n - 1`. -/
def certificates : List (ℕ × ℕ × List ℕ) :=
  [(3, 3, [7]),
    (4, 3, [3, 5]),
    (5, 7, [31]),
    (6, 39, [3, 3, 7]),
    (7, 63, [127]),
    (8, 244, [3, 5, 17]),
    (9, 438, [7, 73]),
    (10, 149, [3, 11, 31]),
    (11, 132, [23, 89]),
    (12, 3249, [3, 3, 5, 7, 13]),
    (13, 2303, [8191]),
    (14, 14609, [3, 43, 127]),
    (15, 25729, [7, 31, 151]),
    (16, 46661, [3, 5, 17, 257]),
    (17, 16383, [131071]),
    (18, 79278, [3, 3, 3, 7, 19, 73]),
    (19, 147455, [524287]),
    (20, 535101, [3, 5, 5, 11, 31, 41]),
    (21, 1619567, [7, 7, 127, 337]),
    (22, 1761264, [3, 23, 89, 683]),
    (23, 2404241, [47, 178481]),
    (24, 11738168, [3, 3, 5, 7, 13, 17, 241]),
    (25, 2522685, [31, 601, 1801]),
    (26, 17968660, [3, 2731, 8191]),
    (27, 6413695, [7, 73, 262657]),
    (28, 120838751, [3, 5, 29, 43, 113, 127]),
    (29, 417879071, [233, 1103, 2089]),
    (30, 179984963, [3, 3, 7, 11, 31, 151, 331]),
    (31, 268435455, [2147483647]),
    (32, 3868388, [3, 5, 17, 257, 65537])]

set_option maxRecDepth 4000 in
theorem certificates_check : certificates.all (fun c =>
    decide (0 < c.1) && decide ((Config.defaults.tap c.1).toNat < 2 ^ c.1) &&
      check (Config.defaults.tap c.1).toNat c.1 c.2.1 c.2.2) = true := by
  decide +kernel

theorem certificates_length (n : ℕ) (h1 : 3 ≤ n) (h2 : n ≤ 32) : ∃ u qs, (n, u, qs) ∈ certificates := by
  interval_cases n <;> exact ⟨_, _, by simp only [certificates, List.mem_cons, Prod.mk.injEq, true_and,
    Nat.reduceEqDiff, false_and, false_or]; exact .inl ⟨rfl, rfl⟩⟩

theorem certificates_prime : ∀ c ∈ certificates, ∀ q ∈ c.2.2, q.Prime := by
  have h31 : Nat.Prime 2147483647 := by
    have := lucas_lehmer_sufficiency 31 (by norm_num) (by norm_num)
    simpa [mersenne] using this
  simp only [certificates, List.forall_mem_cons, List.not_mem_nil, false_implies, implies_true, and_true, h31]
  norm_num

end Tap

/-- The word step and the natural step agree. -/
theorem lfsrNext_toNat (p : Config.Params) (n : ℕ) (w : Word32) :
    (lfsrNext p n w).toNat = Tap.next (p.tap n).toNat w.toNat := by
  rw [lfsrNext, BitVec.toNat_xor, BitVec.toNat_ushiftRight, Tap.next, BitVec.getLsbD, Nat.testBit_zero]
  rcases Nat.mod_two_eq_zero_or_one w.toNat with h | h <;> simp [h]

theorem lfsrNext_iterate_toNat (p : Config.Params) (n k : ℕ) (w : Word32) :
    ((lfsrNext p n)^[k] w).toNat = (Tap.next (p.tap n).toNat)^[k] w.toNat := by
  induction k with
  | zero => rfl
  | succ k ih => rw [Function.iterate_succ_apply', Function.iterate_succ_apply', lfsrNext_toNat, ih]

/-- The period of every default tap (R263). -/
theorem defaultTaps_period {n : ℕ} (h1 : 3 ≤ n) (h2 : n ≤ 32) {w : Word32} (h0 : w ≠ 0)
    (hw : w.toNat < 2 ^ n) :
    (lfsrNext Config.defaults n)^[2 ^ n - 1] w = w ∧
      ∀ k, 0 < k → k < 2 ^ n - 1 → (lfsrNext Config.defaults n)^[k] w ≠ w := by
  obtain ⟨u, qs, hm⟩ := Tap.certificates_length n h1 h2
  have hc := List.all_eq_true.mp Tap.certificates_check _ hm
  simp only [Bool.and_eq_true, decide_eq_true_eq] at hc
  obtain ⟨⟨hn, ht⟩, hc⟩ := hc
  have h := Tap.period_of_check hn ht (fun q hq => Tap.certificates_prime _ hm q hq) hc hw
  refine ⟨BitVec.eq_of_toNat_eq ?_, fun k hk hk' he => h.2 ?_ k hk hk' ?_⟩
  · rw [lfsrNext_iterate_toNat]; exact h.1
  · exact fun hz => h0 (BitVec.eq_of_toNat_eq hz)
  · rw [← lfsrNext_iterate_toNat, he]

/-- The defaults of R9 are a legal configuration. -/
theorem defaults_legal : Config.defaults.Legal where
  wtMax_pos := by decide
  wtMax_le := by decide
  kMax_pos := by decide
  kMax_le := by decide
  taps_ge := fun n h1 h2 => by interval_cases n <;> decide
  taps_lt := fun n h1 h2 => by interval_cases n <;> decide
  taps_close := fun _ h1 h2 _ h0 hw => (defaultTaps_period h1 h2 h0 hw).1
  taps_maximal := fun _ h1 h2 _ h0 hw => (defaultTaps_period h1 h2 h0 hw).2
  fallback_ne := by decide
  envEps_nonneg := by norm_num [Config.defaults]

end Sys2Proof.Laws
end

