-- ==== Sys2Proof/Tests/Slice0.lean ====
section
/-! SUPPORT. Tests: ill-formed terms, decoding of written-out words, one step per test with the expected
values of `spec/95_test_vectors.md` (the vector is named in each comment), and for every statement with
hypotheses a witness that meets them. -/

set_option Elab.async false

namespace Sys2Proof.Tests

open Sys2Proof Sys2Proof.Machine Sys2Proof.Claim

/-! ## WellFormed: each check refuses a term -/

/-- The static checks on a chip with the defaults of R9. -/
def accepted (i : Instr) : Bool := i.wellFormed 8 Config.defaults

theorem test_refuses_channel : accepted (.play 8) = false := by decide
theorem test_refuses_slot : accepted (.envReset 0 4) = false := by decide
theorem test_refuses_knot : accepted (.envKnotT 0 0 32 0) = false := by decide
theorem test_refuses_read : accepted (.rreg 0 0x16) = false := by decide
theorem test_refuses_write : accepted (.wreg 0 0x40 0) = false := by decide
theorem test_refuses_global_read : accepted (.rglb 6) = false := by decide
theorem test_refuses_global_write : accepted (.wglb 2 5) = false := by decide
theorem test_refuses_zero_rate : accepted (.wglb 0 0) = false := by decide
theorem test_refuses_zero_pitch : accepted (.setPitch 0 false 0) = false := by decide
theorem test_refuses_stage_index : accepted (.wtStage 0 256 0) = false := by decide
theorem test_refuses_empty_commit : accepted (.wtCommit 0 0) = false := by decide
theorem test_refuses_long_commit : accepted (.wtCommit 0 257) = false := by decide
theorem test_refuses_empty_build : accepted (.envBuild 0 0 0) = false := by decide
theorem test_refuses_long_build : accepted (.envBuild 0 0 33) = false := by decide
theorem test_accepts_bounds : accepted (.envKnotV 7 3 31 0) ∧ accepted (.envBuild 7 3 32) ∧
    accepted (.wtCommit 7 256) ∧ accepted (.rreg 7 0x75) := by decide

/-- Another configuration of R9: two channels, four knots, eight table entries. -/
theorem test_other_configuration :
    let p := { Config.defaults with kMax := 4, wtMax := 8 }
    (Instr.play 2).wellFormed 2 p = false ∧ (Instr.envKnotT 0 0 4 0).wellFormed 2 p = false ∧
      (Instr.wtStage 0 8 0).wellFormed 2 p = false ∧ (Instr.wtStage 1 7 0).wellFormed 2 p = true := by decide

/-! ## Decoding: words written out from R91, R94, R98 -/

theorem test_decode_system :
    decode 0x0000000000000000 = .ok .nop ∧
    decode 0x0103004200000000 = .ok (.rreg 3 0x42) ∧
    decode 0x0205000D00000002 = .ok (.wreg 5 0x0D 2) ∧
    decode 0x0300000400000000 = .ok (.rglb 4) ∧
    decode 0x0400000100000003 = .ok (.wglb 1 3) ∧
    decode 0x1000000000000000 = .ok .tick ∧
    decode 0x11000000000002DF = .ok (.iter 735) := by decide

theorem test_decode_channel :
    decode 0x2007000000000000 = .ok (.chInit 7) ∧
    decode 0x2103000000000000 = .ok (.play 3) ∧
    decode 0x2201000000000000 = .ok (.stop 1) ∧
    decode 0x2302000000000000 = .ok (.release 2) ∧
    decode 0x2404000000000000 = .ok (.reset 4) ∧
    decode 0x25020001FFFF000B = .ok (.setNote 2 true 0xFFFF 0x000B) ∧
    decode 0x2600000000390000 = .ok (.setMidi 0 false 0x00390000) ∧
    decode 0x2700000101B80000 = .ok (.setPitch 0 true 0x01B80000) ∧
    decode 0x2800000000008000 = .ok (.setVol 0 0x00008000) ∧
    decode 0x29000000FFFF0000 = .ok (.setPan 0 0xFFFF0000) ∧
    decode 0x2A00000000000001 = .ok (.setNoise 0 true) ∧
    decode 0x2A06000000000000 = .ok (.setNoise 6 false) ∧
    decode 0x2B00000000000000 = .ok (.isNoise 0) ∧
    decode 0x2C00000000400000 = .ok (.csample 0 0x00400000) := by decide

theorem test_decode_tables :
    decode 0x30000003FFFF8000 = .ok (.wtStage 0 3 0xFFFF8000) ∧
    decode 0x3100000000000004 = .ok (.wtCommit 0 4) ∧
    decode 0x3200000000000000 = .ok (.wtFromEnv 0) ∧
    decode 0x5000001000000001 = .ok (.lfsrInit 0 16 1) ∧
    decode 0x5105000000000000 = .ok (.lfsrStep 5) ∧
    decode 0x5200000000000000 = .ok (.lfsrOut 0) := by decide

theorem test_decode_envelope :
    decode 0x4002100500008000 = .ok (.envKnotT 2 1 5 0x00008000) ∧
    decode 0x4100000100008000 = .ok (.envKnotV 0 0 1 0x00008000) ∧
    decode 0x4200301F00000001 = .ok (.envKnotI 0 3 31 .step) ∧
    decode 0x4200301F00000000 = .ok (.envKnotI 0 3 31 .linear) ∧
    decode 0x4301000000030022 = .ok (.envLoop 1 0 .loopPoints 2 3) ∧
    decode 0x430020000FFFFFF3 = .ok (.envLoop 0 2 .echo 0xFFF 0xFFF) ∧
    decode 0x4300000000000001 = .ok (.envLoop 0 0 .cycle 0 0) ∧
    decode 0x4400000000008000 = .ok (.envDecay 0 0 0x00008000) ∧
    decode 0x4500200000000003 = .ok (.envBuild 0 2 3) ∧
    decode 0x4600200000000000 = .ok (.envClear 0 2) ∧
    decode 0x4707F00000000000 = .ok (.envReset 7 15) ∧
    decode 0x4800000000000000 = .ok (.envRelease 0 0) ∧
    decode 0x4900000000004000 = .ok (.envPeek 0 0 0x00004000) := by decide

/-- V-D3, V-S9, V-X6, V-Y5 and the envelope table: words that are no command. -/
theorem test_decode_illegal :
    ([0xFFFFFFFFFFFFFFFF, 0x0500000000000000, 0x2D00000000000000, 0x2100000000000001,
      0x2109000000000001, 0x2700000201B80000, 0x31C8000100000004, 0x0000000000000001,
      0x1000000000000001, 0x1101000000000001, 0x2A00000000000002, 0x2C00000100400000,
      0x4200000000000002, 0x4300000000000016, 0x4300000100000002, 0x5100000000000001] : List Word64).all (fun w =>
      !(decode w).toBool) := by decide +kernel

/-- R72: `CSAMPLE 0, 1/1024` as bytes, and the PCM frame (32767, -16383). -/
theorem test_bytes : wordBytes 0x2C00000000400000 = [0x2C, 0, 0, 0, 0, 0x40, 0, 0] ∧
    frameBytes 32767 (-16383) = [0x7F, 0xFF, 0xC0, 0x01] := by decide

/-! ## One step on a small state -/

/-- The state after one step that runs the command word `w`. -/
def run (w : ℕ) (s : State) : State :=
  match step (s.withFetchWord 64 w) with
  | .next t => t
  | _ => s

/-- The response to the command word `w`. -/
def answer (w : ℕ) (s : State) : Option (Status × ℕ) :=
  (run w s).responses.getLast?.map fun r => (r.status, r.data.toNat)

/-- The reset state with channel 0 changed. -/
def with0 (f : Channel → Channel) : State := State.reset.setChannel 0 (f resetChannel)

/-- Channel 0 after one step. -/
def after (w : ℕ) (s : State) : Channel := (run w s).channel 0

/-- Channel 0 with the envelope `e` in slot `i`. -/
def env0 (i : Fin 4) (e : Envelope) (x : Channel) : Channel := x.setSlot i { x.slot i with env := some e }

/-- The knots `K4` of section 2.2. -/
def k4 : List Knot := [⟨0, 0, .linear⟩, ⟨1, 1, .linear⟩, ⟨2, 1 / 2, .linear⟩, ⟨3, 0, .linear⟩]

/-- An Echo envelope with the knots `K4`, loop 1 to 2, decay 1/2 (V-E13). -/
def echo4 : Envelope := envBuild k4 .echo 1 2 (1 / 2)

/-- V-E13 after its capture. -/
def echoCaptured : Envelope :=
  { echo4 with release := true, captured := true, relTime := 9 / 4, relPos := 5 / 4, lastQuery := some (9 / 4) }

/-- V-Y5. -/
theorem test_nop : answer 0x0000000000000000 State.reset = some (.ok, 0) := by decide +kernel

/-- V-Y1. -/
theorem test_rreg : answer 0x0100004000000000 State.reset = some (.ok, 8) ∧
    answer 0x0100000800000000 State.reset = some (.ok, 0x80) ∧
    answer 0x0107006600000000 State.reset = some (.ok, 0xFFFF0000) := by decide +kernel

/-- V-Y1, V-D3: the channel check comes before the register check. -/
theorem test_rreg_errors : answer 0x0100001600000000 State.reset = some (.badOperand, 0x16) ∧
    answer 0x0108001600000000 State.reset = some (.badOperand, 0) := by decide +kernel

/-- V-Y3. -/
theorem test_wreg : (after 0x0200002000018000 State.reset).live.tremAmp = 1 ∧
    (after 0x02000023FFFF0000 State.reset).live.vibAmp = 0 ∧
    (after 0x02000026FFF40000 State.reset).live.pitchDepth = -12 := by decide +kernel

/-- V-Y3: a staged word is not checked; a status register is not writable. -/
theorem test_wreg_staged : (after 0x0200000000000000 State.reset).staged[0] = 0 ∧
    answer 0x0200004000000000 State.reset = some (.badOperand, 0x40) := by decide +kernel

/-- V-Y2. -/
theorem test_rglb : answer 0x0300000000000000 State.reset = some (.ok, 0xAC44) ∧
    answer 0x0300000600000000 State.reset = some (.badOperand, 6) ∧
    answer 0x0300000500000000 (.resetWith 2 Config.defaults) = some (.ok, 2) := by decide +kernel

/-- V-X5: a new sample rate re-bases the elapsed time. -/
theorem test_wglb : (run 0x04000000000001F4 { State.reset with counter := 3 }).prevElapsed = 3 / 500 := by
  decide +kernel

/-- V-Y4. -/
theorem test_wglb_errors : answer 0x0400000100000000 State.reset = some (.badOperand, 1) ∧
    answer 0x0400000200000005 State.reset = some (.badOperand, 2) := by decide +kernel

/-- V-X2. -/
theorem test_tick :
    let s := { (with0 fun x => { x with playing := true }) with peak := 1 }
    answer 0x1000000000000000 s = some (.ok, 0x7FFF7FFF) ∧
    (run 0x1000000000000000 s).pcm = [⟨32767, 32767⟩] ∧
    (after 0x1000000000000000 s).envTime = 1 / 44100 := by decide +kernel

/-- V-X4: sums -1 and -3 with a peak of 3. -/
theorem test_tick_negative :
    let s := { (with0 fun x => { x with
      out := -1, rightMult := 3, active := { x.active with volAttn := 0 } }) with peak := 3 }
    answer 0x1000000000000000 s = some (.ok, 0xC0018001) := by decide +kernel

/-- V-X1, V-X5. -/
theorem test_iter : (run 0x1100000000000000 State.reset).counter = 0 ∧
    (run 0x1100000000000003 { State.reset with sampleRate := 1000 }).prevElapsed = 3 / 1000 ∧
    (run 0x1100000000000003 State.reset).pcm.length = 3 := by decide +kernel

/-- V-C8: the lowest failing register is reported. -/
theorem test_chInit_error :
    answer 0x2000000000000000 (with0 fun x => { x with staged := (x.staged.set 9 0).set 0x0D 3 }) =
      some (.badOperand, 9) := by decide +kernel

/-- R182, its example: the Random kind, and a table of the staged length. -/
theorem test_chInit :
    let y := after 0x2000000000000000 (with0 fun x => { x with staged := (x.staged.set 0x0D 1).set 0 3 })
    y.active.noiseKind = .random ∧ y.wt = [1, 1, -1] := by decide +kernel

/-- V-C6. -/
theorem test_play : chStatus (after 0x2100000000000000 State.reset) = 0x9 := by decide +kernel

/-- V-C6. -/
theorem test_stop :
    chStatus (after 0x2200000000000000 (with0 fun x => { x with playing := true, released := true })) = 0x8 := by
  decide +kernel

/-- V-C6; R185 arms slots 0 to 2 and not slot 3. -/
theorem test_release :
    let y := after 0x2300000000000000 (with0 fun x => env0 3 echo4 (env0 2 echo4 { x with playing := true }))
    chStatus y = 0xB ∧ (y.slot 2).env.map (·.release) = some true ∧
      (y.slot 3).env.map (·.release) = some false := by decide +kernel

/-- V-C6, V-C9. -/
theorem test_reset :
    let y := after 0x2400000000000000 (with0 fun x => { x with
      playing := true, released := true, dirty := false, toneTime := 3 / 1024, lastRefresh := some 0 })
    chStatus y = 0x9 ∧ y.toneTime = 0 ∧ y.lastRefresh = none := by decide +kernel

/-- V-C3. -/
theorem test_setNote : (after 0x2500000000050015 State.reset).midiNote = 81 ∧
    (after 0x2500000000050015 State.reset).frequency = 880 ∧
    (after 0x25000000FFFFFFFF State.reset).midiNote = 131 := by decide +kernel

/-- V-C3. -/
theorem test_setMidi : (after 0x26000000FFFD0000 State.reset).frequency = 55 / 8 ∧
    (after 0x26000000FFFD0000 State.reset).midiNote = -3 := by decide +kernel

/-- V-C1 (a) and (b). -/
theorem test_setPitch :
    (after 0x2700000003700000
      (with0 fun x => { x with playing := true, toneTime := 1 / 1760 })).toneTime = 1 / 3520 ∧
    (after 0x2700000000DC0000
      (with0 fun x => { x with playing := true, toneTime := 7 / 1760 })).toneTime = 3 / 880 := by
  decide +kernel

/-- V-C1 (c), V-C3. -/
theorem test_setPitch_forced :
    (after 0x2700000100DC0000
      (with0 fun x => { x with playing := true, toneTime := 7 / 1760 })).toneTime = 0 ∧
    answer 0x2700000000000000 State.reset = some (.badOperand, 0) := by decide +kernel

/-- V-C5. -/
theorem test_setVol : (after 0x28000000FFFF8000 State.reset).volume = 0 ∧
    (after 0x2800000000018000 State.reset).volume = 1 := by decide +kernel

/-- V-C4. -/
theorem test_setPan :
    let y := after 0x29000000FFFFC000 State.reset
    let z := after 0x2900000000008000 (with0 fun x => { x with active := { x.active with panSteps := 3 } })
    (y.leftMult, y.rightMult) = (1, 3 / 4) ∧ (z.leftMult, z.rightMult) = (0, 1) := by decide +kernel

/-- V-C7 and X13. -/
theorem test_setNoise : (after 0x2A00000000000001 State.reset).noiseOn = false ∧
    (after 0x2A00000000000001
      (with0 fun x => { x with active := { x.active with noiseKind := .random } })).noiseOn = true := by
  decide +kernel

/-- V-C7. -/
theorem test_isNoise : answer 0x2B00000000000000 (with0 fun x => { x with noiseOn := true }) = some
    (.ok, 1) := by
  decide +kernel

/-- V-S1: the first sample of a playing channel, and the first after `STOP`. -/
theorem test_csample :
    answer 0x2C00000000400000 (with0 fun x => { x with playing := true }) = some (.ok, 0x0001000000010000) ∧
    (after 0x2C00000000400000 (with0 fun x => { x with out := -1 })).frameL = -511 / 512 := by decide +kernel

/-- V-L4 (third call), V-S7. -/
theorem test_csample_noise :
    let y := after 0x2C00000000800000 (with0 fun x => { x with
      playing := true, noiseOn := true, frequency := 256, noiseTime := 1 / 256
      lfsr := { n := 5, seed := 1, state := 1 }
      active := { x.active with noiseKind := .random } })
    let z := after 0x2C00000000800000 (with0 fun x => env0 1
      (envBuild [⟨0, 1 / 2, .linear⟩] .hold 0 0 1)
      { x with playing := true, live := { x.live with pitchDepth := 24 } })
    (y.frameL, y.lfsr.state, y.noiseTime) = (1 / 4, 0x14, 1 / 512) ∧ z.snapTonePeriod = 1 / 880 := by
  decide +kernel

/-- V-W3. -/
theorem test_wtStage : Memory.read (after 0x30000003FFFF8000 State.reset).wts 3 = some 0xFFFF8000 ∧
    answer 0x3000010000000000 State.reset = some (.badOperand, 0x100) := by decide +kernel

/-- V-W2: eight samples into a table of four. -/
theorem test_wtCommit :
    (after 0x3100000000000008 (with0 fun x => { x with
      active := { x.active with wtLen := 4 }
      wts := [(0, 0x1000), (1, 0x2000), (2, 0x3000), (3, 0x4000), (4, 0x5000), (5, 0x6000), (6, 0x7000),
        (7, 0x8000)] })).wt = [1 / 16, 3 / 16, 5 / 16, 7 / 16] := by decide +kernel

/-- V-W2. -/
theorem test_wtCommit_error :
    answer 0x3100000000000001 (with0 fun x => { x with wts := [(0, 0x10001)] }) =
      some (.invalidWavetable, 0) := by decide +kernel

/-- V-W4. -/
theorem test_wtFromEnv : answer 0x3200000000000000 State.reset = some (.badOperand, 3) ∧
    (after 0x3200000000000000 (with0 fun x => env0 3
      (envBuild [⟨0, -1, .linear⟩, ⟨1, 1, .linear⟩] .hold 0 0 1)
      { x with active := { x.active with wtLen := 4 } })).wt = [-1, -1 / 2, 0, 1 / 2] := by decide +kernel

/-- The envelope table of section 2.2. -/
theorem test_envKnotT : Memory.read ((after 0x4000100200020000 State.reset).slot 1).sknotTime 2 = some
    0x20000 ∧
    answer 0x4000002000000000 State.reset = some (.badOperand, 0) ∧
    answer 0x4000400000000000 State.reset = some (.badOperand, 0) := by decide +kernel

/-- The example of R157. -/
theorem test_envKnotV :
    Memory.read ((after 0x4100000100008000 State.reset).slot 0).sknotValue 1 = some 0x8000 := by decide +kernel

theorem test_envKnotI :
    Memory.read ((after 0x4200000100000001 State.reset).slot 0).sknotInterp 1 = some .step := by decide +kernel

/-- The example of R158. -/
theorem test_envLoop :
    let sl := (after 0x4300000000020012 State.reset).slot 0
    (sl.skind, sl.sloopIn, sl.sloopOut) = (.loopPoints, 1, 2) := by decide +kernel

/-- The envelope table of section 2.2: clamped to 1 and to 0. -/
theorem test_envDecay : ((after 0x4400000000018000 State.reset).slot 0).sdecay = 1 ∧
    ((after 0x44000000FFFF0000 State.reset).slot 0).sdecay = 0 := by decide +kernel

/-- V-E7: the sort is stable. -/
theorem test_envBuild :
    (((after 0x4500000000000003 (with0 fun x => x.setSlot 0 { x.slot 0 with
      sknotTime := [(0, 0x10000), (1, 0), (2, 0x10000)]
      sknotValue := [(0, 0x4000), (1, 0), (2, 0x10000)]
      sknotInterp := [(0, .linear), (1, .linear), (2, .linear)] })).slot 0).env.map (·.knots)) =
      some [⟨0, 0, .linear⟩, ⟨1, 1 / 4, .linear⟩, ⟨1, 1, .linear⟩] := by decide +kernel

/-- The envelope table of section 2.2: -1/2 is refused in slot 0. -/
theorem test_envBuild_error :
    answer 0x4500000000000001 (with0 fun x => x.setSlot 0 { x.slot 0 with
      sknotTime := [(0, 0)], sknotValue := [(0, 0xFFFF8000)], sknotInterp := [(0, .linear)] }) =
      some (.invalidEnvelope, 0) := by decide +kernel

theorem test_envClear : ((after 0x4600100000000000 (with0 (env0 1 echo4))).slot 1).env = none ∧
    answer 0x4600200000000000 State.reset = some (.ok, 0) := by decide +kernel

/-- V-E16. -/
theorem test_envReset :
    ((after 0x4700100000000000 (with0 (env0 1 echoCaptured))).slot 1).env = some echo4 ∧
    answer 0x4700100000000000 State.reset = some (.badOperand, 0) := by decide +kernel

/-- V-E16: the channel's `released` stays. -/
theorem test_envRelease :
    let y := after 0x4800100000000000 (with0 (env0 1 echo4))
    (y.slot 1).env.map (·.release) = some true ∧ y.released = false := by decide +kernel

/-- V-E13: the capture, and the second echo at 15/2. -/
theorem test_envPeek :
    answer 0x4900100000024000 (with0 (env0 1 { echo4 with release := true })) = some (.ok, 0xE000) ∧
    answer 0x4900100000078000 (with0 (env0 1 echoCaptured)) = some (.ok, 0x2000) := by decide +kernel

/-- V-E9, V-E10, V-E2: sustain, a zero-width loop, Repeat. -/
theorem test_envPeek_loops :
    answer 0x49001000000A4000 (with0 (env0 1 (envBuild k4 .loopPoints 1 2 1))) = some (.ok, 0xE000) ∧
    answer 0x4900100000090000 (with0 (env0 1 (envBuild k4 .loopPoints 2 2 1))) = some (.ok, 0x8000) ∧
    answer 0x490010000003C000 (with0 (env0 1 (envBuild
      [⟨0, 1, .linear⟩, ⟨1 / 2, 1 / 2, .linear⟩, ⟨1, 0, .linear⟩] .cycle 0 0 1))) = some (.ok, 0x4000) := by
  decide +kernel

/-- R155, log 9: a query before the capture, after the times have gone backwards, is free and captures
nothing; at or before the first knot it holds the first value (V-E15). -/
theorem test_strayed :
    let e := { echo4 with release := true, lastQuery := some 2 }
    (e.peek 0 7 (3 / 2)).1 = 7 ∧ (e.peek 0 7 (3 / 2)).2.captured = false ∧ (e.peek 0 7 (-3)).1 = 0 := by
  decide +kernel

/-- V-L3. -/
theorem test_lfsrInit : answer 0x500000100000ACE1 State.reset = some (.ok, 0xACE1) ∧
    answer 0x5000000500000020 State.reset = some (.ok, 1) := by decide +kernel

/-- V-L3. -/
theorem test_lfsrStep :
    answer 0x5100000000000000 (with0 fun x => { x with lfsr := { n := 5, seed := 1, state := 1 } }) =
      some (.ok, 0x14) := by decide +kernel

/-- V-L3, X19. -/
theorem test_lfsrOut : answer 0x5200000000000000 State.reset = some (.ok, 0x20000) ∧
    answer 0x5200000000000000 (with0 fun x => { x with lfsr := { n := 5, seed := 1, state := 0x14 } }) =
      some (.ok, 0xA0000000) := by decide +kernel

/-- V-D3: an illegal word sets its flag and nothing else. -/
theorem test_illegal : run 0x2109000000000001 State.reset =
    { State.reset with errflags := 4, responses := [⟨.illegalCommand, 0⟩] } := by decide +kernel

/-- V-M1: ties go up. -/
theorem test_quantize : quantize (1 / 8) 5 0 1 = 1 / 4 ∧ quantize 0 2 (-1) 1 = 1 ∧
    quantize (1 / 2) 7 3 3 = 3 ∧ quantize 5 0 0 1 = 5 := by decide +kernel

/-! ## Witnesses: each statement with hypotheses is about something -/

/-- The channel numbers at the ends of their range, for every statement over a channel. -/
theorem witness_channels : (0 : BitVec 8).toNat < State.reset.nCh ∧ (7 : BitVec 8).toNat <
    State.reset.nCh := by decide

theorem witness_EncodeUndoesDecode : decode 0x2100000000000000 = .ok (.play 0) := by decide

theorem witness_StepRunsTheDecodedCommand :
    (State.reset.withFetchWord 64 0x2100000000000000).inbox = [0x2100000000000000] ∧
    decode 0x2100000000000000 = .ok (.play 0) := by decide +kernel

/-- A reserved opcode and a must-be-zero bit. -/
theorem witness_WordsOffTheTableAreIllegal :
    (∀ r ∈ opcodeTable, (0x0500000000000000 : Word64) &&& r.mask ≠ r.pattern) ∧
    (∀ r ∈ opcodeTable, (0x1000000000000001 : Word64) &&& r.mask ≠ r.pattern) ∧
    (State.reset.withFetchWord 64 0x0500000000000000).inbox = [0x0500000000000000] := by decide +kernel

theorem witness_IdleChipChangesNothing : State.reset.inbox = [] := rfl

/-- An `OK` and an error. -/
theorem witness_EveryWordIsAnsweredOnce :
    (State.reset.withFetchWord 64 0).inbox = [0] ∧ answer 0 State.reset = some (.ok, 0) ∧
    answer 0x2109000000000000 State.reset = some (.badOperand, 0) := by decide +kernel

theorem witness_OperandsThatNameNothingAreRefused :
    accepted (.play 8) = false ∧ accepted (.rreg 0 0x16) = false ∧
    accepted (.wglb 1 0) = false := by decide

theorem witness_ChannelCommandsStayInTheirChannel : namedChannel (.play 0) = some 0 ∧
    namedChannel (.envPeek 7 0 0) = some 7 ∧ namedChannel (.stop 8) = some 8 := by decide

/-- Two states that differ in another channel. -/
theorem witness_ChannelCommandsReadTheirChannelOnly :
    let s' := State.reset.setChannel 1 { resetChannel with playing := true }
    s' ≠ State.reset ∧ s'.params = State.reset.params ∧ s'.nCh = State.reset.nCh ∧
    s'.channel 0 = State.reset.channel 0 ∧
    s'.responses.length = State.reset.responses.length ∧ namedChannel (.play 0) = some 0 := by
  decide +kernel

theorem resetProfile_legal : resetProfile.Legal 256 := by
  constructor <;> norm_num [resetProfile, IsUnit01]

/-- A legal state other than the reset state, and a step from it. -/
theorem witness_StepKeepsTheStateLegal :
    ({ State.reset with peak := 1 } : State).Legal ∧
      step { State.reset with peak := 1 } = .next { State.reset with peak := 1 } := by
  have hc : resetChannel.Legal Config.defaults := by
    have hs : ∀ i, resetChannel.slot i = resetSlot := by
      intro i; simp [Channel.slot, resetChannel]
    constructor
    case active_legal => exact resetProfile_legal
    case live_legal => exact Laws.resetLive_legal
    case noise_period => norm_num [resetChannel, resetProfile, Profile.noisePeriodOf]
    case wt_bipolar =>
      intro v hv
      have : v = 1 ∨ v = -1 := by
        simp only [resetChannel, List.mem_append, List.mem_replicate] at hv; tauto
      rcases this with rfl | rfl <;> norm_num [IsBipolar]
    case wts_wf => exact Laws.Memory.wf_nil _
    case lfsr_legal => exact ⟨by decide, by decide, by decide, by decide, by decide, by decide, 0, rfl⟩
    case env_legal =>
      intro i
      rw [hs]
      constructor <;> simp [resetSlot, IsUnit01, Memory.wf]
    case lastRefresh_le => intro t ht; cases ht
    case wavePrev_bipolar => intro w hw; cases hw
    all_goals norm_num [resetChannel, resetProfile, IsUnit01, IsBipolar]
  refine ⟨⟨Laws.defaults_legal, by decide, by decide, by decide, by decide, ?_, fun c _ => ?_, rfl, ?_⟩, rfl⟩
  · simp [State.reset, State.resetWith]
  · have : ({ State.reset with peak := 1 } : State).channel c = resetChannel :=
      Laws.resetWith_channel Config.defaultChannels Config.defaults c
    rw [this]
    exact hc
  · simp [State.reset, State.resetWith]

/-- A configuration other than the defaults, with the smallest wavetables that hold the reset profile. -/
theorem witness_ResetStateIsLegal :
    let p := { Config.defaults with wtMax := 32, kMax := 1, fallbackSeed := 5, envEps := 0 }
    1 ≤ 1 ∧ 255 ≤ 255 ∧ p.Legal ∧ 32 ≤ p.wtMax :=
  ⟨by decide, by decide, { Laws.defaults_legal with
    wtMax_pos := by decide, wtMax_le := by decide, kMax_pos := by decide, kMax_le := by decide
    fallback_ne := by decide, envEps_nonneg := le_rfl }, by decide⟩

theorem witness_ResetIsConstructionFromTheResetProfile :
    255 ≤ 255 ∧ 32 ≤ Config.defaults.wtMax ∧ (254 : BitVec 8).toNat < 255 := by decide

/-- The words of opcode 0 nearest to 0 and farthest from it. -/
theorem witness_NopOnlyAnswers : (1 : Word64) ≠ 0 ∧ (1 : Word64).toNat < 2 ^ 56 ∧
    (0x00FFFFFFFFFFFFFF : Word64).toNat < 2 ^ 56 := by decide

/-- The ends of the four blocks of registers, and the numbers beside them. -/
theorem witness_ReadRegisterAnswersItsWord :
    (∀ n ∈ [0x00, 0x15, 0x20, 0x26, 0x40, 0x4C, 0x60, 0x75],
      n ∈ (channelRegisters resetChannel).map Prod.fst) ∧
    (∀ n ∈ [0x16, 0x1F, 0x27, 0x3F, 0x4D, 0x5F, 0x76, 0xFFFF],
      n ∉ (channelRegisters resetChannel).map Prod.fst) := by decide +kernel

theorem witness_WriteRegisterStoresItsWord :
    (0 < 22 ∧ 0x15 < 22) ∧
    (∀ n ∈ [0x20, 0x26], n ∈ (liveWrites resetLive 1).map Prod.fst) ∧
    (∀ n ∈ [0x16, 0x1F, 0x27, 0x40, 0xFFFF], 22 ≤ n ∧ n ∉ (liveWrites resetLive 1).map Prod.fst) := by
  decide +kernel

theorem witness_ReadGlobalAnswersItsWord :
    (0 : BitVec 16).toNat = 0 ∧ (5 : BitVec 16).toNat = 5 ∧ 5 < (6 : BitVec 16).toNat := by decide

theorem witness_WriteGlobalSetsRateOrPeak :
    (1 : Word32) ≠ 0 ∧ 1 < (2 : BitVec 16).toNat ∧ (0xFFFFFFFF : Word32) ≠ 0 := by decide

theorem witness_SoftClipIsAQuarterSine : (0 : ℚ) < 3 ∧ (3 : ℚ) ≤ 5 ∧ (-1 : ℚ) ≤ 1 := by norm_num

theorem witness_SilentChipStaysSilent :
    ∀ c < State.reset.nCh, (State.reset.channel c).playing = false ∧ (State.reset.channel c).out = 0 := by decide +kernel

/-- Two states with the same delta whose other channels differ. -/
theorem witness_ChannelsTickIndependently :
    let s' := State.reset.setChannel 1 { resetChannel with playing := true }
    s' ≠ State.reset ∧ 0 < State.reset.nCh ∧ 0 < s'.nCh ∧ State.reset.params = s'.params ∧
    State.reset.channel 0 = s'.channel 0 ∧
    ((State.reset.counter + 1 : ℕ) : ℚ) / (State.reset.sampleRate.toNat : ℚ) - State.reset.prevElapsed =
      ((s'.counter + 1 : ℕ) : ℚ) / (s'.sampleRate.toNat : ℚ) - s'.prevElapsed := by decide +kernel

theorem witness_ChInitInstallsTheStagedProfile : ∀ q ∈ profileConditions 256 resetStaged, q.2 := by
  simp only [profileConditions, List.mem_cons, List.not_mem_nil, or_false, forall_eq_or_imp, forall_eq]
  decide +kernel

theorem witness_ChInitReportsTheFirstBadRegister :
    ∃ before after n legal, profileConditions 256 (resetStaged.set 0 257) = before ++ (n, legal) :: after ∧
      (∀ q ∈ before, q.2) ∧ ¬legal :=
  ⟨[], _, _, _, rfl, by simp, by decide +kernel⟩

theorem witness_MirrorReadsTheStagedWord :
    (0 < 22 ∧ 21 < 22) ∧ 
      ∀ q ∈ profileConditions State.reset.params.wtMax (State.reset.channel (7 : BitVec 8).toNat).staged, q.2 :=
  ⟨by decide, witness_ChInitInstallsTheStagedProfile⟩

theorem witness_PitchCommandsRetuneTheChannel : (1 : Word32) ≠ 0 ∧ (0 : Word32) = 0 := by decide

theorem witness_PitchChangeKeepsThePhase :
    let s := with0 fun x => { x with playing := true, toneTime := 1 / 1760 }
    let x := s.channel 0
    0 < s.nCh ∧ x.active.Legal s.params.wtMax ∧ x.active.wtLoop = true ∧ x.playing = true ∧
      (1 : Word32) ≠ 0 := by
  have h : (with0 fun x => { x with playing := true, toneTime := 1 / 1760 }).channel 0 =
      { resetChannel with playing := true, toneTime := 1 / 1760 } :=
    Laws.setChannel_channel_same (by decide) _
  refine ⟨by decide, ?_, by decide +kernel, by decide +kernel, by decide⟩
  simp only [h]
  exact resetProfile_legal

theorem witness_NoiseSwitchNeedsANoiseKind : resetProfile.noiseKind = .silent ∧
    ({ resetProfile with noiseKind := .melodic } : Profile).noiseKind ≠ .silent := by decide

theorem witness_StoppedSampleIsTheDecayingOutput : (State.reset.channel 7).playing = false := by
  decide +kernel

theorem witness_StoppedOutputStrictlyDecreases :
    let x := (with0 fun x => { x with out := -1 }).channel 0
    x.playing = false ∧ 0 < x.active.volAttn ∧ x.active.volAttn < 1 ∧ x.out ≠ 0 ∧ 0 < x.leftMult ∧
      0 < x.rightMult := by decide +kernel

/-- Each noise kind, with envelopes in the slots 0 to 2 and the noise on where the kind has one. -/
theorem witness_PlayingToneSample :
    ∀ k : NoiseKind,
      let x : Channel := env0 2 echo4 (env0 1 echo4 (env0 0 echo4 { resetChannel with
        playing := true, noiseOn := decide (k ≠ .silent), active := { resetProfile with noiseKind := k } }))
      x.playing = true ∧ (x.noiseOn = true → x.active.noiseKind ≠ .silent) ∧ x.active.Legal 256 := by
  intro k
  refine ⟨rfl, fun h => of_decide_eq_true h, ?_⟩
  exact { resetProfile_legal with }

/-- A channel whose snapshot is due, and one whose snapshot is not. -/
theorem witness_SnapshotFollowsTheEnvelopes :
    (let x : Channel := { resetChannel with playing := true }
     x.playing = true ∧ x.active.Legal 256 ∧ refreshes x = true) ∧
    (let x : Channel := { resetChannel with
        playing := true, dirty := false, lastRefresh := some 0, envTime := 1 / 8
        active := { resetProfile with envRate := 4 } }
     x.playing = true ∧ x.active.Legal 256 ∧ refreshes x = false) := by
  refine ⟨⟨rfl, resetProfile_legal, rfl⟩, rfl, ?_, by decide +kernel⟩
  exact { resetProfile_legal with envRate_nonneg := by norm_num }

/-- A playing Random channel before, at and after its resampling time, with the noise on. -/
theorem witness_RandomNoiseIsHeldBetweenResamples :
    let x : ℚ → State := fun t => with0 fun x => { x with
      playing := true, noiseOn := true, noiseTime := t
      active := { x.active with noiseKind := .random } }
    let y := fun t => after 0x2C00000000800000 (x t)
    (y 0).snapNoisePeriod = 1 / 440 ∧ (y (1 / 440)).snapNoisePeriod = 1 / 440 ∧
      ((x 0).channel 0).playing = true ∧ ((x 0).channel 0).active.noiseKind = .random ∧
      ((x 0).channel 0).noiseOn = true := by decide +kernel

theorem witness_MelodicNoiseReadsTheCycle :
    let x := (with0 fun x => { x with
      playing := true, noiseOn := true, active := { x.active with noiseKind := .melodic } }).channel 0
    x.playing = true ∧ x.active.noiseKind = .melodic ∧ x.noiseOn = true := by decide +kernel

theorem witness_WtStageWritesOneEntry :
    (255 : BitVec 16).toNat < State.reset.params.wtMax ∧
    State.reset.params.wtMax ≤ (256 : BitVec 16).toNat := by decide

/-- One sample, and the 256 samples of a full staging RAM. -/
theorem witness_WtCommitInstallsTheResampledBuffer :
    (let s := with0 fun x => { x with wts := [(0, 0xFFFF0000)] }
     1 ≤ (1 : Word32).toNat ∧ (1 : Word32).toNat ≤ 256 ∧
       ∀ j < (1 : Word32).toNat, -1 ≤ stagedValue s 0 j ∧ stagedValue s 0 j ≤ 1) ∧
    (let s := with0 fun x => { x with wts := (List.range 256).map fun i => (i, 0x10000) }
     1 ≤ (256 : Word32).toNat ∧ (256 : Word32).toNat ≤ 256 ∧
       ∀ j < (256 : Word32).toNat, -1 ≤ stagedValue s 0 j ∧ stagedValue s 0 j ≤ 1) := by
  decide +kernel

/-- The first and the last sample out of range; the lengths 0 and 257. -/
theorem witness_WtCommitFailsWhole :
    (let s := with0 fun x => { x with wts := [(0, 0x10001)] }
     0 < (1 : Word32).toNat ∧ 1 < stagedValue s 0 0) ∧
    (let s := with0 fun x => { x with wts := [(0, 0), (1, 0xFFFEFFFF)] }
     1 < (2 : Word32).toNat ∧ (∀ i < 1, -1 ≤ stagedValue s 0 i ∧ stagedValue s 0 i ≤ 1) ∧
       stagedValue s 0 1 < -1) ∧
    (0 : Word32).toNat = 0 ∧ 256 < (257 : Word32).toNat := by decide +kernel

theorem witness_WtFromEnvSamplesTheShape :
    (((with0 (env0 3 echo4)).channel 0).slot 3).env = some echo4 ∧
    ((State.reset.channel 0).slot 3).env = none := by decide +kernel

theorem witness_EnvStagingWritesOneField :
    (3 : BitVec 4).toNat < 4 ∧ (31 : BitVec 12).toNat < State.reset.params.kMax ∧
    (0 : BitVec 12).toNat < State.reset.params.kMax := by decide

/-- One knot of slot 0 at the lowest legal value. -/
theorem witness_EnvBuildInstallsTheSortedKnots :
    let s := with0 fun x => x.setSlot 0 { x.slot 0 with
      sknotTime := [(0, 0)], sknotValue := [(0, 0)], sknotInterp := [(0, .linear)] }
    1 ≤ (1 : Word32).toNat ∧ (1 : Word32).toNat ≤ 32 ∧
      ∀ k ∈ (List.range (1 : Word32).toNat).map (stagedKnot s 0 0), lowest 0 ≤ k.value ∧ k.value ≤ 1 := by
  decide +kernel

/-- A value below the range of slot 0, and one above the range of slot 1; the counts 0 and 33. -/
theorem witness_EnvBuildFailsWhole :
    (let s := with0 fun x => x.setSlot 0 { x.slot 0 with sknotValue := [(0, 0xFFFFFFFF)] }
     0 < (1 : Word32).toNat ∧ (stagedKnot s 0 0 0).value < lowest 0) ∧
    (let s := with0 fun x => x.setSlot 1 { x.slot 1 with sknotValue := [(0, 0xFFFF0000), (1, 0x10001)] }
     1 < (32 : Word32).toNat ∧
       (∀ k < 1, lowest 1 ≤ (stagedKnot s 0 1 k).value ∧ (stagedKnot s 0 1 k).value ≤ 1) ∧
       1 < (stagedKnot s 0 1 1).value) ∧
    (0 : Word32).toNat = 0 ∧ 32 < (33 : Word32).toNat := by decide +kernel

theorem witness_EnvSlotCommandsActOnTheEnvelope :
    (((with0 (env0 1 echo4)).channel 0).slot 1).env = some echo4 ∧
    ((State.reset.channel 0).slot 1).env = none := by decide +kernel

theorem witness_PeekHoldsTheFirstValue :
    echo4.knots = ⟨0, 0, .linear⟩ :: k4.tail ∧ (0 : ℚ) ≤ (⟨0, 0, .linear⟩ : Knot).time := by decide +kernel

/-- A time at a knot and at the last knot. -/
theorem witness_PeekInterpolatesBetweenKnots :
    let e := envBuild k4 .hold 0 0 1
    e.kind = .hold ∧ e.knots.Pairwise (fun a b => a.time ≤ b.time) ∧
    e.knots = [⟨0, 0, .linear⟩] ++ ⟨1, 1, .linear⟩ :: ⟨2, 1 / 2, .linear⟩ :: [⟨3, 0, .linear⟩] ∧
    e.first < 1 ∧ e.knots.getLast? = some ⟨3, 0, .linear⟩ ∧ e.first < 3 := by decide +kernel

/-- A time of the curve, one after it, and a shape whose knots stand at one time. -/
theorem witness_RepeatIsPeriodic :
    (let e := envBuild k4 .cycle 0 0 1
     e.kind = .cycle ∧ (0 : ℚ) ≤ 1 / 1048576 ∧ e.first < 1 ∧ (1 : ℚ) < e.last ∧ e.last ≤ 3 ∧ e.first ≤ 0 ∧
       1 / 1048576 < e.last - e.first) ∧
    (let e := envBuild [⟨1, 0, .linear⟩, ⟨1, 1, .linear⟩] .cycle 0 0 1
     e.kind = .cycle ∧ e.knots.getLast? = some ⟨1, 1, .linear⟩ ∧ e.first < 2 ∧ e.last ≤ 2 ∧
       e.last - e.first ≤ 0) := by decide +kernel

/-- In the attack with the release armed, at the start and at the end of the loop, and in a reversed loop. -/
theorem witness_SustainRepeatsTheLoop :
    (let e := { envBuild k4 .loopPoints 1 2 1 with release := true, lastQuery := some (1 / 2 : ℚ) }
     (e.kind = .loopPoints ∨ e.kind = .echo) ∧ (e.release = false ∨ e.captured = false) ∧
     e.strayed = false ∧ (e.lastQuery.all fun u => decide (u ≤ (1 / 2 : ℚ))) = true ∧
     1 = min e.loopIn.toNat (e.knots.length - 1) ∧ 2 = min e.loopOut.toNat (e.knots.length - 1) ∧
     e.knots[1]? = some ⟨1, 1, .linear⟩ ∧ e.knots[2]? = some ⟨2, 1 / 2, .linear⟩ ∧ e.first < 1 / 2 ∧
     (1 / 2 : ℚ) < 1 ∧ (1 : ℚ) ≤ 2 ∧ (1 / 1048576 : ℚ) < 2 - 1) ∧
    (let e := envBuild k4 .echo 2 1 1
     (e.kind = .loopPoints ∨ e.kind = .echo) ∧ e.release = false ∧ e.strayed = false ∧
     2 = min e.loopIn.toNat (e.knots.length - 1) ∧ 1 = min e.loopOut.toNat (e.knots.length - 1) ∧
     (2 : ℚ) ≤ 2 ∧ (1 - 2 : ℚ) ≤ 0) := by decide +kernel

/-- V-E13 up to its capture at 9/4: an Echo and a LoopPoints envelope, queried again at 9/4 (in the tail)
and at 4 (where the tail of Echo ends); and an Echo envelope with all knots at one time. -/
theorem witness_ReleaseContinuesFromTheCapturedPlace :
    (let e := { echo4 with release := true, lastQuery := some (9 / 4 : ℚ) }
     e.release = true ∧ e.captured = false ∧ e.strayed = false ∧
     (e.lastQuery.all fun u => decide (u ≤ (9 / 4 : ℚ))) = true ∧
     1 = min e.loopIn.toNat (e.knots.length - 1) ∧ 2 = min e.loopOut.toNat (e.knots.length - 1) ∧
     e.knots[1]? = some ⟨1, 1, .linear⟩ ∧ e.knots[2]? = some ⟨2, 1 / 2, .linear⟩ ∧
     e.first < 9 / 4 ∧ (1 : ℚ) ≤ 9 / 4 ∧ e.kind = .echo ∧
     ({ e with kind := .loopPoints } : Envelope).kind = .loopPoints ∧ (1 / 1048576 : ℚ) < 2 - 1 ∧
     (5 / 4 : ℚ) + (9 / 4 - 9 / 4) < e.last ∧ e.last ≤ (5 / 4 : ℚ) + (4 - 9 / 4) ∧
     1 / 1048576 < e.last - e.first) ∧
    (let e := { envBuild [⟨1, 0, .linear⟩, ⟨1, 1, .linear⟩] .echo 0 1 1 with release := true }
     e.release = true ∧ e.captured = false ∧ e.strayed = false ∧ e.lastQuery = none ∧ e.kind = .echo ∧
     0 = min e.loopIn.toNat (e.knots.length - 1) ∧ 1 = min e.loopOut.toNat (e.knots.length - 1) ∧
     e.knots[0]? = some ⟨1, 0, .linear⟩ ∧ e.knots[1]? = some ⟨1, 1, .linear⟩ ∧ e.first < 2 ∧ (1 : ℚ) ≤ 2 ∧
     e.knots.getLast? = some ⟨1, 1, .linear⟩ ∧ (1 - 1 : ℚ) ≤ 0 ∧ e.last ≤ 1 + (2 - 2) ∧
     e.last - e.first ≤ 0) := by decide +kernel

theorem witness_GeneratorStepPermutesTheWords : Config.defaults.Legal ∧ (3 ≤ 3 ∧ 32 ≤ 32) ∧
    (1 : Word32).toNat < 2 ^ 3 ∧ (0xFFFFFFFF : Word32).toNat < 2 ^ 32 :=
  ⟨Laws.defaults_legal, by decide, by decide, by decide⟩

theorem witness_GeneratorPeriodIsMaximal : Config.defaults.Legal ∧ (1 : Word32) ≠ 0 ∧
    (7 : Word32).toNat < 2 ^ 3 ∧ (0xFFFFFFFF : Word32).toNat < 2 ^ 32 :=
  ⟨Laws.defaults_legal, by decide, by decide, by decide⟩

theorem witness_QuantizeReachesExactlyItsLevels :
    2 ≤ 5 ∧ (0 : ℚ) < 1 ∧ (0 : ℚ) ≤ 3 / 10 ∧ (3 / 10 : ℚ) ≤ 1 ∧ 4 < 5 := by norm_num

theorem witness_WrapAndNotesStayInRange : (0 : ℤ) < 10 := by norm_num

theorem witness_NotesAndFrequenciesRoundTrip : 24 ≤ 24 ∧ 96 ≤ 96 ∧ (69 : ℚ) ≤ 81 := by norm_num

end Sys2Proof.Tests
end

