-- ==== Sys2Proof/Proofs/Encoding.lean ====
section
/-! PROOFS. A word that decodes is the encoding of its command (`30_encoding.md` R105), so it matches the
command's row of the opcode table (R98); a word of no row is therefore illegal (R106, R107). -/

namespace Sys2Proof.Proofs.Encoding

open Sys2Proof Sys2Proof.Machine Sys2Proof.Claim Sys2Proof.Laws

/-! ## Operands put together from their fields (R91, R94) -/

/-- The operand `idx` of an envelope command (R91). -/
theorem fieldSlot_append_fieldK (w : Word64) : fieldSlot w ++ fieldK w = fieldIdx w := by
  rw [fieldSlot_eq, fieldK_eq, slot_k_fields]

/-- The operand `idx` of an envelope command that names no knot (R97). -/
theorem fieldSlot_append_zero {w : Word64} (h : fieldK w = 0) : fieldSlot w ++ 0#12 = fieldIdx w := by
  rw [← fieldSlot_append_fieldK, h]; rfl

/-- A vector whose bits above bit 0 are zero is its bit 0. -/
theorem ite_bit_zero_of_upper_zero {n : ℕ} {v : BitVec (n + 1)} (h : v.extractLsb' 1 n = 0) :
    (if v.getLsbD 0 then 1 else 0) = v := by
  have hupper (i : ℕ) (hi : i < n) : v.getLsbD (i + 1) = false := by
    simpa [hi, Nat.add_comm] using congrArg (·.getLsbD i) h
  ext i hi
  rw [← BitVec.getLsbD_eq_getElem (x := v)]
  cases i with
  | zero => cases v.getLsbD 0 <;> simp
  | succ i => rw [hupper i (by omega)]; split <;> simp [BitVec.getElem_one]

/-- A Boolean operand whose reserved bits are zero (R94). -/
theorem boolImm_of_reserved_zero {v : Word32} (h : v.extractLsb' 1 31 = 0) : boolImm v[0] = v :=
  ite_bit_zero_of_upper_zero h

/-- The `idx` field of a pitch command whose reserved bits are zero (R91). -/
theorem rstIdx_of_reserved_zero {w : Word64} (h : (fieldIdx w).extractLsb' 1 15 = 0) :
    rstIdx (fieldRst w) = fieldIdx w := by
  rw [fieldRst_eq]; exact ite_bit_zero_of_upper_zero h

/-- The two halves of the operand of `SET_NOTE` (R94). -/
theorem halves_append (v : Word32) : v.extractLsb' 16 16 ++ v.extractLsb' 0 16 = v := by
  rw [BitVec.extractLsb'_append_extractLsb'_eq_extractLsb' (by rfl)]
  exact BitVec.extractLsb'_eq_self

/-- A loopword whose reserved bits are zero (R94). -/
theorem loopword_of_reserved_zero {v : Word32} (hlow : v.extractLsb' 2 2 = 0)
    (hhigh : v.extractLsb' 28 4 = 0) :
    loopword (loopKindOf (v.extractLsb' 0 2)) (v.extractLsb' 4 12) (v.extractLsb' 16 12) = v := by
  rw [loopword, loopKindBits_of, ← hlow, ← hhigh]
  iterate 4 rw [BitVec.extractLsb'_append_extractLsb'_eq_extractLsb' (by rfl)]
  exact BitVec.extractLsb'_eq_self

/-! ## A word that decodes (R98, R105) -/

/-- An accepted command encodes to the word when its format's fields are the word's. -/
theorem encode_of_accept {w : Word64} {b : Bool} {i j : Instr} {op ch : BitVec 8} {idx : BitVec 16}
    {imm : Word32} (h : accept w b i = .ok j) (hi : encode i = word op ch idx imm)
    (hop : (fieldOp w).toNat = op.toNat)
    (hfields : b = true → ch = fieldCh w ∧ idx = fieldIdx w ∧ imm = fieldImm w) : encode j = w := by
  obtain ⟨hb, rfl⟩ := accept_ok h
  obtain ⟨rfl, rfl, rfl⟩ := hfields hb
  rw [hi, ← BitVec.eq_of_toNat_eq hop, word_fields]

/-- Encoding undoes decoding. In each row of the decoder the fields the format leaves unused are zero, and
those it uses are put together again from the operands; the last case is the reserved opcodes. -/
theorem encode_of_decode {w : Word64} {i : Instr} (h : decode w = .ok i) : encode i = w := by
  simp only [decode] at h
  split at h
  case h_37 => cases h
  all_goals
    refine encode_of_accept h rfl ‹_› ?_
    simp +contextual [fieldSlot_append_fieldK, fieldSlot_append_zero, boolImm_of_reserved_zero,
      rstIdx_of_reserved_zero, halves_append, loopword_of_reserved_zero]

/-- The word of every command matches a row of the opcode table, its own. -/
theorem encode_matches_row : ∀ i : Instr, TableMask.Statement i
  | .nop => TableMask.nop
  | .rreg .. => TableMask.rreg ..
  | .wreg .. => TableMask.wreg ..
  | .rglb .. => TableMask.rglb ..
  | .wglb .. => TableMask.wglb ..
  | .tick => TableMask.tick
  | .iter .. => TableMask.iter ..
  | .chInit .. => TableMask.chInit ..
  | .play .. => TableMask.play ..
  | .stop .. => TableMask.stop ..
  | .release .. => TableMask.release ..
  | .reset .. => TableMask.reset ..
  | .setNote .. => TableMask.setNote ..
  | .setMidi .. => TableMask.setMidi ..
  | .setPitch .. => TableMask.setPitch ..
  | .setVol .. => TableMask.setVol ..
  | .setPan .. => TableMask.setPan ..
  | .setNoise .. => TableMask.setNoise ..
  | .isNoise .. => TableMask.isNoise ..
  | .csample .. => TableMask.csample ..
  | .wtStage .. => TableMask.wtStage ..
  | .wtCommit .. => TableMask.wtCommit ..
  | .wtFromEnv .. => TableMask.wtFromEnv ..
  | .envKnotT .. => TableMask.envKnotT ..
  | .envKnotV .. => TableMask.envKnotV ..
  | .envKnotI .. => TableMask.envKnotI ..
  | .envLoop .. => TableMask.envLoop ..
  | .envDecay .. => TableMask.envDecay ..
  | .envBuild .. => TableMask.envBuild ..
  | .envClear .. => TableMask.envClear ..
  | .envReset .. => TableMask.envReset ..
  | .envRelease .. => TableMask.envRelease ..
  | .envPeek .. => TableMask.envPeek ..
  | .lfsrInit .. => TableMask.lfsrInit ..
  | .lfsrStep .. => TableMask.lfsrStep ..
  | .lfsrOut .. => TableMask.lfsrOut ..

/-- A word that decodes matches a row of the opcode table. -/
theorem decode_ok_matches_row {w : Word64} {i : Instr} (h : decode w = .ok i) :
    ∃ r ∈ opcodeTable, w &&& r.mask = r.pattern := by
  rw [← encode_of_decode h]
  exact encode_matches_row i

/-! ## A word that is no command (R106, R107) -/

/-- A word of no row of the opcode table does not decode. -/
theorem decode_error_of_no_row {w : Word64} (h : ∀ r ∈ opcodeTable, w &&& r.mask ≠ r.pattern) :
    ∃ e, decode w = .error e := by
  cases hd : decode w with
  | error e => exact ⟨e, rfl⟩
  | ok i =>
    obtain ⟨r, hr, hmatch⟩ := decode_ok_matches_row hd
    exact absurd hmatch (h r hr)

/-- The error of an illegal word sets its flag and gives its response (R335). -/
theorem raiseIllegal_eq_failed (s : State) : raiseIllegal s = failed s .illegalCommand 0 := by
  rw [raiseIllegal, raiseError, flag_eq (by decide), failed]

/-- A step that takes a word which does not decode. -/
theorem step_of_decode_error {s : State} {w : Word64} {rest : List Word64} {e : DecodeError}
    (hin : s.inbox = w :: rest) (hd : decode w = .error e) :
    step s = .next (failed { s with inbox := rest } .illegalCommand 0) := by
  rw [step, fetch_of_cons hin, ← raiseIllegal_eq_failed]
  exact runWord_of_error hd _

/-- Settles O6: a word of no row does not decode, and such a word is answered with the error. -/
theorem wordsOffTheTableAreIllegal : Obligations.WordsOffTheTableAreIllegal := by
  intro s w rest hin hoff
  obtain ⟨e, hd⟩ := decode_error_of_no_row hoff
  exact step_of_decode_error hin hd

end Sys2Proof.Proofs.Encoding
end

