-- ==== Sys2Proof/Proofs/MathUtilities.lean ====
section
/-! PROOFS. The integer wrap and the notes made of wrapped parts (`40_math_utilities.md` R124, R128), and the
conversions between notes and frequencies (R126, R127). Of `EXP2` and `LOG2` only the properties of the
`NUM` record are used (R11). -/

namespace Sys2Proof.Proofs.MathUtilities

open Sys2Proof Sys2Proof.Machine Sys2Proof.Laws

/-! ## `wrap` (R124) -/

section Wrap

variable {v m : ℤ}

/-- For a positive modulus the floor quotient of `wrap` is the Euclidean one, so `wrap` is the remainder. -/
theorem wrap_eq_emod (hm : 0 < m) : wrap v m = v % m := by
  rw [wrap, Int.fdiv_eq_ediv_of_nonneg _ hm.le, Int.emod_def]

theorem wrap_eq_sub_mul_floor (hm : 0 < m) : wrap v m = v - m * ⌊(v : ℚ) / m⌋ := by
  rw [wrap_eq_emod hm, Int.emod_def, Int.floor_div_cast_of_nonneg hm.le, Int.floor_intCast]

theorem wrap_nonneg (hm : 0 < m) : 0 ≤ wrap v m := by
  rw [wrap_eq_emod hm]; exact Int.emod_nonneg _ hm.ne'

theorem wrap_lt (hm : 0 < m) : wrap v m < m := by
  rw [wrap_eq_emod hm]; exact Int.emod_lt_of_pos _ hm

theorem dvd_sub_wrap : m ∣ v - wrap v m := ⟨v.fdiv m, by rw [wrap]; ring⟩

theorem wrap_add_self (hm : 0 < m) : wrap (v + m) m = wrap v m := by
  rw [wrap_eq_emod hm, wrap_eq_emod hm, Int.add_emod_right]

end Wrap

/-! ## Notes from octave and semitone (R128) -/

/-- The wrapped octave is in 0 .. 9 and the wrapped semitone in 0 .. 11. -/
theorem noteOf_bounds (octave note : ℤ) : 12 ≤ noteOf octave note ∧ noteOf octave note ≤ 131 := by
  have octave_nonneg : 0 ≤ wrap octave 10 := wrap_nonneg (by decide)
  have octave_lt : wrap octave 10 < 10 := wrap_lt (by decide)
  have note_nonneg : 0 ≤ wrap note 12 := wrap_nonneg (by decide)
  have note_lt : wrap note 12 < 12 := wrap_lt (by decide)
  rw [noteOf]
  omega

theorem noteOf_octave_add_ten (octave note : ℤ) : noteOf (octave + 10) note = noteOf octave note := by
  rw [noteOf, noteOf, wrap_add_self (by decide)]

theorem noteOf_note_add_twelve (octave note : ℤ) : noteOf octave (note + 12) = noteOf octave note := by
  rw [noteOf, noteOf, wrap_add_self (by decide)]

/-- Settles O59: `wrap` is the remainder, and a note is put together from two remainders. -/
theorem wrapAndNotesStayInRange : Obligations.WrapAndNotesStayInRange := by
  refine ⟨fun v m hm => ?_, fun octave note => ?_, by decide⟩
  · exact ⟨wrap_eq_sub_mul_floor hm, wrap_nonneg hm, wrap_lt hm, dvd_sub_wrap⟩
  · obtain ⟨hlow, hhigh⟩ := noteOf_bounds octave note
    exact ⟨rfl, hlow, hhigh, noteOf_octave_add_ten octave note, noteOf_note_add_twelve octave note⟩

/-! ## Notes and frequencies (R126, R127) -/

/-- The frequency of a note is the one the joint properties of R11 speak of. -/
theorem noteToFrequency_eq_noteFreq (m : ℚ) : noteToFrequency m = Config.num.val.noteFreq m := by
  rw [noteToFrequency, exp2_eq, Config.NumFns.noteFreq]

theorem frequencyToNote_eq (f : ℚ) : frequencyToNote f = 69 + 12 * Config.num.val.log2 (f / 440) := by
  rw [frequencyToNote, log2_eq]

theorem noteToFrequency_pos (m : ℚ) : 0 < noteToFrequency m :=
  mul_pos (by norm_num) (exp2_pos _)

theorem noteToFrequency_mono {x y : ℚ} (h : x ≤ y) : noteToFrequency x ≤ noteToFrequency y := by
  have hexp : Config.num.val.exp2 ((x - 69) / 12) ≤ Config.num.val.exp2 ((y - 69) / 12) :=
    num_lawful.exp2_mono _ _ (by gcongr)
  rw [noteToFrequency, noteToFrequency, exp2_eq, exp2_eq]
  gcongr

/-- Whole octaves from note 69 are where R11 fixes `EXP2`: at the integers. -/
theorem noteToFrequency_octave (k : ℤ) : noteToFrequency (69 + 12 * k) = 440 * (2 : ℚ) ^ k := by
  have harg : ((69 + 12 * k : ℚ) - 69) / 12 = k := by ring
  rw [noteToFrequency, exp2_eq, harg, num_lawful.exp2_int]

/-- Octaves of 440 Hz are where R11 fixes `LOG2`: at the powers of two. -/
theorem frequencyToNote_octave (k : ℤ) : frequencyToNote (440 * (2 : ℚ) ^ k) = 69 + 12 * k := by
  have harg : 440 * (2 : ℚ) ^ k / 440 = 2 ^ k := by ring
  rw [frequencyToNote_eq, harg, num_lawful.log2_zpow]

/-- The round trip is the joint property of R11, through the model's own conversions. -/
theorem noteToFrequency_round_trip {n : ℕ} (hlow : 24 ≤ n) (hhigh : n ≤ 96) :
    |noteToFrequency (frequencyToNote (noteToFrequency n)) - noteToFrequency n| < 1 / 100 := by
  simp only [noteToFrequency_eq_noteFreq, frequencyToNote_eq]
  exact num_lawful.round_trip n hlow hhigh

theorem noteToFrequency_middle_c : |noteToFrequency 60 - 26163 / 100| < 1 / 100 := by
  rw [noteToFrequency_eq_noteFreq]; exact num_lawful.middle_c

/-- Settles O60: the conversions are the formulas of R126 and R127 over the record's functions, so the
properties of R11 carry over to them. -/
theorem notesAndFrequenciesRoundTrip : Obligations.NotesAndFrequenciesRoundTrip :=
  ⟨fun m => ⟨noteToFrequency_eq_noteFreq m, noteToFrequency_pos m⟩,
    fun f _ => frequencyToNote_eq f,
    fun _ => noteToFrequency_round_trip,
    noteToFrequency_middle_c,
    fun k => ⟨noteToFrequency_octave k, frequencyToNote_octave k⟩,
    fun _ _ => noteToFrequency_mono⟩

end Sys2Proof.Proofs.MathUtilities
end

