-- ==== Sys2Proof/Proofs/EnvelopeCurve.lean ====
section
/-! PROOFS. The curve of an envelope with sorted knots (`41_envelope.md` R145, R146): between two neighbouring
knots the segment rule finds the left one. Kind `None` answers the curve (R148). -/

namespace Sys2Proof.Proofs.EnvelopeCurve

open Sys2Proof Sys2Proof.Machine Sys2Proof.Laws

/-! ## Knots by index -/

theorem knotAt_of_getElem? {e : Envelope} {i : ℕ} {k : Knot} (h : e.knots[i]? = some k) :
    e.knotAt i = k := by
  rw [Envelope.knotAt, List.getD_eq_getElem?_getD, h, Option.getD_some]

/-- The last knot is the one `K - 1` names. -/
theorem knotAt_last {e : Envelope} {k : Knot} (h : e.knots.getLast? = some k) :
    e.knotAt (e.count - 1) = k :=
  knotAt_of_getElem? (by rw [Envelope.count, ← List.getLast?_eq_getElem?, h])

theorem timeAt_mono {e : Envelope} (hsorted : e.knots.Pairwise fun a b => a.time ≤ b.time) {i j : ℕ}
    (hij : i ≤ j) (hj : j < e.count) : e.timeAt i ≤ e.timeAt j := by
  have hknot : ∀ n (hn : n < e.knots.length), e.timeAt n = e.knots[n].time := fun n hn =>
    congrArg Knot.time (knotAt_of_getElem? (List.getElem?_eq_getElem hn))
  rcases hij.eq_or_lt with rfl | hlt
  · exact le_rfl
  · rw [hknot i (hlt.trans hj), hknot j hj]
    exact List.pairwise_iff_getElem.mp hsorted i j _ hj hlt

/-! ## The curve (R145, R146) -/

/-- On sorted knots a time between two neighbours lies in the segment of the left one: no later knot of
the segment range has been reached. -/
theorem seg_eq_of_between {e : Envelope} (hsorted : e.knots.Pairwise fun a b => a.time ≤ b.time) {i : ℕ}
    {p : ℚ} (hi : i + 1 < e.count) (hleft : e.timeAt i ≤ p) (hright : p < e.timeAt (i + 1)) :
    e.seg p = i := by
  have hfirst : e.first ≤ p := (timeAt_mono hsorted (Nat.zero_le i) (by omega)).trans hleft
  obtain ⟨hseg, hreached⟩ := seg_mem e hfirst (by omega)
  refine le_antisymm ?_ (seg_max e hi hleft)
  by_contra hlater
  have hnext : e.timeAt (i + 1) ≤ e.timeAt (e.seg p) := timeAt_mono hsorted (by omega) (by omega)
  exact absurd (hnext.trans hreached) hright.not_ge

theorem curveAt_of_last_le {e : Envelope} {p : ℚ} (hfirst : e.first < p) (hlast : e.last ≤ p) :
    (e.curveAt p).1 = e.lastValue := by
  rw [Envelope.curveAt, if_neg hfirst.not_ge, if_pos hlast]

/-- Inside the curve the answer is the interpolation of the segment's left knot. -/
theorem curveAt_inside {e : Envelope} {p : ℚ} (hfirst : e.first < p) (hlast : p < e.last) :
    ((e.knotAt (e.seg p)).interp = .step → (e.curveAt p).1 = e.valueAt (e.seg p)) ∧
    ((e.knotAt (e.seg p)).interp = .linear → (e.curveAt p).1 =
      lerp (e.valueAt (e.seg p)) (e.valueAt (e.seg p + 1))
        ((p - e.timeAt (e.seg p)) / (e.timeAt (e.seg p + 1) - e.timeAt (e.seg p)))) := by
  rw [Envelope.curveAt, if_neg hfirst.not_ge, if_neg hlast.not_ge]
  constructor <;> intro hinterp <;> simp only [hinterp]

/-! ## Kind `None` (R148) -/

/-- After the first knot kind `None` answers the curve. -/
theorem peek_hold {e : Envelope} (hkind : e.kind = .hold) (eps free : ℚ) {time : ℚ}
    (hfirst : e.first < time) : (e.peek eps free time).1 = (e.curveAt time).1 := by
  have hnot : ¬ time ≤ (e.noteQuery time).first := hfirst.not_ge
  simp only [Envelope.peek, if_neg hnot, noteQuery_kind, hkind, answer_fst]
  exact curveAt_congr (noteQuery_knots e time) time

/-- Settles O50: kind `None` answers the curve, whose segment between two neighbouring knots is the left
one's, and whose end is the last knot. -/
theorem peekInterpolatesBetweenKnots : Obligations.PeekInterpolatesBetweenKnots := by
  intro e eps time free hkind hsorted
  refine ⟨fun a b before after hknots hfirst hleft hright => ?_, fun b hb hfirst hlast => ?_⟩
  · have ha : e.knotAt before.length = a := knotAt_of_getElem? (by simp [hknots])
    have hb : e.knotAt (before.length + 1) = b := knotAt_of_getElem? (by simp [hknots])
    have hcount : before.length + 1 < e.count := by simp [Envelope.count, hknots]
    have hseg : e.seg time = before.length :=
      seg_eq_of_between hsorted hcount (by rwa [Envelope.timeAt, ha]) (by rwa [Envelope.timeAt, hb])
    have hbefore : time < e.last := calc
      time < b.time := hright
      _ = e.timeAt (before.length + 1) := by rw [Envelope.timeAt, hb]
      _ ≤ e.last := timeAt_mono hsorted (by omega) (by omega)
    obtain ⟨hstep, hlinear⟩ := curveAt_inside hfirst hbefore
    simp only [hseg, Envelope.valueAt, Envelope.timeAt, ha, hb] at hstep hlinear
    rw [peek_hold hkind eps free hfirst]
    cases hinterp : a.interp with
    | step => exact hstep hinterp
    | linear => exact hlinear hinterp
  · have hend : e.last ≤ time := by rwa [Envelope.last, Envelope.timeAt, knotAt_last hb]
    rw [peek_hold hkind eps free hfirst, curveAt_of_last_le hfirst hend, Envelope.lastValue,
      Envelope.valueAt, knotAt_last hb]

end Sys2Proof.Proofs.EnvelopeCurve
end

