-- ==== Sys2Proof/Proofs/ChannelControl.lean ====
section
/-! PROOFS. The noise switch of a channel (`42_channel_control.md` R194, R195). -/

namespace Sys2Proof.Proofs.ChannelControl

open Sys2Proof Sys2Proof.Machine Sys2Proof.Claim Sys2Proof.Laws

/-! ## The shared operations in the words of the statements -/

theorem respond_eq_okay (data : Word64) (s : State) : respond data s = okay s data := rfl

theorem updateChannel_eq_okay (s : State) (c : ℕ) (x : Channel) :
    updateChannel s c x = okay (withChannel s c x) 0 := rfl

/-- A Boolean as response data is its number (R95). -/
theorem zext_encBool (b : Bool) : zext (encBool b) = BitVec.ofNat 64 b.toNat := by
  cases b <;> rfl

/-! ## `SET_NOISE` (R194) -/

/-- The meaning of `SET_NOISE` on a channel that exists: the profile's noise kind decides. -/
theorem exec_setNoise {ch : BitVec 8} {s : State} (h : ch.toNat < s.nCh) (on : Bool) :
    exec (.setNoise ch on) s = .next (
      if (s.channel ch.toNat).active.noiseKind = .silent then okay s 0
      else okay (withChannel s ch.toNat { s.channel ch.toNat with noiseOn := on }) 0) := by
  rw [exec, execSetNoise, onChannel_of_lt h, respond_eq_okay, updateChannel_eq_okay]

/-! ## `IS_NOISE` (R195) -/

theorem exec_isNoise {ch : BitVec 8} {s : State} (h : ch.toNat < s.nCh) :
    exec (.isNoise ch) s =
      .next (okay s (BitVec.ofNat 64 (s.channel ch.toNat).noiseOn.toNat)) := by
  rw [exec, execIsNoise, onChannel_of_lt h, zext_encBool, respond_eq_okay]

/-- Settles O34: the two branches of `SET_NOISE` are a profile without a noise kind and one with, and
`IS_NOISE` only answers. The encodings are the rows of the encoder. -/
theorem noiseSwitchNeedsANoiseKind : Obligations.NoiseSwitchNeedsANoiseKind := by
  intro ch on s hch
  refine ⟨rfl, rfl, fun hsilent => ?_, fun hnoise => ?_, exec_isNoise hch⟩
  · rw [exec_setNoise hch, if_pos hsilent]
  · rw [exec_setNoise hch, if_neg hnoise]

end Sys2Proof.Proofs.ChannelControl
end

