-- ==== Sys2Proof/Proofs/ChannelSample.lean ====
section
/-! PROOFS. The sample of a stopped channel and the staging of wavetable entries (`43_channel_sample.md` R220
to R222, R241). -/

namespace Sys2Proof.Proofs.ChannelSample

open Sys2Proof Sys2Proof.Machine Sys2Proof.Claim Sys2Proof.Laws
open Sys2Proof.Proofs.ChannelControl (respond_eq_okay updateChannel_eq_okay)

/-! ## The shared operations in the words of the statements -/

theorem setChannel_eq_withChannel (s : State) (c : ℕ) (x : Channel) :
    s.setChannel c x = withChannel s c x := rfl

/-- A command error sets its flag and gives its response (R335). -/
theorem raiseError_eq_failed {e : Status} (he : e ≠ .ok) (data : Word64) (s : State) :
    raiseError e data s = failed s e data := by
  rw [raiseError, flag_eq he, failed]

theorem encQ16_eq_fixed16 (x : ℚ) : encQ16 x = fixed16 x := rfl

theorem channelFrameData_eq (l r : ℚ) : channelFrameData l r = fixed16 l ++ fixed16 r := by
  rw [channelFrameData, encQ16_eq_fixed16, encQ16_eq_fixed16]

/-! ## `CSAMPLE` (R220 to R222) -/

/-- The meaning of `CSAMPLE` on a channel that exists: the sampled channel is stored and its frame answered. -/
theorem exec_csample {ch : BitVec 8} {s : State} (h : ch.toNat < s.nCh) (imm : Word32) :
    exec (.csample ch imm) s =
      let y := (s.channel ch.toNat).sample s.params ch.toNat (uq32 imm)
      .next (okay (withChannel s ch.toNat y) (fixed16 y.frameL ++ fixed16 y.frameR)) := by
  simp only [exec, execCsample, onChannel_of_lt h, channelFrameData_eq, respond_eq_okay,
    setChannel_eq_withChannel]

/-- The decay writes the held output alone, so it does not start a channel (R221). -/
theorem decayOut_playing (x : Channel) : x.decayOut.playing = x.playing := rfl

/-- A stopped channel's sample ends after step 2, whatever the time passed (R222). -/
theorem sample_of_stopped {x : Channel} (h : x.playing = false) (p : Config.Params) (c : ℕ) (delta : ℚ) :
    x.sample p c delta = x.decayOut.stoppedFrame := by
  rw [Channel.sample, decayOut_playing, if_neg (by simp [h])]

/-- Steps 1 and 2 of a stopped channel together: the decayed output, and the frame made of it. -/
theorem stoppedFrame_decayOut (x : Channel) :
    x.decayOut.stoppedFrame =
      let o := x.out * (1 - x.active.volAttn)
      { x with out := o, frameL := o * x.leftMult, frameR := o * x.rightMult } := rfl

/-- Settles O35: a stopped channel's sample is the decay and the stopped frame, and `CSAMPLE` stores and
answers it. -/
theorem stoppedSampleIsTheDecayingOutput : Obligations.StoppedSampleIsTheDecayingOutput := by
  intro ch imm s hch c x o hstopped
  have hsample : x.sample s.params c (uq32 imm) =
      { x with out := o, frameL := o * x.leftMult, frameR := o * x.rightMult } := by
    rw [sample_of_stopped hstopped, stoppedFrame_decayOut]
  rw [exec_csample hch, hsample]

/-! ## `WT_STAGE` (R241) -/

/-- The meaning of `WT_STAGE` on a channel that exists: the size of the staging RAM decides. -/
theorem exec_wtStage {ch : BitVec 8} {s : State} (h : ch.toNat < s.nCh) (idx : BitVec 16) (imm : Word32) :
    exec (.wtStage ch idx imm) s = .next (
      if idx.toNat < s.params.wtMax then
        let x := s.channel ch.toNat
        okay (withChannel s ch.toNat { x with wts := Memory.write x.wts idx.toNat imm }) 0
      else failed s .badOperand (BitVec.ofNat 64 idx.toNat)) := by
  rw [exec, execWtStage, onChannel_of_lt h, updateChannel_eq_okay, raiseError_eq_failed (by decide),
    idx_data]

/-- Settles O41: inside the staging RAM the memory written is the witness, and its reads are the rules of a
write; outside it the command is refused. The encoding is the row of the encoder. -/
theorem wtStageWritesOneEntry : Obligations.WtStageWritesOneEntry := by
  intro ch idx imm s hch c x
  refine ⟨rfl, fun hinside => ⟨Memory.write x.wts idx.toNat imm, ?_, ?_, fun j hj => ?_⟩, fun houtside => ?_⟩
  · rw [exec_wtStage hch, if_pos hinside]
  · exact Memory.read_write_same x.wts idx.toNat imm
  · exact Memory.read_write_other x.wts imm hj
  · rw [exec_wtStage hch, if_neg houtside.not_gt]

end Sys2Proof.Proofs.ChannelSample
end

