-- ==== Sys2Proof/Proofs/SystemCommands.lean ====
section
/-! PROOFS. The system commands (`47_system.md` R310 to R314): `NOP`, and the read and write of the channel and
of the global registers. The lists of registers that the statements name are blocks of consecutive numbers,
the ones the model's register file is made of. -/

namespace Sys2Proof.Proofs.SystemCommands

open Sys2Proof Sys2Proof.Machine Sys2Proof.Claim Sys2Proof.Laws
open Sys2Proof.Proofs.Encoding (encode_of_decode)
open Sys2Proof.Proofs.ChannelControl (respond_eq_okay updateChannel_eq_okay)
open Sys2Proof.Proofs.ChannelSample (raiseError_eq_failed)

/-! ## The refusal of a register number -/

/-- A register number that is refused: the error with the number as data (R333). -/
theorem refuse_idx_eq_failed (idx : BitVec 16) (s : State) :
    raiseError .badOperand (idx.setWidth 64) s = failed s .badOperand (BitVec.ofNat 64 idx.toNat) := by
  rw [raiseError_eq_failed (by decide), idx_data]

/-! ## Blocks of registers -/

/-- The registers of one block: those numbered from `start` on, each with what `f` gives for its number. -/
def block {α : Type} (start len : ℕ) (f : ℕ → α) : List (ℕ × α) :=
  (List.range' start len).map fun n => (n, f n)

theorem mem_block_iff {α : Type} {start len n : ℕ} {f : ℕ → α} {v : α} :
    (n, v) ∈ block start len f ↔ (start ≤ n ∧ n < start + len) ∧ f n = v := by
  simp only [block, List.mem_map, List.mem_range'_1, Prod.mk.injEq]
  constructor
  · rintro ⟨k, hk, rfl, hv⟩
    exact ⟨hk, hv⟩
  · rintro ⟨hn, hv⟩
    exact ⟨n, hn, rfl, hv⟩

theorem mem_block_fst {α : Type} {start len n : ℕ} {f : ℕ → α} (h : start ≤ n ∧ n < start + len) :
    n ∈ (block start len f).map Prod.fst :=
  List.mem_map_of_mem (mem_block_iff.2 ⟨h, rfl⟩)

/-! ## Register words (R45, R95) -/

theorem encBool_eq_ofNat (b : Bool) : encBool b = BitVec.ofNat 32 b.toNat := by
  cases b <;> rfl

/-- The bits of `CH_STATUS` as a sum of their places (R45). -/
theorem statusBits_eq_ofNat : ∀ playing released noiseOn dirty : Bool,
    (0 : BitVec 28) ++ BitVec.ofBool dirty ++ BitVec.ofBool noiseOn ++ BitVec.ofBool released ++
        BitVec.ofBool playing =
      BitVec.ofNat 32 (playing.toNat + 2 * released.toNat + 4 * noiseOn.toNat + 8 * dirty.toNat) := by
  decide

theorem chStatus_eq_ofNat (x : Channel) :
    chStatus x = BitVec.ofNat 32 (x.playing.toNat + 2 * x.released.toNat + 4 * x.noiseOn.toNat +
      8 * x.dirty.toNat) :=
  statusBits_eq_ofNat x.playing x.released x.noiseOn x.dirty

theorem staged_getD (x : Channel) {n : ℕ} (h : n < 22) : x.staged.toList.getD n 0 = x.staged[n] := by
  rw [List.getD_eq_getElem _ _ (by simpa using h), Vector.getElem_toList]

/-! ## Reading a channel register (R40, R311) -/

section ReadReg

variable (x : Channel) {n : ℕ}

theorem readReg_staged (h : n < 22) : x.readReg n = some (x.staged.toList.getD n 0) := by
  rw [Channel.readReg, dif_pos h, staged_getD x h]

theorem readReg_live (h : 0x20 ≤ n ∧ n < 0x20 + 7) : x.readReg n = some (x.live.word n) := by
  rw [Channel.readReg, dif_neg (by omega), if_pos (by omega)]

theorem readReg_status (h : 0x40 ≤ n ∧ n < 0x40 + 13) : x.readReg n = some (x.statusWord n) := by
  rw [Channel.readReg, dif_neg (by omega), if_neg (by omega), if_pos (by omega)]

theorem readReg_mirror (h : 0x60 ≤ n ∧ n < 0x60 + 22) :
    x.readReg n = some (x.active.mirror (n - 0x60)) := by
  rw [Channel.readReg, dif_neg (by omega), if_neg (by omega), if_neg (by omega), if_pos (by omega)]

/-- A number of no block is no register (R40). -/
theorem readReg_none (hstaged : ¬n < 22) (hlive : ¬(0x20 ≤ n ∧ n < 0x20 + 7))
    (hstatus : ¬(0x40 ≤ n ∧ n < 0x40 + 13)) (hmirror : ¬(0x60 ≤ n ∧ n < 0x60 + 22)) :
    x.readReg n = none := by
  rw [Channel.readReg, dif_neg hstaged, if_neg (by omega), if_neg (by omega), if_neg (by omega)]

/-- The registers of the statement are the four readable blocks of R40. -/
theorem channelRegisters_eq_blocks : channelRegisters x =
    block 0 22 (fun n => x.staged.toList.getD n 0) ++ (block 0x20 7 x.live.word ++
      (block 0x40 13 x.statusWord ++ block 0x60 22 fun n => x.active.mirror (n - 0x60))) := by
  simp only [channelRegisters, ← chStatus_eq_ofNat, ← encBool_eq_ofNat]
  rfl

/-- Every register of the statement reads as its word. -/
theorem readReg_of_mem {v : Word32} (h : (n, v) ∈ channelRegisters x) : x.readReg n = some v := by
  simp only [channelRegisters_eq_blocks, List.mem_append, mem_block_iff] at h
  obtain ⟨hn, rfl⟩ | ⟨hn, rfl⟩ | ⟨hn, rfl⟩ | ⟨hn, rfl⟩ := h
  · exact readReg_staged x (by omega)
  · exact readReg_live x hn
  · exact readReg_status x hn
  · exact readReg_mirror x hn

/-- A number the statement does not list lies in no block. -/
theorem readReg_of_not_mem (h : n ∉ (channelRegisters x).map Prod.fst) : x.readReg n = none := by
  simp only [channelRegisters_eq_blocks, List.map_append, List.mem_append, not_or] at h
  obtain ⟨hstaged, hlive, hstatus, hmirror⟩ := h
  exact readReg_none x (fun hn => hstaged (mem_block_fst (by omega))) (fun hn => hlive (mem_block_fst hn))
    (fun hn => hstatus (mem_block_fst hn)) (fun hn => hmirror (mem_block_fst hn))

end ReadReg

section Rreg

variable {ch : BitVec 8} {idx : BitVec 16} {s : State} (hch : ch.toNat < s.nCh)
include hch

theorem exec_rreg_of_some {w : Word32} (h : (s.channel ch.toNat).readReg idx.toNat = some w) :
    exec (.rreg ch idx) s = .next (okay s (BitVec.ofNat 64 w.toNat)) := by
  simp only [exec, execRreg, onChannel_of_lt hch, h, zext_eq, respond_eq_okay]

theorem exec_rreg_of_none (h : (s.channel ch.toNat).readReg idx.toNat = none) :
    exec (.rreg ch idx) s = .next (failed s .badOperand (BitVec.ofNat 64 idx.toNat)) := by
  simp only [exec, execRreg, onChannel_of_lt hch, h, refuse_idx_eq_failed]

end Rreg

/-- Settles O15: the listed registers are the model's four readable blocks, and `RREG` answers what the block
of the number holds. -/
theorem readRegisterAnswersItsWord : Obligations.ReadRegisterAnswersItsWord := by
  intro ch idx s hch
  refine ⟨rfl, fun v hv => ?_, fun hnot => ?_⟩
  · exact exec_rreg_of_some hch (readReg_of_mem _ hv)
  · exact exec_rreg_of_none hch (readReg_of_not_mem _ hnot)

/-! ## Writing a channel register (R40, R312) -/

section WriteReg

variable (x : Channel) {n : ℕ} (w : Word32)

theorem writeReg_staged (h : n < 22) :
    x.writeReg n w = some { x with staged := x.staged.set n w h } := by
  rw [Channel.writeReg, dif_pos h]

theorem writeReg_live (h : 0x20 ≤ n ∧ n < 0x20 + 7) :
    x.writeReg n w = some { x with live := x.live.write n w, dirty := true } := by
  rw [Channel.writeReg, dif_neg (by omega), if_pos (by omega)]

theorem writeReg_none (hstaged : ¬n < 22) (hlive : ¬(0x20 ≤ n ∧ n < 0x20 + 7)) :
    x.writeReg n w = none := by
  rw [Channel.writeReg, dif_neg hstaged, if_neg (by omega)]

/-- The live registers of the statement are the block the model writes, with the same conversions. -/
theorem liveWrites_eq_block (v : Live) : liveWrites v w = block 0x20 7 (v.write · w) := rfl

end WriteReg

section Wreg

variable {ch : BitVec 8} {idx : BitVec 16} {imm : Word32} {s : State} (hch : ch.toNat < s.nCh)
include hch

theorem exec_wreg_of_some {x : Channel}
    (h : (s.channel ch.toNat).writeReg idx.toNat imm = some x) :
    exec (.wreg ch idx imm) s = .next (okay (withChannel s ch.toNat x) 0) := by
  simp only [exec, execWreg, onChannel_of_lt hch, h, updateChannel_eq_okay]

theorem exec_wreg_of_none (h : (s.channel ch.toNat).writeReg idx.toNat imm = none) :
    exec (.wreg ch idx imm) s = .next (failed s .badOperand (BitVec.ofNat 64 idx.toNat)) := by
  simp only [exec, execWreg, onChannel_of_lt hch, h, refuse_idx_eq_failed]

end Wreg

/-- Settles O16: a staged number, a live number and any other are the three branches of the model's write. -/
theorem writeRegisterStoresItsWord : Obligations.WriteRegisterStoresItsWord := by
  intro ch idx imm s hch c x
  refine ⟨rfl, fun hn => ?_, fun v hv => ?_, fun hstaged hlive => ?_⟩
  · exact exec_wreg_of_some hch (writeReg_staged x imm hn)
  · rw [liveWrites_eq_block, mem_block_iff] at hv
    obtain ⟨hn, rfl⟩ := hv
    exact exec_wreg_of_some hch (writeReg_live x imm hn)
  · rw [liveWrites_eq_block] at hlive
    exact exec_wreg_of_none hch
      (writeReg_none x imm hstaged.not_gt fun hn => hlive (mem_block_fst hn))

/-! ## Reading a global register (R34, R313) -/

/-- The global registers and the number each reads as (R34, R313). -/
def globalRegisters (s : State) : List (ℕ × ℕ) :=
  [ (0, s.sampleRate.toNat), (1, s.peak.toNat), (2, s.counter % 2 ^ 32),
    (3, s.counter / 2 ^ 32 % 2 ^ 32), (4, s.errflags.toNat), (5, s.nCh % 2 ^ 32) ]

theorem errflags_word_toNat (flags : BitVec 4) : (flags.setWidth 32).toNat = flags.toNat :=
  BitVec.toNat_setWidth_of_le (by decide)

/-- Every listed register exists and its word is the listed number. -/
theorem readGlobal_of_mem {s : State} {n v : ℕ} (h : (n, v) ∈ globalRegisters s) :
    ∃ w, s.readGlobal n = some w ∧ w.toNat = v := by
  simp only [globalRegisters, List.mem_cons, Prod.mk.injEq, List.not_mem_nil, or_false] at h
  obtain ⟨rfl, rfl⟩ | ⟨rfl, rfl⟩ | ⟨rfl, rfl⟩ | ⟨rfl, rfl⟩ | ⟨rfl, rfl⟩ | ⟨rfl, rfl⟩ := h
  · exact ⟨s.sampleRate, rfl, rfl⟩
  · exact ⟨s.peak, rfl, rfl⟩
  · exact ⟨BitVec.ofNat 32 s.counter, rfl, BitVec.toNat_ofNat ..⟩
  · exact ⟨BitVec.ofNat 32 (s.counter / 2 ^ 32), rfl, BitVec.toNat_ofNat ..⟩
  · exact ⟨s.errflags.setWidth 32, rfl, errflags_word_toNat _⟩
  · exact ⟨BitVec.ofNat 32 s.nCh, rfl, BitVec.toNat_ofNat ..⟩

theorem readGlobal_of_gt (s : State) {n : ℕ} (h : 5 < n) : s.readGlobal n = none := by
  obtain ⟨k, rfl⟩ := Nat.exists_eq_add_of_le' h
  rfl

theorem exec_rglb_of_some {idx : BitVec 16} {s : State} {w : Word32}
    (h : s.readGlobal idx.toNat = some w) :
    exec (.rglb idx) s = .next (okay s (BitVec.ofNat 64 w.toNat)) := by
  simp only [exec, execRglb, h, zext_eq, respond_eq_okay]

theorem exec_rglb_of_none {idx : BitVec 16} {s : State} (h : s.readGlobal idx.toNat = none) :
    exec (.rglb idx) s = .next (failed s .badOperand (BitVec.ofNat 64 idx.toNat)) := by
  simp only [exec, execRglb, h, refuse_idx_eq_failed]

/-- Settles O17: the six numbers have their words, and a number above them has none. -/
theorem readGlobalAnswersItsWord : Obligations.ReadGlobalAnswersItsWord := by
  intro idx s registers
  refine ⟨rfl, fun v hv => ?_, fun hgt => ?_⟩
  · obtain ⟨w, hread, rfl⟩ := readGlobal_of_mem hv
    exact exec_rglb_of_some hread
  · exact exec_rglb_of_none (readGlobal_of_gt s hgt)

/-! ## Writing a global register (R34, R314) -/

section WriteGlobal

variable (s : State) {w : Word32}

/-- A new sample rate re-bases the previous elapsed time (R293). -/
theorem writeGlobal_rate (hw : w ≠ 0) : s.writeGlobal 0 w =
    some { s with sampleRate := w, prevElapsed := (s.counter : ℚ) / (w.toNat : ℚ) } := by
  rw [State.writeGlobal, if_neg hw]

theorem writeGlobal_peak (hw : w ≠ 0) : s.writeGlobal 1 w = some { s with peak := w } := by
  rw [State.writeGlobal, if_neg hw]

theorem writeGlobal_zero (n : ℕ) : s.writeGlobal n 0 = none := by
  exact if_pos rfl

/-- The numbers from 2 on are read-only or name nothing. -/
theorem writeGlobal_of_gt {n : ℕ} (h : 1 < n) : s.writeGlobal n w = none := by
  obtain ⟨k, rfl⟩ := Nat.exists_eq_add_of_le' h
  exact ite_self none

end WriteGlobal

theorem exec_wglb_of_some {idx : BitVec 16} {imm : Word32} {s t : State}
    (h : s.writeGlobal idx.toNat imm = some t) : exec (.wglb idx imm) s = .next (okay t 0) := by
  simp only [exec, execWglb, h, respond_eq_okay]

theorem exec_wglb_of_none {idx : BitVec 16} {imm : Word32} {s : State}
    (h : s.writeGlobal idx.toNat imm = none) :
    exec (.wglb idx imm) s = .next (failed s .badOperand (BitVec.ofNat 64 idx.toNat)) := by
  simp only [exec, execWglb, h, refuse_idx_eq_failed]

/-- Settles O18: the two writable registers take a value other than zero; a zero value and every higher
number are refused. -/
theorem writeGlobalSetsRateOrPeak : Obligations.WriteGlobalSetsRateOrPeak := by
  intro idx imm s
  refine ⟨rfl, ?_, ?_, ?_⟩
  · rintro rfl hw
    exact exec_wglb_of_some (writeGlobal_rate s hw)
  · rintro rfl hw
    exact exec_wglb_of_some (writeGlobal_peak s hw)
  · rintro (rfl | hgt)
    · exact exec_wglb_of_none (writeGlobal_zero s _)
    · exact exec_wglb_of_none (writeGlobal_of_gt s hgt)

/-! ## `NOP` (R310) -/

/-- A word below `2 ^ 56` has opcode 0 (R91). -/
theorem fieldOp_of_lt {w : Word64} (h : w.toNat < 2 ^ 56) : fieldOp w = 0 := by
  apply BitVec.eq_of_toNat_eq
  rw [fieldOp, BitVec.extractLsb'_toNat, Nat.shiftRight_eq_div_pow, Nat.div_eq_of_lt h]
  rfl

/-- A word of opcode 0 is `NOP` or has a reserved bit set (R98, R106). -/
theorem decode_of_fieldOp_zero {w : Word64} (h : fieldOp w = 0) :
    decode w = .ok .nop ∨ decode w = .error (.reservedBits 0) := by
  simp only [decode, h, accept]
  exact ite_eq_or_eq ..

theorem decode_eq_nop_iff {w : Word64} : decode w = .ok .nop ↔ w = 0 := by
  constructor
  · intro h
    exact (encode_of_decode h).symm
  · rintro rfl
    rfl

/-- Settles O14: the word of `NOP` is zero because encoding undoes decoding; any other word of opcode 0 has a
reserved bit set. -/
theorem nopOnlyAnswers : Obligations.NopOnlyAnswers := by
  refine ⟨fun w => decode_eq_nop_iff, fun w hw hlt => ?_, fun s => rfl⟩
  obtain hnop | hreserved := decode_of_fieldOp_zero (fieldOp_of_lt hlt)
  · exact absurd (decode_eq_nop_iff.1 hnop) hw
  · exact hreserved

end Sys2Proof.Proofs.SystemCommands
end

