-- ==== Sys2Proof/Proofs/Exceptions.lean ====
section
/-! PROOFS. Every word is answered once, and the answer is a success that leaves the error flags or an error
that changes its flag alone (`60_exceptions.md` R335). `Answered` says what one command may leave; each shared
operation of the model leaves that, so each command does, and so does the step that takes a word. -/

namespace Sys2Proof.Proofs.Exceptions

open Sys2Proof Sys2Proof.Machine Sys2Proof.Claim Sys2Proof.Laws
open Sys2Proof.Proofs.ChannelSample (raiseError_eq_failed)

/-! ## What a command leaves (R14, R335) -/

/-- `u` has the words presented, the responses and the error flags of `s`: the fields that belong to the answer
of a command and not to its work. -/
structure KeepsPorts (s u : State) : Prop where
  inbox : u.inbox = s.inbox
  responses : u.responses = s.responses
  errflags : u.errflags = s.errflags

/-- All a command may leave: the success of some work that kept the ports, or an error raised from the state
as it was. -/
inductive Answered (s : State) : State → Prop where
  | success {u : State} (data : Word64) (h : KeepsPorts s u) : Answered s (respond data u)
  | error {e : Status} (data : Word64) (he : e ≠ .ok) : Answered s (raiseError e data s)

/-- The command ends in a next state, and that state is its answer. -/
def AnswersOnce (s : State) (o : Host.Outcome State Fault Refusal) : Prop :=
  ∃ t, o = .next t ∧ Answered s t

/-- The answer in the words of R335: one response more, and an error changes nothing but its flag. -/
theorem Answered.response {s t : State} (h : Answered s t) :
    ∃ r : Response, t.responses = s.responses ++ [r] ∧ t.inbox = s.inbox ∧
      (r.status = .ok → t.errflags = s.errflags) ∧
      (r.status ≠ .ok → t = failed s r.status r.data) := by
  cases h with
  | @success u data hkeeps =>
    refine ⟨⟨.ok, data⟩, ?_, hkeeps.inbox, fun _ => hkeeps.errflags, fun hne => absurd rfl hne⟩
    rw [respond_responses, hkeeps.responses]
  | @error e data he =>
    exact ⟨⟨e, data⟩, rfl, rfl, fun hok => absurd hok he, fun _ => raiseError_eq_failed he data s⟩

/-! ## The shared operations -/

section Operations

variable {s : State}

theorem KeepsPorts.refl (s : State) : KeepsPorts s s := ⟨rfl, rfl, rfl⟩

theorem setChannel_keepsPorts (s : State) (c : ℕ) (x : Channel) : KeepsPorts s (s.setChannel c x) :=
  ⟨rfl, rfl, rfl⟩

theorem ticks_keepsPorts (n : ℕ) (s : State) : KeepsPorts s (ticks n s) := by
  induction n generalizing s with
  | zero => exact .refl s
  | succ n ih =>
    obtain ⟨hinbox, hresponses, herrflags⟩ := ih (tick s)
    exact ⟨hinbox, hresponses, herrflags⟩

/-- A global write sets the rate or the peak and no port (R314). -/
theorem writeGlobal_keepsPorts {t : State} {n : ℕ} {w : Word32} (h : s.writeGlobal n w = some t) :
    KeepsPorts s t := by
  unfold State.writeGlobal at h
  split_ifs at h
  split at h
  · cases h
    exact ⟨rfl, rfl, rfl⟩
  · cases h
    exact ⟨rfl, rfl, rfl⟩
  · cases h

theorem respond_answered (data : Word64) : Answered s (respond data s) := .success data (.refl s)

theorem respond_setChannel_answered (data : Word64) (c : ℕ) (x : Channel) :
    Answered s (respond data (s.setChannel c x)) :=
  .success data (setChannel_keepsPorts s c x)

theorem updateChannel_answered (c : ℕ) (x : Channel) : Answered s (updateChannel s c x) :=
  respond_setChannel_answered 0 c x

theorem badOperand_answered (data : Word64) : Answered s (raiseError .badOperand data s) :=
  .error data (by decide)

theorem ite_answered {p : Prop} [Decidable p] {t u : State} (ht : Answered s t) (hu : Answered s u) :
    Answered s (if p then t else u) := by
  split
  · exact ht
  · exact hu

theorem onChannel_answersOnce {ch : BitVec 8} {body : ℕ → State} (h : ∀ c, Answered s (body c)) :
    AnswersOnce s (onChannel ch s body) :=
  ⟨_, rfl, ite_answered (h ch.toNat) (badOperand_answered 0)⟩

theorem onSlot_answered {slot : BitVec 4} {body : Fin 4 → State} (h : ∀ i, Answered s (body i)) :
    Answered s (onSlot slot s body) := by
  obtain ⟨i, -, hrun⟩ | ⟨-, hrefused⟩ := onSlot_cases slot s body
  · rw [hrun]
    exact h i
  · rw [hrefused]
    exact badOperand_answered 0

/-- The checks of every envelope command: its channel, then its slot. -/
theorem onChannel_onSlot_answersOnce {ch : BitVec 8} {slot : BitVec 4} {body : ℕ → Fin 4 → State}
    (h : ∀ c i, Answered s (body c i)) :
    AnswersOnce s (onChannel ch s fun c => onSlot slot s (body c)) :=
  onChannel_answersOnce fun c => onSlot_answered (h c)

theorem onKnot_answersOnce {ch : BitVec 8} {slot : BitVec 4} {k : BitVec 12} {write : EnvSlot → EnvSlot} :
    AnswersOnce s (onKnot ch slot k s write) :=
  onChannel_onSlot_answersOnce fun _ _ => ite_answered (updateChannel_answered ..) (badOperand_answered 0)

theorem onPresent_answersOnce {ch : BitVec 8} {slot : BitVec 4} {body : ℕ → Fin 4 → State}
    (h : ∀ c i, Answered s (body c i)) : AnswersOnce s (onPresent ch slot s body) :=
  onChannel_onSlot_answersOnce fun c i => ite_answered (h c i) (badOperand_answered 0)

end Operations

/-! ## The commands with a check of their own (R333) -/

section Commands

variable (ch : BitVec 8) (slot : BitVec 4) (idx : BitVec 16) (imm : Word32) (s : State)

theorem execRreg_answersOnce : AnswersOnce s (execRreg ch idx s) := by
  refine onChannel_answersOnce fun c => ?_
  cases (s.channel c).readReg idx.toNat with
  | none => exact badOperand_answered _
  | some w => exact respond_answered _

theorem execWreg_answersOnce : AnswersOnce s (execWreg ch idx imm s) := by
  refine onChannel_answersOnce fun c => ?_
  cases (s.channel c).writeReg idx.toNat imm with
  | none => exact badOperand_answered _
  | some x => exact updateChannel_answered c x

theorem execRglb_answersOnce : AnswersOnce s (execRglb idx s) := by
  refine ⟨_, rfl, ?_⟩
  cases s.readGlobal idx.toNat with
  | none => exact badOperand_answered _
  | some w => exact respond_answered _

theorem execWglb_answersOnce : AnswersOnce s (execWglb idx imm s) := by
  refine ⟨_, rfl, ?_⟩
  cases hwrite : s.writeGlobal idx.toNat imm with
  | none => exact badOperand_answered _
  | some t => exact .success 0 (writeGlobal_keepsPorts hwrite)

theorem execChInit_answersOnce : AnswersOnce s (execChInit ch s) := by
  refine onChannel_answersOnce fun c => ?_
  cases firstBadRegister s.params.wtMax (s.channel c).staged with
  | none => exact updateChannel_answered ..
  | some r => exact badOperand_answered _

theorem execWtCommit_answersOnce : AnswersOnce s (execWtCommit ch imm s) := by
  refine onChannel_answersOnce fun c => ite_answered (badOperand_answered _) ?_
  cases (s.channel c).firstBadSample s.commandNo c imm.toNat with
  | none => exact updateChannel_answered ..
  | some j => exact .error _ (by decide)

theorem execEnvBuild_answersOnce : AnswersOnce s (execEnvBuild ch slot imm s) := by
  refine onChannel_onSlot_answersOnce fun c i => ite_answered (badOperand_answered _) ?_
  dsimp only
  split
  · exact .error _ (by decide)
  · exact updateChannel_answered ..

end Commands

/-! ## Every command, every word -/

/-- Apart from the commands above, a command is one of the shared operations around a body that stores a
channel, answers, or does both. -/
theorem exec_answersOnce (i : Instr) (s : State) : AnswersOnce s (exec i s) := by
  cases i with
  | nop => exact ⟨_, rfl, respond_answered 0⟩
  | rreg ch idx => exact execRreg_answersOnce ch idx s
  | wreg ch idx imm => exact execWreg_answersOnce ch idx imm s
  | rglb idx => exact execRglb_answersOnce idx s
  | wglb idx imm => exact execWglb_answersOnce idx imm s
  | tick => exact ⟨_, rfl, .success _ (ticks_keepsPorts 1 s)⟩
  | iter imm => exact ⟨_, rfl, .success _ (ticks_keepsPorts imm.toNat s)⟩
  | chInit ch => exact execChInit_answersOnce ch s
  | wtCommit ch imm => exact execWtCommit_answersOnce ch imm s
  | envBuild ch slot imm => exact execEnvBuild_answersOnce ch slot imm s
  | play | stop | release | reset | setNote | setMidi | setVol | setPan =>
    simp only [exec, execPlay, execStop, execRelease, execReset, execSetNote, execSetMidi, execSetVol,
      execSetPan]
    exact onChannel_answersOnce fun _ => updateChannel_answered ..
  | isNoise | lfsrOut =>
    simp only [exec, execIsNoise, execLfsrOut]
    exact onChannel_answersOnce fun _ => respond_answered _
  | csample | lfsrInit | lfsrStep =>
    simp only [exec, execCsample, execLfsrInit, execLfsrStep]
    exact onChannel_answersOnce fun _ => respond_setChannel_answered ..
  | setNoise =>
    rw [exec, execSetNoise]
    exact onChannel_answersOnce fun _ => ite_answered (respond_answered 0) (updateChannel_answered ..)
  | setPitch =>
    simp only [exec, execSetPitch]
    exact onChannel_answersOnce fun _ =>
      ite_answered (badOperand_answered 0) (updateChannel_answered ..)
  | wtStage | wtFromEnv =>
    simp only [exec, execWtStage, execWtFromEnv]
    exact onChannel_answersOnce fun _ =>
      ite_answered (updateChannel_answered ..) (badOperand_answered _)
  | envKnotT | envKnotV | envKnotI =>
    simp only [exec, execEnvKnotT, execEnvKnotV, execEnvKnotI]
    exact onKnot_answersOnce
  | envLoop | envDecay | envClear =>
    simp only [exec, execEnvLoop, execEnvDecay, execEnvClear]
    exact onChannel_onSlot_answersOnce fun _ _ => updateChannel_answered ..
  | envReset | envRelease =>
    simp only [exec, execEnvReset, execEnvRelease]
    exact onPresent_answersOnce fun _ _ => updateChannel_answered ..
  | envPeek =>
    simp only [exec, execEnvPeek]
    exact onPresent_answersOnce fun _ _ => respond_setChannel_answered ..

/-- A word is answered by its command, or as the illegal word it is (R105, R334). -/
theorem runWord_answersOnce (w : Word64) (s : State) : AnswersOnce s (runWord exec w s) := by
  cases hd : decode w with
  | ok i =>
    rw [runWord_of_ok hd]
    exact exec_answersOnce i s
  | error e =>
    rw [runWord_of_error hd]
    exact ⟨_, rfl, .error 0 (by decide)⟩

/-- Settles O8: the word is taken and run, and whatever runs is answered once, in the words of R335. -/
theorem everyWordIsAnsweredOnce : Obligations.EveryWordIsAnsweredOnce := by
  intro s w rest hin
  obtain ⟨t, hrun, hanswered⟩ := runWord_answersOnce w { s with inbox := rest }
  obtain ⟨r, hresponses, hinbox, hok, herror⟩ := hanswered.response
  refine ⟨t, r, ?_, hresponses, hinbox, hok, herror⟩
  rw [step, fetch_of_cons hin]
  exact hrun

end Sys2Proof.Proofs.Exceptions
end

