-- ==== Sys2Proof/Proofs/Decoding.lean ====
section
/-! PROOFS. The encoding and the decoder undo each other (`30_encoding.md` R91, R97, R98), the decoder accepts the
words of the opcode table and no others (R105), and a step runs what the word it takes decodes to (R80). -/

namespace Sys2Proof.Proofs.Decoding

open Sys2Proof Sys2Proof.Machine Sys2Proof.Laws
open Sys2Proof.Proofs.Encoding (encode_of_decode decode_ok_matches_row)

/-! ## The operands in the fields of an encoded word (R91, R94) -/

theorem fieldRst_word (op ch : BitVec 8) (rst : Bool) (imm : Word32) :
    fieldRst (word op ch (rstIdx rst) imm) = rst := by
  rw [fieldRst_eq, fieldIdx_word]; cases rst <;> rfl

theorem rstIdx_reserved (rst : Bool) : (rstIdx rst).extractLsb' 1 15 = 0 := by cases rst <;> rfl

theorem boolImm_reserved (b : Bool) : (boolImm b).extractLsb' 1 31 = 0 := by cases b <;> rfl

theorem boolImm_bit (b : Bool) : (boolImm b)[0] = b := by cases b <;> rfl

theorem upper_half (octave note : BitVec 16) : (octave ++ note : Word32).extractLsb' 16 16 = octave :=
  BitVec.extractLsb'_append_eq_left

theorem lower_half (octave note : BitVec 16) : (octave ++ note : Word32).extractLsb' 0 16 = note :=
  BitVec.extractLsb'_append_eq_right

section Loopword

variable (kind : LoopKind) (loopIn loopOut : BitVec 12)

theorem loopword_kind : (loopword kind loopIn loopOut).extractLsb' 0 2 = loopKindBits kind :=
  BitVec.extractLsb'_append_eq_right

theorem loopword_low_reserved : (loopword kind loopIn loopOut).extractLsb' 2 2 = 0 := by
  rw [loopword, BitVec.extractLsb'_append_eq_of_le (by decide)]
  exact BitVec.extractLsb'_append_eq_right

theorem loopword_in : (loopword kind loopIn loopOut).extractLsb' 4 12 = loopIn := by
  rw [loopword]
  iterate 2 rw [BitVec.extractLsb'_append_eq_of_le (by decide)]
  exact BitVec.extractLsb'_append_eq_right

theorem loopword_out : (loopword kind loopIn loopOut).extractLsb' 16 12 = loopOut := by
  rw [loopword]
  iterate 3 rw [BitVec.extractLsb'_append_eq_of_le (by decide)]
  exact BitVec.extractLsb'_append_eq_right

theorem loopword_high_reserved : (loopword kind loopIn loopOut).extractLsb' 28 4 = 0 := by
  rw [loopword]
  iterate 3 rw [BitVec.extractLsb'_append_eq_of_le (by decide)]
  exact BitVec.extractLsb'_append_eq_left

end Loopword

/-! ## Decoding undoes encoding -/

/-- For each command the opcode picks the decoder's row, the fields are the operands put there, and the bits the
format leaves unused are zero. -/
theorem decode_encode (i : Instr) : decode (encode i) = .ok i := by
  cases i <;>
  simp [encode, decode, wordCS, fieldSlot_eq, fieldK_eq, fieldRst_word, rstIdx_reserved, boolImm_reserved,
    boolImm_bit, upper_half, lower_half, loopword_kind, loopword_low_reserved, loopword_in, loopword_out,
    loopword_high_reserved]

/-- Settles O1: `decode_encode`, in the statement's words. -/
theorem decodeUndoesEncode : Obligations.DecodeUndoesEncode := decode_encode

/-- Settles O2: a word that decodes is put together again from its fields. -/
theorem encodeUndoesDecode : Obligations.EncodeUndoesDecode := fun _ _ => encode_of_decode

/-! ## The words of the opcode table -/

/-- A row fixes every bit field that its mask covers. -/
theorem field_of_masked {w m p : Word64} {start len : ℕ} (h : w &&& m = p)
    (hm : m.extractLsb' start len = BitVec.allOnes len) : w.extractLsb' start len = p.extractLsb' start len := by
  rw [← h, BitVec.extractLsb'_and, hm, BitVec.and_allOnes]

/-- A bit field of a bit field of a word is a bit field of the word. -/
theorem field_of_field (w : Word64) {start len start' len' : ℕ} (h : start' + len' ≤ len) :
    (w.extractLsb' start len).extractLsb' start' len' = w.extractLsb' (start + start') len' := by
  ext i hi
  simp [show start' + i < len by omega, Nat.add_assoc]

/-- Every row fixes the opcode (R92). -/
theorem opcode_covered : ∀ r ∈ opcodeTable, fieldOp r.mask = BitVec.allOnes 8 := by decide

/-- A word of a row decodes: its opcode is the row's, which picks the decoder's row, and each bit that the
decoder's row requires to be zero is one that the mask covers and the pattern has zero. -/
theorem decodes_of_row {w : Word64} {r : OpcodeRow} (hr : r ∈ opcodeTable) (h : w &&& r.mask = r.pattern) :
    ∃ i, decode w = .ok i := by
  have hop : fieldOp w = fieldOp r.pattern := field_of_masked h (opcode_covered r hr)
  have hzero {start len : ℕ} (hm : r.mask.extractLsb' start len = BitVec.allOnes len)
      (hp : r.pattern.extractLsb' start len = 0) : w.extractLsb' start len = 0 := by
    rw [field_of_masked h hm, hp]
  simp only [opcodeTable, List.mem_cons, List.not_mem_nil, or_false] at hr
  rcases hr with rfl | rfl | rfl | rfl | rfl | rfl | rfl | rfl | rfl | rfl | rfl | rfl | rfl | rfl | rfl | rfl |
    rfl | rfl | rfl | rfl | rfl | rfl | rfl | rfl | rfl | rfl | rfl | rfl | rfl | rfl | rfl | rfl | rfl | rfl |
    rfl | rfl
  all_goals simp only [decode, hop]
  all_goals
    refine ⟨_, if_pos ?_⟩
    simp (disch := decide) [fieldCh, fieldIdx, fieldImm, fieldK, field_of_field, hzero]

/-- Settles O3: a word that decodes is its command's, which matches its row; a word of a row decodes. -/
theorem decoderAcceptsTheOpcodeTable : Obligations.DecoderAcceptsTheOpcodeTable := fun _ =>
  ⟨fun ⟨_, h⟩ => decode_ok_matches_row h, fun ⟨_, hr, h⟩ => decodes_of_row hr h⟩

/-- Settles O4: each word is evaluated by the decoder. -/
theorem exampleWordsDecode : Obligations.ExampleWordsDecode := by
  unfold Obligations.ExampleWordsDecode
  decide

/-! ## Steps (R7, R80) -/

/-- Settles O5: the word taken is the first of the inbox. -/
theorem stepRunsTheDecodedCommand : Obligations.StepRunsTheDecodedCommand := by
  intro s w rest i hin hdecode
  rw [step, fetch_of_cons hin]
  exact runWord_of_ok hdecode _

/-- Settles O7: with an empty inbox no word is taken. -/
theorem idleChipChangesNothing : Obligations.IdleChipChangesNothing := by
  intro s hin
  rw [step, step_of_nil hin]

end Sys2Proof.Proofs.Decoding
end

