-- ==== Sys2Proof/Proofs/Locality.lean ====
section
/-! PROOFS. A command that names a channel works on that channel alone (`00_scope.md` R8): all it leaves is a
channel in that slot and a response, and both are the same from any two states that agree on the channel. -/

namespace Sys2Proof.Proofs.Locality

open Sys2Proof Sys2Proof.Machine Sys2Proof.Claim Sys2Proof.Laws

/-! ## What a command of a channel leaves -/

/-- `s` after a command that left the channel `x` in slot `c` and gave the response `r`. -/
def answer (s : State) (c : ℕ) (x : Channel) (r : Response) : State :=
  { s.setChannel c x with
    errflags := s.errflags ||| r.status.flag
    responses := s.responses ++ [r] }

theorem answer_channel_other (s : State) (x : Channel) (r : Response) {c d : ℕ} (h : d ≠ c) :
    (answer s c x r).channel d = s.channel d :=
  setChannel_channel_other s x h

/-- The channel left is the one put there, when the slot exists; no slot is made for it. -/
theorem answer_channel_self (s : State) (c : ℕ) (x : Channel) (r : Response) :
    (answer s c x r).channel c = if c < s.nCh then x else s.channel c := by
  change (s.setChannel c x).channel c = _
  split
  · next h => exact setChannel_channel_same h x
  · next h => simp [State.channel, State.setChannel, List.set_eq_of_length_le (not_lt.mp h)]

theorem answer_nCh (s : State) (c : ℕ) (x : Channel) (r : Response) : (answer s c x r).nCh = s.nCh :=
  setChannel_nCh s c x

theorem respond_setChannel_eq_answer (data : Word64) (s : State) (c : ℕ) (x : Channel) :
    respond data (s.setChannel c x) = answer s c x ⟨.ok, data⟩ := by
  simp [respond, answer, Status.flag]

theorem respond_eq_answer (data : Word64) (s : State) (c : ℕ) :
    respond data s = answer s c (s.channel c) ⟨.ok, data⟩ := by
  rw [← respond_setChannel_eq_answer, setChannel_channel_self]

theorem raiseError_eq_answer (e : Status) (data : Word64) (s : State) (c : ℕ) :
    raiseError e data s = answer s c (s.channel c) ⟨e, data⟩ := by
  rw [answer, setChannel_channel_self, raiseError]

/-! ## Two states that agree on a channel -/

/-- Two states of one configuration that agree on channel `c` and have given equally many responses. -/
structure AgreeOn (c : ℕ) (s s' : State) : Prop where
  params : s.params = s'.params
  nCh : s.nCh = s'.nCh
  channel : s.channel c = s'.channel c
  commandNo : s.commandNo = s'.commandNo

theorem AgreeOn.refl (c : ℕ) (s : State) : AgreeOn c s s := ⟨rfl, rfl, rfl, rfl⟩

/-- `t` and `t'` are `s` and `s'` after the same answer on channel `c`. -/
def SameAnswer (c : ℕ) (s s' t t' : State) : Prop :=
  ∃ x r, t = answer s c x r ∧ t' = answer s' c x r

/-- Both commands end in a next state, with the same answer on channel `c`. -/
def SameOutcome (c : ℕ) (s s' : State) (o o' : Host.Outcome State Fault Refusal) : Prop :=
  ∃ t t', o = .next t ∧ o' = .next t' ∧ SameAnswer c s s' t t'

section Operations

variable {c : ℕ} {s s' : State}

theorem respond_setChannel_same (data : Word64) (x : Channel) :
    SameAnswer c s s' (respond data (s.setChannel c x)) (respond data (s'.setChannel c x)) :=
  ⟨x, _, respond_setChannel_eq_answer .., respond_setChannel_eq_answer ..⟩

theorem updateChannel_same (x : Channel) : SameAnswer c s s' (updateChannel s c x) (updateChannel s' c x) :=
  respond_setChannel_same 0 x

theorem respond_same (h : AgreeOn c s s') (data : Word64) : SameAnswer c s s' (respond data s) (respond data s') :=
  ⟨s'.channel c, _, by rw [respond_eq_answer data s c, h.channel], respond_eq_answer ..⟩

theorem raiseError_same (h : AgreeOn c s s') (e : Status) (data : Word64) :
    SameAnswer c s s' (raiseError e data s) (raiseError e data s') :=
  ⟨s'.channel c, _, by rw [raiseError_eq_answer e data s c, h.channel], raiseError_eq_answer ..⟩

theorem ite_same {p : Prop} [Decidable p] {t t' u u' : State} (ht : SameAnswer c s s' t t')
    (hu : SameAnswer c s s' u u') : SameAnswer c s s' (if p then t else u) (if p then t' else u') := by
  split
  · exact ht
  · exact hu

theorem onChannel_same {ch : BitVec 8} (h : AgreeOn ch.toNat s s') {body body' : ℕ → State}
    (hbody : SameAnswer ch.toNat s s' (body ch.toNat) (body' ch.toNat)) :
    SameOutcome ch.toNat s s' (onChannel ch s body) (onChannel ch s' body') := by
  refine ⟨_, _, rfl, rfl, ?_⟩
  rw [h.nCh]
  exact ite_same hbody (raiseError_same h ..)

theorem onSlot_same (h : AgreeOn c s s') {slot : BitVec 4} {body body' : Fin 4 → State}
    (hbody : ∀ i, SameAnswer c s s' (body i) (body' i)) :
    SameAnswer c s s' (onSlot slot s body) (onSlot slot s' body') := by
  unfold onSlot
  split
  · exact hbody _
  · exact raiseError_same h ..

theorem onKnot_same {ch : BitVec 8} (h : AgreeOn ch.toNat s s') (slot : BitVec 4) (k : BitVec 12)
    (write : EnvSlot → EnvSlot) :
    SameOutcome ch.toNat s s' (onKnot ch slot k s write) (onKnot ch slot k s' write) := by
  refine onChannel_same h (onSlot_same h fun i => ?_)
  rw [h.params, h.channel]
  exact ite_same (updateChannel_same _) (raiseError_same h ..)

theorem onPresent_same {ch : BitVec 8} (h : AgreeOn ch.toNat s s') {slot : BitVec 4}
    {body body' : ℕ → Fin 4 → State}
    (hbody : ∀ i, SameAnswer ch.toNat s s' (body ch.toNat i) (body' ch.toNat i)) :
    SameOutcome ch.toNat s s' (onPresent ch slot s body) (onPresent ch slot s' body') := by
  refine onChannel_same h (onSlot_same h fun i => ?_)
  rw [h.channel]
  exact ite_same (hbody i) (raiseError_same h ..)

end Operations

/-! ## Every command of a channel -/

section Commands

variable {ch : BitVec 8} {s s' : State} (h : AgreeOn ch.toNat s s')
include h

theorem execRreg_same (idx : BitVec 16) :
    SameOutcome ch.toNat s s' (execRreg ch idx s) (execRreg ch idx s') := by
  refine onChannel_same h ?_
  rw [h.channel]
  cases (s'.channel ch.toNat).readReg idx.toNat with
  | none => exact raiseError_same h ..
  | some w => exact respond_same h _

theorem execWreg_same (idx : BitVec 16) (imm : Word32) :
    SameOutcome ch.toNat s s' (execWreg ch idx imm s) (execWreg ch idx imm s') := by
  refine onChannel_same h ?_
  rw [h.channel]
  cases (s'.channel ch.toNat).writeReg idx.toNat imm with
  | none => exact raiseError_same h ..
  | some x => exact updateChannel_same x

theorem execChInit_same : SameOutcome ch.toNat s s' (execChInit ch s) (execChInit ch s') := by
  refine onChannel_same h ?_
  rw [h.channel, h.params]
  cases firstBadRegister s'.params.wtMax (s'.channel ch.toNat).staged with
  | none => exact updateChannel_same _
  | some r => exact raiseError_same h ..

theorem execWtCommit_same (imm : Word32) :
    SameOutcome ch.toNat s s' (execWtCommit ch imm s) (execWtCommit ch imm s') := by
  refine onChannel_same h ?_
  rw [h.channel, h.params, h.commandNo]
  refine ite_same (raiseError_same h ..) ?_
  cases (s'.channel ch.toNat).firstBadSample s'.commandNo ch.toNat imm.toNat with
  | none => exact updateChannel_same _
  | some j => exact raiseError_same h ..

theorem execEnvBuild_same (slot : BitVec 4) (imm : Word32) :
    SameOutcome ch.toNat s s' (execEnvBuild ch slot imm s) (execEnvBuild ch slot imm s') := by
  refine onChannel_same h (onSlot_same h fun i => ?_)
  rw [h.channel, h.params, h.commandNo]
  refine ite_same (raiseError_same h ..) ?_
  dsimp only
  split
  · exact raiseError_same h ..
  · exact updateChannel_same _

end Commands

/-- From two states that agree on the channel it names, a command gives the same answer there. -/
theorem exec_same {i : Instr} {ch : BitVec 8} {s s' : State} (hi : namedChannel i = some ch)
    (h : AgreeOn ch.toNat s s') : SameOutcome ch.toNat s s' (exec i s) (exec i s') := by
  cases i <;> simp only [namedChannel, Option.some.injEq, reduceCtorEq] at hi <;> subst hi
  case rreg => exact execRreg_same h _
  case wreg => exact execWreg_same h _ _
  case chInit => exact execChInit_same h
  case wtCommit => exact execWtCommit_same h _
  case envBuild => exact execEnvBuild_same h _ _
  case envKnotT | envKnotV | envKnotI =>
    simp only [exec, execEnvKnotT, execEnvKnotV, execEnvKnotI]
    exact onKnot_same h ..
  case envReset | envRelease =>
    simp only [exec, execEnvReset, execEnvRelease]
    exact onPresent_same h fun i => h.channel ▸ updateChannel_same _
  case envPeek =>
    rw [exec, exec, execEnvPeek, execEnvPeek]
    refine onPresent_same h fun i => ?_
    rw [h.channel, h.params]
    exact respond_setChannel_same ..
  case envLoop | envDecay | envClear =>
    simp only [exec, execEnvLoop, execEnvDecay, execEnvClear]
    exact onChannel_same h (onSlot_same h fun i => h.channel ▸ updateChannel_same _)
  case isNoise | lfsrOut =>
    simp only [exec, execIsNoise, execLfsrOut]
    exact onChannel_same h (h.channel ▸ respond_same h _)
  case csample | lfsrInit | lfsrStep =>
    simp only [exec, execCsample, execLfsrInit, execLfsrStep]
    refine onChannel_same h ?_
    rw [h.channel, h.params]
    exact respond_setChannel_same ..
  case setNoise =>
    rw [exec, exec, execSetNoise, execSetNoise]
    refine onChannel_same h ?_
    rw [h.channel]
    exact ite_same (respond_same h 0) (updateChannel_same _)
  case setPitch =>
    rw [exec, exec, execSetPitch, execSetPitch]
    refine onChannel_same h ?_
    rw [h.channel]
    exact ite_same (raiseError_same h ..) (updateChannel_same _)
  case wtStage | wtFromEnv =>
    simp only [exec, execWtStage, execWtFromEnv]
    refine onChannel_same h ?_
    rw [h.channel, h.params]
    exact ite_same (updateChannel_same _) (raiseError_same h ..)
  all_goals
    simp only [exec, execPlay, execStop, execRelease, execReset, execSetNote, execSetMidi, execSetVol, execSetPan]
    exact onChannel_same h (h.channel ▸ updateChannel_same _)

/-- Settles O10: the command leaves an answer in its channel, which touches no other field. -/
theorem channelCommandsStayInTheirChannel : Obligations.ChannelCommandsStayInTheirChannel := by
  intro i ch s hi
  obtain ⟨t, -, hrun, -, x, r, rfl, -⟩ := exec_same hi (AgreeOn.refl ch.toNat s)
  exact ⟨_, hrun, fun c hc => answer_channel_other s x r hc, answer_nCh s ch.toNat x r, rfl, rfl, rfl, rfl, rfl,
    rfl, rfl⟩

/-- Settles O11: from states that agree on the channel the answers there are the same. -/
theorem channelCommandsReadTheirChannelOnly : Obligations.ChannelCommandsReadTheirChannelOnly := by
  intro i ch s s' c hi hparams hnCh hchannel hresponses
  obtain ⟨t, t', hrun, hrun', x, r, rfl, rfl⟩ :=
    exec_same hi (s := s) (s' := s') ⟨hparams, hnCh, hchannel, hresponses⟩
  refine ⟨_, _, r, hrun, hrun', ?_, rfl, rfl⟩
  rw [answer_channel_self, answer_channel_self, hnCh, hchannel]

end Sys2Proof.Proofs.Locality
end

