-- ==== Sys2Proof/Proofs/Wavetables.lean ====
section
/-! PROOFS. The commit of staged samples and the wavetable read from an envelope (`43_channel_sample.md` R242,
R243). The reading is a run of queries at rising times on an envelope just reset, so each answers what the reset
envelope answers. -/

namespace Sys2Proof.Proofs.Wavetables

open Sys2Proof Sys2Proof.Machine Sys2Proof.Claim Sys2Proof.Laws
open Sys2Proof.Proofs.ChannelControl (updateChannel_eq_okay)
open Sys2Proof.Proofs.ChannelSample (raiseError_eq_failed)

/-! ## The staged samples (R242) -/

theorem stagedValue_eq (s : State) (c i : ℕ) :
    stagedValue s c i = (s.channel c).stagedSample s.commandNo c i := rfl

section StagedSamples

variable {cmd c n j : ℕ} {x : Channel}

theorem firstBadSample_eq_none_iff :
    x.firstBadSample cmd c n = none ↔ ∀ i < n, IsBipolar (x.stagedSample cmd c i) := by
  simp [Channel.firstBadSample, IsBipolar]

theorem firstBadSample_eq_some (hj : j < n) (hbefore : ∀ i < j, IsBipolar (x.stagedSample cmd c i))
    (hbad : x.stagedSample cmd c j < -1 ∨ 1 < x.stagedSample cmd c j) :
    x.firstBadSample cmd c n = some j := by
  refine List.find?_range_eq_some.2 ⟨decide_eq_true hbad, List.mem_range.2 hj, fun i hi => ?_⟩
  obtain ⟨hlow, hhigh⟩ := hbefore i hi
  simp [hlow, hhigh]

end StagedSamples

/-- The nearest-lower index of R242 in the integers. -/
theorem floor_index (i n len : ℕ) : ⌊(i * n : ℚ) / len⌋.toNat = i * n / len := by
  rw [← Nat.cast_mul, Rat.floor_natCast_div_natCast]
  exact Int.toNat_natCast _

/-! ## `WT_COMMIT` (R242) -/

section WtCommit

variable {ch : BitVec 8} {imm : Word32} {s : State} (h : ch.toNat < s.nCh) (hpos : 1 ≤ imm.toNat)
  (hle : imm.toNat ≤ s.params.wtMax)
include h hpos hle

/-- `WT_COMMIT` of a length in range when a sample is bad. -/
theorem exec_wtCommit_of_some {j : ℕ}
    (hbad : (s.channel ch.toNat).firstBadSample s.commandNo ch.toNat imm.toNat = some j) :
    exec (.wtCommit ch imm) s = .next (failed s .invalidWavetable (BitVec.ofNat 64 j)) := by
  simp only [exec, execWtCommit, onChannel_of_lt h, hbad]
  rw [if_neg (by omega), raiseError_eq_failed (by decide)]

/-- `WT_COMMIT` of a length in range when no sample is bad. -/
theorem exec_wtCommit_of_none
    (hgood : (s.channel ch.toNat).firstBadSample s.commandNo ch.toNat imm.toNat = none) :
    exec (.wtCommit ch imm) s = .next (okay (withChannel s ch.toNat { s.channel ch.toNat with
      wt := (s.channel ch.toNat).resampled s.commandNo ch.toNat imm.toNat }) 0) := by
  simp only [exec, execWtCommit, onChannel_of_lt h, hgood]
  rw [if_neg (by omega), updateChannel_eq_okay]

end WtCommit

theorem exec_wtCommit_bad_length {ch : BitVec 8} {imm : Word32} {s : State} (h : ch.toNat < s.nCh)
    (hlen : imm.toNat = 0 ∨ s.params.wtMax < imm.toNat) :
    exec (.wtCommit ch imm) s = .next (failed s .badOperand (BitVec.ofNat 64 imm.toNat)) := by
  rw [exec, execWtCommit, onChannel_of_lt h, if_pos hlen, raiseError_eq_failed (by decide), zext_eq]

/-- Settles O42: no sample is bad, and the resampled buffer is read at the nearest lower index. -/
theorem wtCommitInstallsTheResampledBuffer : Obligations.WtCommitInstallsTheResampledBuffer := by
  intro ch imm s hch c x hpos hle hlegal
  have hnone : x.firstBadSample s.commandNo c imm.toNat = none := firstBadSample_eq_none_iff.2 hlegal
  simp only [floor_index, stagedValue_eq]
  exact exec_wtCommit_of_none hch hpos hle hnone

/-- Settles O43: the first bad sample is the one the model finds, and the length is checked before. -/
theorem wtCommitFailsWhole : Obligations.WtCommitFailsWhole := by
  intro ch imm s hch c
  refine ⟨fun j hj hle hbefore hbad => ?_, exec_wtCommit_bad_length hch⟩
  have hsome : (s.channel c).firstBadSample s.commandNo c imm.toNat = some j :=
    firstBadSample_eq_some hj hbefore hbad
  exact exec_wtCommit_of_some hch (by omega) hle hsome

/-! ## A run of queries on a reset envelope (R142, R155, R243) -/

/-- `d` is the envelope `e`, reset and then queried in order at times up to `t`. -/
structure Replays (e : Envelope) (t : ℚ) (d : Envelope) : Prop where
  knots : d.knots = e.knots
  kind : d.kind = e.kind
  loopIn : d.loopIn = e.loopIn
  loopOut : d.loopOut = e.loopOut
  decay : d.decay = e.decay
  release : d.release = false
  captured : d.captured = false
  strayed : d.strayed = false
  lastQuery : ∀ u, d.lastQuery = some u → u ≤ t

theorem replays_reset (e : Envelope) (t : ℚ) : Replays e t e.reset :=
  ⟨rfl, rfl, rfl, rfl, rfl, rfl, rfl, rfl, fun _ h => by cases h⟩

theorem Replays.mono {e d : Envelope} {t u : ℚ} (h : Replays e t d) (htu : t ≤ u) : Replays e u d :=
  { h with lastQuery := fun v hv => (h.lastQuery v hv).trans htu }

/-- One more query answers what the reset envelope answers, and the run goes on. -/
theorem Replays.peek {e d : Envelope} {t : ℚ} (h : Replays e t d) (eps free : ℚ) :
    (d.peek eps free t).1 = (e.reset.peek eps 0 t).1 ∧ Replays e t (d.peek eps free t).2 := by
  have horderly : (d.noteQuery t).strayed = false := (noteQuery_strayed d t).2 ⟨h.strayed, h.lastQuery⟩
  obtain ⟨hknots, hkind, hin, hout, hdecay, hrelease, hlast, hstrayed⟩ := peek_keeps eps free d t
  constructor
  · exact peek_unreleased_congr h.knots h.kind h.loopIn h.loopOut h.release rfl horderly rfl
  · refine ⟨hknots.trans h.knots, hkind.trans h.kind, hin.trans h.loopIn, hout.trans h.loopOut,
      hdecay.trans h.decay, hrelease.trans h.release, ?_, hstrayed.trans horderly, fun u hu => ?_⟩
    · rw [peek_unreleased_captured eps free d t h.release, h.captured]
    · rw [hlast, Option.some.injEq] at hu
      exact hu.ge

/-- The shape read from a slot that holds `e` in such a run, and the slot it leaves. -/
theorem shapeFrom_eq {e : Envelope} (eps : ℚ) (c len todo : ℕ) {start : ℕ} {sl : EnvSlot} {d : Envelope}
    (hd : sl.env = some d) (h : Replays e ((start : ℚ) / len) d) :
    ∃ (d' : Envelope) (t : ℚ), Replays e t d' ∧ shapeFrom eps c len todo start sl =
      ((List.range' start todo).map fun i : ℕ => (e.reset.peek eps 0 ((i : ℚ) / len)).1,
        { sl with env := some d', peeks := sl.peeks + todo }) := by
  induction todo generalizing start sl d with
  | zero => exact ⟨d, _, h, by simp [shapeFrom, ← hd]⟩
  | succ todo ih =>
    obtain ⟨hfst, hsnd⟩ := h.peek eps (Config.strayPeek c 3 sl.peeks)
    have hlater : (start : ℚ) / len ≤ ((start + 1 : ℕ) : ℚ) / len := by gcongr; exact_mod_cast Nat.le_succ _
    obtain ⟨d', t, hd', hrest⟩ :=
      ih (sl := (sl.query eps c 3 0 ((start : ℚ) / len)).2) (by simp only [EnvSlot.query, hd])
        (hsnd.mono hlater)
    refine ⟨d', t, hd', ?_⟩
    rw [shapeFrom, hrest, List.range'_succ, List.map_cons, ← hfst]
    simp only [EnvSlot.query, hd, Nat.add_assoc, Nat.add_comm 1]

/-! ## `WT_FROM_ENV` (R243) -/

/-- The wavetable read from the envelope `e` of slot 3: its value, reset, at `i / len`. -/
def shapeOf (eps : ℚ) (len : ℕ) (e : Envelope) : List ℚ :=
  (List.range len).map fun i : ℕ => (e.reset.peek eps 0 ((i : ℚ) / len)).1

theorem shapeFrom_resetEnv {e : Envelope} {sl : EnvSlot} (he : sl.env = some e) (eps : ℚ) (c len : ℕ) :
    ∃ (d : Envelope) (t : ℚ), Replays e t d ∧ shapeFrom eps c len len 0 sl.resetEnv =
      (shapeOf eps len e, { sl with env := some d, peeks := sl.peeks + len }) := by
  have hreset : sl.resetEnv.env = some e.reset := by rw [EnvSlot.resetEnv, he]; rfl
  obtain ⟨d, t, hd, hshape⟩ := shapeFrom_eq eps c len len (start := 0) hreset (replays_reset e _)
  refine ⟨d, t, hd, ?_⟩
  rw [hshape, shapeOf, List.range_eq_range']
  rfl

/-- Settles O44: the reading is a run of queries on the reset envelope. -/
theorem wtFromEnvSamplesTheShape : Obligations.WtFromEnvSamplesTheShape := by
  intro ch s hch c x
  constructor
  · intro e he
    obtain ⟨d, t, hd, hshape⟩ := shapeFrom_resetEnv he s.params.envEps c x.active.wtLen
    refine ⟨d, ?_, hd.knots, hd.kind, hd.loopIn, hd.loopOut, hd.decay, hd.release, hd.captured, hd.strayed⟩
    have hsome : ((s.channel ch.toNat).slot 3).env.isSome := by rw [show _ = some e from he]; rfl
    simp only [exec, execWtFromEnv, onChannel_of_lt hch, if_pos hsome, updateChannel_eq_okay]
    rw [show shapeFrom _ _ _ _ _ _ = _ from hshape]
    rfl
  · intro hnone
    have hempty : ¬((s.channel ch.toNat).slot 3).env.isSome := by rw [show _ = none from hnone]; simp
    simp only [exec, execWtFromEnv, onChannel_of_lt hch, if_neg hempty]
    rw [raiseError_eq_failed (by decide)]

end Sys2Proof.Proofs.Wavetables
end

