-- ==== Sys2Proof/Proofs/ChannelInit.lean ====
section
/-! PROOFS. `CH_INIT` (`42_channel_control.md` R182): its checks are the conditions of the rule on the raw words,
what it installs is what the words mean, and the active mirror reads those words back (R42). -/

namespace Sys2Proof.Proofs.ChannelInit

open Sys2Proof Sys2Proof.Machine Sys2Proof.Claim Sys2Proof.Laws
open Sys2Proof.Proofs.ChannelControl (updateChannel_eq_okay)
open Sys2Proof.Proofs.ChannelSample (raiseError_eq_failed)
open Sys2Proof.Proofs.SystemCommands (readReg_mirror exec_rreg_of_some)

/-! ## Operand formats: comparisons of values are comparisons of words (R94) -/

section Formats

variable (v w : Word32)

theorem q16_pos_iff : 0 < q16 w ↔ 0 < w.toInt := by
  rw [q16, div_pos_iff_of_pos_right (by norm_num), Int.cast_pos]

theorem q16_nonneg_iff : 0 ≤ q16 w ↔ 0 ≤ w.toInt := by
  rw [q16, le_div_iff₀ (by norm_num), zero_mul, Int.cast_nonneg_iff]

theorem q16_le_one_iff : q16 w ≤ 1 ↔ w.toInt ≤ 65536 := by
  rw [q16, div_le_one (by norm_num)]; exact_mod_cast Iff.rfl

theorem uq16_pos_iff : 0 < uq16 w ↔ 0 < w.toNat := by
  rw [uq16, div_pos_iff_of_pos_right (by norm_num), Nat.cast_pos]

theorem uq16_le_iff : uq16 v ≤ uq16 w ↔ v.toNat ≤ w.toNat := by
  rw [uq16, uq16, div_le_div_iff_of_pos_right (by norm_num), Nat.cast_le]

theorem uq16_nonneg : 0 ≤ uq16 w := by rw [uq16]; positivity

theorem toNat_le_one_iff : w.toNat ≤ 1 ↔ w = 0 ∨ w = 1 := by bv_omega

theorem toNat_le_two_iff : w.toNat ≤ 2 ↔ w = 0 ∨ w = 1 ∨ w = 2 := by bv_omega

end Formats

/-! ## The checks are the conditions (R182) -/

/-- A check of the model and a condition of the rule that say the same of the same register. -/
def SameCheck (check : ℕ × Bool) (condition : ℕ × Prop) : Prop :=
  check.1 = condition.1 ∧ (check.2 = true ↔ condition.2)

theorem profileChecks_same (wtMax : ℕ) (w : Vector Word32 22) :
    List.Forall₂ SameCheck (profileChecks wtMax w) (profileConditions wtMax w) := by
  simp only [profileChecks, profileConditions, List.forall₂_cons, List.forall₂_nil_left_iff, SameCheck,
    Bool.and_eq_true, Bool.or_eq_true, Bool.not_eq_true', decide_eq_true_eq, decide_eq_false_iff_not,
    ← imp_iff_not_or, true_and, and_true]
  simp only [interpret, q16_pos_iff, q16_nonneg_iff, q16_le_one_iff, uq16_pos_iff, uq16_le_iff, toNat_le_one_iff,
    toNat_le_two_iff, Nat.cast_zero, and_self]

/-- No check fails when every condition holds. -/
theorem find?_eq_none_of_same {checks : List (ℕ × Bool)} {conditions : List (ℕ × Prop)}
    (hsame : List.Forall₂ SameCheck checks conditions) :
    checks.find? (fun c => !c.2) = none ↔ ∀ q ∈ conditions, q.2 := by
  induction hsame with
  | nil => simp
  | @cons c q _ _ hcq _ ih =>
    cases hc : c.2 <;> simp [hc, ih, ← hcq.2]

/-- The first check that fails is the first condition that does not hold. -/
theorem find?_eq_some_of_same {before after : List (ℕ × Prop)} {n : ℕ} {legal : Prop} {checks : List (ℕ × Bool)}
    (hsame : List.Forall₂ SameCheck checks (before ++ (n, legal) :: after)) (hbefore : ∀ q ∈ before, q.2)
    (hbad : ¬legal) : (checks.find? fun c => !c.2).map Prod.fst = some n := by
  induction before generalizing checks with
  | nil =>
    obtain _ | ⟨⟨hnumber, hiff⟩, -⟩ := hsame
    simp [Bool.eq_false_iff.2 fun h => hbad (hiff.1 h), hnumber]
  | cons q before ih =>
    obtain _ | ⟨⟨-, hiff⟩, hrest⟩ := hsame
    obtain ⟨hq, hmore⟩ := List.forall_mem_cons.1 hbefore
    simpa [hiff.2 hq] using ih hrest hmore

theorem firstBadRegister_eq_none_iff (wtMax : ℕ) (w : Vector Word32 22) :
    firstBadRegister wtMax w = none ↔ ∀ q ∈ profileConditions wtMax w, q.2 := by
  rw [firstBadRegister, Option.map_eq_none_iff, find?_eq_none_of_same (profileChecks_same wtMax w)]

/-! ## What `CH_INIT` answers -/

section ChInit

variable {ch : BitVec 8} {s : State} (h : ch.toNat < s.nCh)
include h

theorem exec_chInit_of_some {r : ℕ} (hbad : firstBadRegister s.params.wtMax (s.channel ch.toNat).staged = some r) :
    exec (.chInit ch) s = .next (failed s .badOperand (BitVec.ofNat 64 r)) := by
  simp only [exec, execChInit, onChannel_of_lt h, hbad]
  rw [raiseError_eq_failed (by decide)]

theorem exec_chInit_of_legal
    (hlegal : ∀ q ∈ profileConditions s.params.wtMax (s.channel ch.toNat).staged, q.2) :
    exec (.chInit ch) s = .next (okay (withChannel s ch.toNat
      ((s.channel ch.toNat).construct s.params (interpret (s.channel ch.toNat).staged))) 0) := by
  simp only [exec, execChInit, onChannel_of_lt h, (firstBadRegister_eq_none_iff _ _).2 hlegal,
    updateChannel_eq_okay]

end ChInit

/-- Settles O26: the first condition that does not hold is the first check that fails. -/
theorem chInitReportsTheFirstBadRegister : Obligations.ChInitReportsTheFirstBadRegister := by
  intro ch s before after n legal hch hconditions hbefore hbad
  have hsame := profileChecks_same s.params.wtMax (s.channel ch.toNat).staged
  rw [hconditions] at hsame
  exact exec_chInit_of_some hch (find?_eq_some_of_same hsame hbefore hbad)

/-! ## What `CH_INIT` installs (R182) -/

theorem tonePeriodEff_eq (p : Profile) (f : ℚ) : p.tonePeriodEff f = tonePeriod p f := rfl

theorem noisePeriodOf_eq (p : Profile) (f : ℚ) : p.noisePeriodOf f = noisePeriod p f := by
  unfold Profile.noisePeriodOf noisePeriod
  split <;> rfl

/-- The slots with their envelopes cleared, slot by slot. -/
theorem map_clear_eq (x : Channel) :
    (x.env.map fun sl => { sl with env := none }) = Vector.ofFn fun i => { x.slot i with env := none } := by
  ext1 i hi
  simp [Channel.slot]

/-- Settles O25: construction, field by field. -/
theorem chInitInstallsTheStagedProfile : Obligations.ChInitInstallsTheStagedProfile := by
  intro ch s hch c x p pan hlegal
  rw [exec_chInit_of_legal hch hlegal]
  simp only [Channel.construct, Channel.updatePan, noisePeriodOf_eq, tonePeriodEff_eq, map_clear_eq]
  rfl

/-! ## The active mirror (R42) -/

section Mirror

variable (w : Word32)

theorem encNat_toNat : encNat w.toNat = w := (BitVec.ofNat_toNat 32 w).trans (BitVec.setWidth_eq w)

theorem encQ16_q16 : encQ16 (q16 w) = w := by
  have hexact : q16 w * 65536 = (w.toInt : ℚ) := by rw [q16]; ring
  rw [encQ16, hexact]
  exact (congrArg _ (Int.floor_intCast (R := ℚ) _)).trans BitVec.ofInt_toInt

theorem encQ16_uq16 : encQ16 (uq16 w) = w := by
  have hexact : uq16 w * 65536 = ((w.toNat : ℤ) : ℚ) := by rw [uq16]; push_cast; ring
  rw [encQ16, hexact]
  calc BitVec.ofInt 32 ⌊((w.toNat : ℤ) : ℚ)⌋
    _ = BitVec.ofNat 32 w.toNat := by rw [Int.floor_intCast, BitVec.ofInt_natCast]
    _ = w := encNat_toNat w

end Mirror

theorem encBool_decide {w : Word32} (h : w = 0 ∨ w = 1) : encBool (decide (w ≠ 0)) = w := by
  rcases h with rfl | rfl <;> rfl

theorem noiseKindWord_noiseKindOf {w : Word32} (h : w = 0 ∨ w = 1 ∨ w = 2) :
    noiseKindWord (noiseKindOf w) = w := by
  rcases h with rfl | rfl | rfl <;> rfl

/-- The mirror of the profile that legal words mean reads those words. -/
theorem mirror_interpret {wtMax : ℕ} {w : Vector Word32 22} (hlegal : ∀ q ∈ profileConditions wtMax w, q.2)
    {n : ℕ} (hn : n < 22) : (interpret w).mirror n = w[n] := by
  have hloop : w[0x02] = 0 ∨ w[0x02] = 1 := hlegal (0x02, _) (by simp [profileConditions])
  have hnonneg : w[0x0B] = 0 ∨ w[0x0B] = 1 := hlegal (0x0B, _) (by simp [profileConditions])
  have hkind : w[0x0D] = 0 ∨ w[0x0D] = 1 ∨ w[0x0D] = 2 := hlegal (0x0D, _) (by simp [profileConditions])
  interval_cases n <;>
    simp only [Profile.mirror, interpret, encNat_toNat, encQ16_q16, encQ16_uq16, encBool_decide hloop,
      encBool_decide hnonneg, noiseKindWord_noiseKindOf hkind]

/-- Settles O27: the channel that `CH_INIT` leaves holds the profile its staged words mean. -/
theorem mirrorReadsTheStagedWord : Obligations.MirrorReadsTheStagedWord := by
  intro ch s n hn hch hlegal
  refine ⟨_, exec_chInit_of_legal hch hlegal, ?_⟩
  have hidx : (BitVec.ofNat 16 (0x60 + n)).toNat = 0x60 + n := by
    rw [BitVec.toNat_ofNat, Nat.mod_eq_of_lt (by omega)]
  have hchannel := updateChannel_channel_same hch
    ((s.channel ch.toNat).construct s.params (interpret (s.channel ch.toNat).staged))
  refine exec_rreg_of_some (by rw [← updateChannel_eq_okay, updateChannel_nCh]; exact hch) ?_
  rw [← updateChannel_eq_okay, hchannel, hidx, readReg_mirror _ (by omega), Nat.add_sub_cancel_left]
  exact congrArg some (mirror_interpret hlegal hn)

end Sys2Proof.Proofs.ChannelInit
end

