-- ==== Sys2Proof/Proofs/Reset.lean ====
section
/-! PROOFS. The state after hardware reset (`70_reset_and_hazards.md` R360): every channel is what `CH_INIT`
constructs from the reset words, and the state is legal. -/

namespace Sys2Proof.Proofs.Reset

open Sys2Proof Sys2Proof.Machine Sys2Proof.Claim Sys2Proof.Laws
open Sys2Proof.Proofs.ChannelControl (updateChannel_eq_okay respond_eq_okay)
open Sys2Proof.Proofs.ChannelInit (exec_chInit_of_legal)

/-! ## The reset profile (R43) -/

/-- The reset words pass the checks of `CH_INIT`, on a chip that can hold their wavetable. -/
theorem resetStaged_legal {wtMax : ℕ} (h : 32 ≤ wtMax) : ∀ q ∈ profileConditions wtMax resetStaged, q.2 := by
  have hlen : resetStaged[0x00].toNat = 32 := rfl
  simp only [profileConditions, List.forall_mem_cons, List.not_mem_nil, false_implies, implies_true, and_true]
  refine ⟨⟨by omega, by omega⟩, ?_⟩
  decide

/-- The reset words mean the reset profile. -/
theorem interpret_resetStaged : interpret resetStaged = resetProfile := by decide +kernel

theorem resetProfile_noisePeriod : resetProfile.noisePeriodOf 440 = 1 / 440 := by decide +kernel

theorem resetProfile_tonePeriod : resetProfile.tonePeriodEff 440 = 1 / 440 := by decide +kernel

theorem resetProfile_lfsr (p : Config.Params) :
    lfsrNew p resetProfile.noiseLen resetProfile.lfsrSeed = { n := 15, seed := 1, state := 1 } := rfl

/-- The reset profile is legal on a chip that can hold its wavetable. -/
theorem resetProfile_legal {wtMax : ℕ} (h : 32 ≤ wtMax) : resetProfile.Legal wtMax := by
  constructor <;> norm_num [resetProfile, IsUnit01]
  exact h

/-! ## The reset channel (R46 to R50) -/

/-- Constructing a channel from the reset profile gives back the reset channel. -/
theorem construct_resetChannel (p : Config.Params) : resetChannel.construct p resetProfile = resetChannel := by
  rw [Channel.construct, resetProfile_noisePeriod, resetProfile_tonePeriod, resetProfile_lfsr]
  decide +kernel

theorem resetChannel_slot (i : Fin 4) : resetChannel.slot i = resetSlot := by
  fin_cases i <;> rfl

theorem resetSlot_legal (kMax : ℕ) (lo : ℚ) : resetSlot.Legal kMax lo where
  env_legal _ h := by cases h
  times_wf := Memory.wf_nil kMax
  values_wf := Memory.wf_nil kMax
  interps_wf := Memory.wf_nil kMax
  sdecay_unit := by norm_num [resetSlot, IsUnit01]

/-- A reset channel is legal: its generator and its wavetable are those that construction makes. -/
theorem resetChannel_legal {p : Config.Params} (hp : p.Legal) (hwt : 32 ≤ p.wtMax) : resetChannel.Legal p where
  active_legal := resetProfile_legal hwt
  live_legal := resetLive_legal
  noise_kind h := by cases h
  volume_unit := by norm_num [resetChannel, IsUnit01]
  pan_bipolar := by norm_num [resetChannel, IsBipolar]
  frequency_pos := by norm_num [resetChannel]
  tone_period := rfl
  noise_period := resetProfile_noisePeriod.symm
  toneTime_nonneg := le_rfl
  noiseTime_nonneg := le_rfl
  envTime_nonneg := le_rfl
  lastRefresh_le _ h := by cases h
  snapVol_nonneg := le_rfl
  snapVol_le := (resetProfile_legal hwt).volGain_nonneg
  snapTonePeriod_pos := by norm_num [resetChannel]
  snapNoisePeriod_pos := by norm_num [resetChannel]
  leftMult_unit := by norm_num [resetChannel, IsUnit01]
  rightMult_unit := by norm_num [resetChannel, IsUnit01]
  out_bipolar := by norm_num [resetChannel, IsBipolar]
  wavePrev_bipolar _ h := by cases h
  noiseHeld_bipolar := by norm_num [resetChannel, IsBipolar]
  wt_length := rfl
  wt_bipolar := by
    have hwt : resetChannel.wt = defaultTable 32 := rfl
    rw [hwt]
    exact defaultTable_bipolar 32
  wts_wf := Memory.wf_nil p.wtMax
  lfsr_legal := lfsrNew_legal hp resetProfile.noiseLen resetProfile.lfsrSeed
  env_legal i := by
    rw [resetChannel_slot]
    exact resetSlot_legal p.kMax (slotLow i)

/-! ## The chip after reset (R360) -/

/-- The state after reset is legal, for every configuration that can hold the reset wavetable. -/
theorem resetWith_legal {nCh : ℕ} {p : Config.Params} (hpos : 1 ≤ nCh) (hle : nCh ≤ 255) (hp : p.Legal)
    (hwt : 32 ≤ p.wtMax) : (State.resetWith nCh p).Legal where
  params_legal := hp
  channels_pos := by rwa [resetWith_nCh]
  channels_le := by rwa [resetWith_nCh]
  sampleRate_ne := (by decide : (44100 : Word32) ≠ 0)
  peak_ne h := by
    have hzero : nCh % 2 ^ 32 = 0 := congrArg BitVec.toNat h
    omega
  elapsed := by norm_num [State.resetWith]
  channels_legal c _ := by
    rw [resetWith_channel]
    exact resetChannel_legal hp hwt
  pcm_length := rfl
  pcm_range _ h := by cases h

/-- Settles O13: the defaults of R9 are one such configuration. -/
theorem resetStateIsLegal : Obligations.ResetStateIsLegal :=
  ⟨fun _ _ hpos hle hp hwt => resetWith_legal hpos hle hp hwt, rfl,
    resetWith_legal (by decide) (by decide) defaults_legal (by decide)⟩

/-- `CH_INIT` right after reset passes its checks and leaves the channel as it is. -/
theorem chInit_resetWith {nCh : ℕ} {p : Config.Params} (hwt : 32 ≤ p.wtMax) {ch : BitVec 8} (hch : ch.toNat < nCh) :
    exec (.chInit ch) (State.resetWith nCh p) = .next (okay (State.resetWith nCh p) 0) := by
  have hchannel := resetWith_channel nCh p ch.toNat
  have hstaged : ((State.resetWith nCh p).channel ch.toNat).staged = resetStaged := by rw [hchannel]; rfl
  rw [exec_chInit_of_legal (by rwa [resetWith_nCh]) (by rw [hstaged]; exact resetStaged_legal hwt), hstaged,
    interpret_resetStaged, hchannel, construct_resetChannel, ← hchannel, ← updateChannel_eq_okay, updateChannel,
    setChannel_channel_self, respond_eq_okay]

/-- Settles O28: the registers and the staging areas as written, the rest by `CH_INIT` leaving the channel as it
is. -/
theorem resetIsConstructionFromTheResetProfile : Obligations.ResetIsConstructionFromTheResetProfile := by
  refine ⟨rfl, fun nCh p _ hwt => ?_⟩
  refine ⟨resetWith_nCh nCh p, rfl, rfl, rfl, rfl, rfl, rfl, rfl, fun c _ => ?_, fun ch hch => ?_⟩
  · rw [resetWith_channel]
    refine ⟨rfl, fun _ => rfl, fun i => ?_⟩
    rw [resetChannel_slot]
    exact ⟨rfl, rfl, rfl, rfl, fun _ => ⟨rfl, rfl, rfl⟩⟩
  · exact chInit_resetWith hwt hch

end Sys2Proof.Proofs.Reset
end

