-- ==== Sys2Proof/Proofs/Invariant.lean ====
section
/-! PROOFS. Every step keeps the state legal (R34 to R51, R265, R297). A command of a channel leaves a legal channel
where there was one; a tick moves the clock on and appends a frame in range. -/

namespace Sys2Proof.Proofs.Invariant

open Sys2Proof Sys2Proof.Machine Sys2Proof.Claim Sys2Proof.Laws
open Sys2Proof.Proofs.MathUtilities (noteToFrequency_pos)
open Sys2Proof.Proofs.ChannelInit
open Sys2Proof.Proofs.Wavetables (firstBadSample_eq_none_iff shapeFrom_resetEnv shapeOf)

/-! ## The shared operations -/

section Operations

variable {s : State} (hs : s.Legal)
include hs

theorem respond_legal (data : Word64) : (respond data s).Legal :=
  { hs with channels_pos := hs.channels_pos, channels_le := hs.channels_le, channels_legal := hs.channels_legal }

theorem raiseError_legal (e : Status) (data : Word64) : (raiseError e data s).Legal :=
  { hs with channels_pos := hs.channels_pos, channels_le := hs.channels_le, channels_legal := hs.channels_legal }

theorem setChannel_legal {c : ℕ} {x : Channel} (hx : x.Legal s.params) : (s.setChannel c x).Legal :=
  { hs with
    channels_pos := by rw [setChannel_nCh]; exact hs.channels_pos
    channels_le := by rw [setChannel_nCh]; exact hs.channels_le
    channels_legal := fun d hd => by
      rw [setChannel_nCh] at hd
      by_cases hdc : d = c
      · subst hdc
        rw [setChannel_channel_same hd]
        exact hx
      · rw [setChannel_channel_other s x hdc]
        exact hs.channels_legal d hd }

theorem updateChannel_legal {c : ℕ} {x : Channel} (hx : x.Legal s.params) : (updateChannel s c x).Legal :=
  respond_legal (setChannel_legal hs hx) 0

end Operations

/-- The command leaves a legal state, if it ends in one. -/
def LeavesLegal (o : Host.Outcome State Fault Refusal) : Prop := ∀ t, o = .next t → t.Legal

theorem leavesLegal_next {t : State} (h : t.Legal) : LeavesLegal (.next t) := by
  rintro _ ⟨⟩
  exact h

section Checks

variable {s : State} (hs : s.Legal)
include hs

/-- A command of a channel is run on a legal channel or refused. -/
theorem onChannel_leavesLegal {ch : BitVec 8} {body : ℕ → State}
    (h : ch.toNat < s.nCh → (s.channel ch.toNat).Legal s.params → (body ch.toNat).Legal) :
    LeavesLegal (onChannel ch s body) := by
  intro t ht
  obtain ⟨hch, rfl⟩ | ⟨-, rfl⟩ := onChannel_cases ht
  · exact h hch (hs.channels_legal _ hch)
  · exact raiseError_legal hs ..

theorem onSlot_legal {slot : BitVec 4} {body : Fin 4 → State} (h : ∀ i, (body i).Legal) :
    (onSlot slot s body).Legal := by
  obtain ⟨i, -, hrun⟩ | ⟨-, hrefused⟩ := onSlot_cases slot s body
  · rw [hrun]
    exact h i
  · rw [hrefused]
    exact raiseError_legal hs ..

/-- A command that replaces one slot by a legal one. -/
theorem updateSlot_legal {c : ℕ} (hx : (s.channel c).Legal s.params) (i : Fin 4) {sl : EnvSlot}
    (hsl : sl.Legal s.params.kMax (slotLow i)) : (updateChannel s c ((s.channel c).setSlot i sl)).Legal :=
  updateChannel_legal hs (setSlot_legal hx i hsl)

theorem onKnot_leavesLegal {ch : BitVec 8} {slot : BitVec 4} {k : BitVec 12} {write : EnvSlot → EnvSlot}
    (h : k.toNat < s.params.kMax → ∀ lo sl, EnvSlot.Legal s.params.kMax lo sl →
      (write sl).Legal s.params.kMax lo) : LeavesLegal (onKnot ch slot k s write) := by
  refine onChannel_leavesLegal hs fun _ hx => onSlot_legal hs fun i => ?_
  split
  · next hk => exact updateSlot_legal hs hx i (h hk _ _ (hx.env_legal i))
  · exact raiseError_legal hs ..

theorem onPresent_leavesLegal {ch : BitVec 8} {slot : BitVec 4} {body : ℕ → Fin 4 → State}
    (h : (s.channel ch.toNat).Legal s.params → ∀ i, (body ch.toNat i).Legal) :
    LeavesLegal (onPresent ch slot s body) := by
  refine onChannel_leavesLegal hs fun _ hx => onSlot_legal hs fun i => ?_
  split
  · exact h hx i
  · exact raiseError_legal hs ..

end Checks

/-! ## Registers (R40, R312, R314) -/

theorem liveWrite_legal {v : Live} (h : v.Legal) (n : ℕ) (w : Word32) : (v.write n w).Legal := by
  unfold Live.write
  split
  · exact { h with tremAmp_unit := clamp_unit _ }
  · exact { h with tremFreq_nonneg := uq16_nonneg w }
  · exact { h with }
  · exact { h with vibAmp_nonneg := clamp_ge _, vibAmp_le := clamp_le _ (by norm_num) }
  · exact { h with vibFreq_nonneg := uq16_nonneg w }
  · exact { h with }
  · exact { h with }

theorem writeReg_legal {p : Config.Params} {x y : Channel} (h : x.Legal p) {n : ℕ} {w : Word32}
    (hwrite : x.writeReg n w = some y) : y.Legal p := by
  unfold Channel.writeReg at hwrite
  split at hwrite
  · cases hwrite
    exact { h with env_legal := h.env_legal }
  · split at hwrite
    · cases hwrite
      exact { h with live_legal := liveWrite_legal h.live_legal n w, env_legal := h.env_legal }
    · cases hwrite

/-- A global write stores no zero, and re-bases the elapsed time on the new rate (R293). -/
theorem writeGlobal_legal {s t : State} (hs : s.Legal) {n : ℕ} {w : Word32} (hwrite : s.writeGlobal n w = some t) :
    t.Legal := by
  unfold State.writeGlobal at hwrite
  split at hwrite
  · cases hwrite
  · next hw =>
    split at hwrite
    · cases hwrite
      exact { hs with sampleRate_ne := hw, elapsed := rfl, channels_legal := hs.channels_legal }
    · cases hwrite
      exact { hs with peak_ne := hw, channels_legal := hs.channels_legal }
    · cases hwrite

/-! ## The mixer (R291 to R297) -/

theorem sampleRate_pos {s : State} (hs : s.Legal) : (0 : ℚ) < s.sampleRate.toNat := by
  have hpos : s.sampleRate.toNat ≠ 0 := fun h => hs.sampleRate_ne (BitVec.eq_of_toNat_eq h)
  exact_mod_cast Nat.pos_of_ne_zero hpos

/-- On a legal state a tick takes one sample's time. -/
theorem tickDelta_nonneg {s : State} (hs : s.Legal) : 0 ≤ s.tickDelta := by
  have hrate := sampleRate_pos hs
  have hone : s.tickDelta = 1 / s.sampleRate.toNat := by
    rw [State.tickDelta, State.elapsedAt, hs.elapsed]
    push_cast
    ring
  rw [hone]
  positivity

theorem toPcm_softClip_range (peak x : ℚ) :
    -32767 ≤ toPcm (softClip peak x) ∧ toPcm (softClip peak x) ≤ 32767 :=
  trunc_range (clamp_ge _) (clamp_le _ (by norm_num))

theorem mixed_inRange (s : State) : s.mixed.InRange :=
  ⟨toPcm_softClip_range .., toPcm_softClip_range ..⟩

theorem tick_legal {s : State} (hs : s.Legal) : (tick s).Legal where
  params_legal := hs.params_legal
  channels_pos := by rw [tick_nCh]; exact hs.channels_pos
  channels_le := by rw [tick_nCh]; exact hs.channels_le
  sampleRate_ne := hs.sampleRate_ne
  peak_ne := hs.peak_ne
  elapsed := rfl
  channels_legal c hc := by
    rw [tick_nCh] at hc
    rw [tick_channel hc]
    exact sample_legal hs.params_legal (hs.channels_legal c hc) c (tickDelta_nonneg hs)
  pcm_length := by rw [tick_pcm, List.length_append, hs.pcm_length]; rfl
  pcm_range f hf := by
    rw [tick_pcm, List.mem_append, List.mem_singleton] at hf
    obtain hf | rfl := hf
    · exact hs.pcm_range f hf
    · exact mixed_inRange s

theorem ticks_legal {s : State} (hs : s.Legal) (n : ℕ) : (ticks n s).Legal := by
  induction n generalizing s with
  | zero => exact hs
  | succ n ih => exact ih (tick_legal hs)

/-! ## Channels (R182, R187 to R194) -/

/-- Words that pass the checks mean a legal profile (R41). -/
theorem interpret_legal {wtMax : ℕ} {w : Vector Word32 22} (h : ∀ q ∈ profileConditions wtMax w, q.2) :
    (interpret w).Legal wtMax := by
  simp only [profileConditions, List.forall_mem_cons, List.not_mem_nil, false_implies, implies_true, and_true] at h
  obtain ⟨⟨hlen, hmax⟩, -, hmult, hlo, hhi, ⟨hattn, hattn'⟩, hexp, hgain, -, -, hnoise, hnlo, hnhi⟩ := h
  exact
    { wtLen_pos := hlen
      wtLen_le := hmax
      pitchMult_pos := (q16_pos_iff _).2 hmult
      pitchLo_pos := (uq16_pos_iff _).2 hlo
      pitch_range := (uq16_le_iff _ _).2 hhi
      volAttn_unit := ⟨(q16_nonneg_iff _).2 hattn, (q16_le_one_iff _).2 hattn'⟩
      volExp_pos := (q16_pos_iff _).2 hexp
      volGain_nonneg := (q16_nonneg_iff _).2 hgain
      noisePmult_pos := (q16_pos_iff _).2 hnoise
      noisePlo_pos := fun hsteps => (uq16_pos_iff _).2 (hnlo hsteps)
      noise_range := fun hsteps => (uq16_le_iff _ _).2 (hnhi hsteps)
      envRate_nonneg := uq16_nonneg _ }

theorem uq16_pos_of_ne {w : Word32} (h : uq16 w ≠ 0) : 0 < uq16 w := (uq16_nonneg w).lt_of_ne' h

/-! ## Wavetables (R242, R243) -/

/-- A buffer whose samples are in range is resampled to a legal wavetable: each entry reads inside the buffer. -/
theorem resampled_legal {p : Config.Params} {x : Channel} (h : x.Legal p) {cmd c n : ℕ} (hn : 1 ≤ n)
    (hgood : x.firstBadSample cmd c n = none) : ({ x with wt := x.resampled cmd c n } : Channel).Legal p :=
  { h with
    wt_length := by simp [Channel.resampled]
    wt_bipolar := fun v hv => by
      simp only [Channel.resampled, List.mem_map, List.mem_range] at hv
      obtain ⟨i, hi, rfl⟩ := hv
      refine firstBadSample_eq_none_iff.1 hgood _ (Nat.div_lt_of_lt_mul ?_)
      exact Nat.mul_lt_mul_of_pos_right hi hn
    env_legal := h.env_legal }

theorem shapeFrom_legal {n : ℕ} {lo : ℚ} (eps : ℚ) (c len todo start : ℕ) {sl : EnvSlot} (h : sl.Legal n lo) :
    (shapeFrom eps c len todo start sl).2.Legal n lo := by
  induction todo generalizing start sl with
  | zero => exact h
  | succ todo ih => exact ih (start + 1) (query_legal h eps c 3 0 _)

/-- A reset envelope answers values of its range, so what is read from slot 3 is a legal wavetable. -/
theorem shapeOf_bipolar {n : ℕ} {e : Envelope} (h : e.Legal n (-1)) (eps : ℚ) (len : ℕ) :
    ∀ v ∈ shapeOf eps len e, IsBipolar v := by
  intro v hv
  simp only [shapeOf, List.mem_map] at hv
  obtain ⟨i, -, rfl⟩ := hv
  exact peek_unreleased_range (reset_legal h) rfl rfl

theorem fromEnv_legal {p : Config.Params} {x : Channel} (h : x.Legal p) (hsome : (x.slot 3).env.isSome) (eps : ℚ)
    (c : ℕ) :
    ({ x.setSlot 3 (shapeFrom eps c x.active.wtLen x.active.wtLen 0 (x.slot 3).resetEnv).2 with
      wt := (shapeFrom eps c x.active.wtLen x.active.wtLen 0 (x.slot 3).resetEnv).1 } : Channel).Legal p := by
  obtain ⟨e, he⟩ := Option.isSome_iff_exists.1 hsome
  obtain ⟨d, t, -, hshape⟩ := shapeFrom_resetEnv he eps c x.active.wtLen
  have hslot := setSlot_legal h 3 (shapeFrom_legal eps c x.active.wtLen x.active.wtLen 0 (resetEnv_legal (h.env_legal 3)))
  exact
    { hslot with
      wt_length := by rw [hshape]; simp [shapeOf]
      wt_bipolar := by
        rw [hshape]
        exact shapeOf_bipolar ((h.env_legal 3).env_legal e he) eps _
      env_legal := hslot.env_legal }

/-! ## The commands with a check of their own -/

section Commands

variable {s : State} (hs : s.Legal) (ch : BitVec 8)
include hs

theorem execRreg_leavesLegal (idx : BitVec 16) : LeavesLegal (execRreg ch idx s) := by
  refine onChannel_leavesLegal hs fun _ _ => ?_
  cases (s.channel ch.toNat).readReg idx.toNat with
  | none => exact raiseError_legal hs ..
  | some w => exact respond_legal hs _

theorem execWreg_leavesLegal (idx : BitVec 16) (imm : Word32) : LeavesLegal (execWreg ch idx imm s) := by
  refine onChannel_leavesLegal hs fun _ hx => ?_
  cases hwrite : (s.channel ch.toNat).writeReg idx.toNat imm with
  | none => exact raiseError_legal hs ..
  | some x => exact updateChannel_legal hs (writeReg_legal hx hwrite)

theorem execRglb_leavesLegal (idx : BitVec 16) : LeavesLegal (execRglb idx s) := by
  refine leavesLegal_next ?_
  cases s.readGlobal idx.toNat with
  | none => exact raiseError_legal hs ..
  | some w => exact respond_legal hs _

theorem execWglb_leavesLegal (idx : BitVec 16) (imm : Word32) : LeavesLegal (execWglb idx imm s) := by
  refine leavesLegal_next ?_
  cases hwrite : s.writeGlobal idx.toNat imm with
  | none => exact raiseError_legal hs ..
  | some t => exact respond_legal (writeGlobal_legal hs hwrite) 0

theorem execChInit_leavesLegal : LeavesLegal (execChInit ch s) := by
  refine onChannel_leavesLegal hs fun _ hx => ?_
  cases hcheck : firstBadRegister s.params.wtMax (s.channel ch.toNat).staged with
  | none =>
    have hprofile := interpret_legal ((firstBadRegister_eq_none_iff _ _).1 hcheck)
    exact updateChannel_legal hs (construct_legal hs.params_legal hx hprofile)
  | some r => exact raiseError_legal hs ..

theorem execSetPitch_leavesLegal (rst : Bool) (imm : Word32) : LeavesLegal (execSetPitch ch rst imm s) := by
  refine onChannel_leavesLegal hs fun _ hx => ?_
  dsimp only
  split
  · exact raiseError_legal hs ..
  · next hf => exact updateChannel_legal hs (setFrequency_legal hx (uq16_pos_of_ne hf) _ rst)

theorem execSetNoise_leavesLegal (on : Bool) : LeavesLegal (execSetNoise ch on s) := by
  refine onChannel_leavesLegal hs fun _ hx => ?_
  split
  · exact respond_legal hs 0
  · next hkind => exact updateChannel_legal hs { hx with noise_kind := fun _ => hkind, env_legal := hx.env_legal }

theorem execCsample_leavesLegal (imm : Word32) : LeavesLegal (execCsample ch imm s) := by
  refine onChannel_leavesLegal hs fun _ hx => ?_
  have hdelta : 0 ≤ uq32 imm := by rw [uq32]; positivity
  exact respond_legal (setChannel_legal hs (sample_legal hs.params_legal hx ch.toNat hdelta)) _

theorem execWtStage_leavesLegal (idx : BitVec 16) (imm : Word32) : LeavesLegal (execWtStage ch idx imm s) := by
  refine onChannel_leavesLegal hs fun _ hx => ?_
  split
  · next hidx =>
    exact updateChannel_legal hs
      { hx with wts_wf := Memory.wf_write hx.wts_wf imm hidx, env_legal := hx.env_legal }
  · exact raiseError_legal hs ..

theorem execWtCommit_leavesLegal (imm : Word32) : LeavesLegal (execWtCommit ch imm s) := by
  refine onChannel_leavesLegal hs fun _ hx => ?_
  split
  · exact raiseError_legal hs ..
  · next hlen =>
    cases hcheck : (s.channel ch.toNat).firstBadSample s.commandNo ch.toNat imm.toNat with
    | none => exact updateChannel_legal hs (resampled_legal hx (by omega) hcheck)
    | some j => exact raiseError_legal hs ..

theorem execWtFromEnv_leavesLegal : LeavesLegal (execWtFromEnv ch s) := by
  refine onChannel_leavesLegal hs fun _ hx => ?_
  dsimp only
  split
  · next hsome => exact updateChannel_legal hs (fromEnv_legal hx hsome _ _)
  · exact raiseError_legal hs ..

theorem execEnvBuild_leavesLegal (slot : BitVec 4) (imm : Word32) : LeavesLegal (execEnvBuild ch slot imm s) := by
  refine onChannel_leavesLegal hs fun _ hx => onSlot_legal hs fun i => ?_
  split
  · exact raiseError_legal hs ..
  · next hcount =>
    dsimp only
    split
    · exact raiseError_legal hs ..
    · next hgood =>
      have hlen : (((s.channel ch.toNat).slot i).stagedKnots s.commandNo ch.toNat i.val imm.toNat).length =
          imm.toNat := by simp [EnvSlot.stagedKnots]
      have hvalues : ∀ k ∈ ((s.channel ch.toNat).slot i).stagedKnots s.commandNo ch.toNat i.val imm.toNat,
          slotLow i ≤ k.value ∧ k.value ≤ 1 := by simpa using hgood
      have hslot := hx.env_legal i
      have hbuilt := envBuild_legal (n := s.params.kMax) (List.length_pos_iff.1 (by omega)) (by omega) hvalues
        ((s.channel ch.toNat).slot i).skind ((s.channel ch.toNat).slot i).sloopIn
        ((s.channel ch.toNat).slot i).sloopOut hslot.sdecay_unit
      refine updateChannel_legal hs (touchSlot_legal (setSlot_legal hx i ?_) i)
      exact { hslot with env_legal := fun e he => by cases he; exact hbuilt }

end Commands

/-! ## Every command, every step -/

/-- Apart from the commands above, a command of a channel stores an element that is legal whatever the operand
is. -/
theorem exec_leavesLegal {s : State} (hs : s.Legal) (i : Instr) : LeavesLegal (exec i s) := by
  cases i with
  | nop => exact leavesLegal_next (respond_legal hs 0)
  | tick => exact leavesLegal_next (respond_legal (tick_legal hs) _)
  | iter imm => exact leavesLegal_next (respond_legal (ticks_legal hs imm.toNat) _)
  | rreg ch idx => exact execRreg_leavesLegal hs ch idx
  | wreg ch idx imm => exact execWreg_leavesLegal hs ch idx imm
  | rglb idx => exact execRglb_leavesLegal hs idx
  | wglb idx imm => exact execWglb_leavesLegal hs idx imm
  | chInit ch => exact execChInit_leavesLegal hs ch
  | setPitch ch rst imm => exact execSetPitch_leavesLegal hs ch rst imm
  | setNoise ch on => exact execSetNoise_leavesLegal hs ch on
  | csample ch imm => exact execCsample_leavesLegal hs ch imm
  | wtStage ch idx imm => exact execWtStage_leavesLegal hs ch idx imm
  | wtCommit ch imm => exact execWtCommit_leavesLegal hs ch imm
  | wtFromEnv ch => exact execWtFromEnv_leavesLegal hs ch
  | envBuild ch slot imm => exact execEnvBuild_leavesLegal hs ch slot imm
  | isNoise | lfsrOut =>
    simp only [exec, execIsNoise, execLfsrOut]
    exact onChannel_leavesLegal hs fun _ _ => respond_legal hs _
  | play =>
    rw [exec, execPlay]
    refine onChannel_leavesLegal hs fun _ hx => updateChannel_legal hs ?_
    exact updatePan_legal { hx with env_legal := hx.env_legal }
  | stop =>
    rw [exec, execStop]
    refine onChannel_leavesLegal hs fun _ hx => updateChannel_legal hs ?_
    exact { channelReset_legal hx with env_legal := (channelReset_legal hx).env_legal }
  | reset =>
    rw [exec, execReset]
    exact onChannel_leavesLegal hs fun _ hx => updateChannel_legal hs (channelReset_legal hx)
  | release =>
    rw [exec, execRelease]
    refine onChannel_leavesLegal hs fun _ hx => updateChannel_legal hs ?_
    have harm := onSounding_legal hx (f := EnvSlot.armEnv) fun _ _ => armEnv_legal
    exact { harm with env_legal := harm.env_legal }
  | setNote | setMidi =>
    simp only [exec, execSetNote, execSetMidi]
    exact onChannel_leavesLegal hs fun _ hx =>
      updateChannel_legal hs (setFrequency_legal hx (noteToFrequency_pos _) _ _)
  | setVol =>
    rw [exec, execSetVol]
    refine onChannel_leavesLegal hs fun _ hx => updateChannel_legal hs ?_
    exact { hx with volume_unit := clamp_unit _, env_legal := hx.env_legal }
  | setPan =>
    rw [exec, execSetPan]
    refine onChannel_leavesLegal hs fun _ hx => updateChannel_legal hs (updatePan_legal ?_)
    exact { hx with pan_bipolar := ⟨clamp_ge _, clamp_le _ (by norm_num)⟩, env_legal := hx.env_legal }
  | envKnotT =>
    rw [exec, execEnvKnotT]
    exact onKnot_leavesLegal hs fun hk _ sl hsl => { hsl with times_wf := Memory.wf_write hsl.times_wf _ hk }
  | envKnotV =>
    rw [exec, execEnvKnotV]
    exact onKnot_leavesLegal hs fun hk _ sl hsl => { hsl with values_wf := Memory.wf_write hsl.values_wf _ hk }
  | envKnotI =>
    rw [exec, execEnvKnotI]
    exact onKnot_leavesLegal hs fun hk _ sl hsl => { hsl with interps_wf := Memory.wf_write hsl.interps_wf _ hk }
  | envLoop =>
    rw [exec, execEnvLoop]
    refine onChannel_leavesLegal hs fun _ hx => onSlot_legal hs fun i => updateSlot_legal hs hx i ?_
    exact { hx.env_legal i with }
  | envDecay =>
    rw [exec, execEnvDecay]
    refine onChannel_leavesLegal hs fun _ hx => onSlot_legal hs fun i => updateSlot_legal hs hx i ?_
    exact { hx.env_legal i with sdecay_unit := clamp_unit _ }
  | envClear =>
    rw [exec, execEnvClear]
    exact onChannel_leavesLegal hs fun _ hx => onSlot_legal hs fun i =>
      updateChannel_legal hs (touchSlot_legal (setSlot_legal hx i (clear_legal (hx.env_legal i))) i)
  | envReset =>
    rw [exec, execEnvReset]
    exact onPresent_leavesLegal hs fun hx i => updateSlot_legal hs hx i (resetEnv_legal (hx.env_legal i))
  | envRelease =>
    rw [exec, execEnvRelease]
    exact onPresent_leavesLegal hs fun hx i => updateSlot_legal hs hx i (armEnv_legal (hx.env_legal i))
  | envPeek =>
    rw [exec, execEnvPeek]
    exact onPresent_leavesLegal hs fun hx i =>
      respond_legal (setChannel_legal hs (setSlot_legal hx i (query_legal (hx.env_legal i) ..))) _
  | lfsrInit =>
    rw [exec, execLfsrInit]
    refine onChannel_leavesLegal hs fun _ hx => respond_legal (setChannel_legal hs ?_) _
    exact { hx with lfsr_legal := lfsrNew_legal hs.params_legal _ _, env_legal := hx.env_legal }
  | lfsrStep =>
    rw [exec, execLfsrStep]
    refine onChannel_leavesLegal hs fun _ hx => respond_legal (setChannel_legal hs ?_) _
    exact { hx with lfsr_legal := lfsr_step_legal hs.params_legal hx.lfsr_legal, env_legal := hx.env_legal }

/-- What is presented to a legal chip is no part of its legality. -/
theorem inbox_legal {s : State} (hs : s.Legal) (inbox : List Word64) : ({ s with inbox := inbox } : State).Legal :=
  { hs with channels_pos := hs.channels_pos, channels_le := hs.channels_le, channels_legal := hs.channels_legal }

/-- Settles O12: a step idles, runs a command, or raises the error of an illegal word. -/
theorem stepKeepsTheStateLegal : Obligations.StepKeepsTheStateLegal := by
  intro s t hs hstep
  obtain ⟨-, hidle⟩ | ⟨w, rest, -, hrun⟩ := step_cases s
  · cases hidle.symm.trans hstep
    exact hs
  · rw [hrun] at hstep
    cases hd : decode w with
    | ok i =>
      rw [runWord_of_ok hd] at hstep
      exact exec_leavesLegal (inbox_legal hs rest) i t hstep
    | error e =>
      rw [runWord_of_error hd] at hstep
      cases hstep
      exact raiseError_legal (inbox_legal hs rest) ..

end Sys2Proof.Proofs.Invariant
end

