-- ==== Sys2Proof/Proofs/Refusals.lean ====
section
/-! PROOFS. A command whose operands name nothing is refused (`30_encoding.md` R105 (3) and (4), `60_exceptions.md`
R333): the channel is checked first, then what the command names inside it. -/

namespace Sys2Proof.Proofs.Refusals

open Sys2Proof Sys2Proof.Machine Sys2Proof.Claim Sys2Proof.Laws
open Sys2Proof.Proofs.ChannelSample (raiseError_eq_failed exec_wtStage)
open Sys2Proof.Proofs.SystemCommands
open Sys2Proof.Proofs.Wavetables (exec_wtCommit_bad_length)

/-- The error of an operand that names nothing. -/
theorem badOperand_eq_failed (data : Word64) (s : State) :
    raiseError .badOperand data s = failed s .badOperand data := raiseError_eq_failed (by decide) data s

/-! ## A channel that does not exist -/

/-- Every command that names a channel checks it before anything else. -/
theorem exec_of_absent_channel {i : Instr} {ch : BitVec 8} {s : State} (hi : namedChannel i = some ch)
    (h : ¬ch.toNat < s.nCh) : exec i s = .next (failed s .badOperand 0) := by
  have hrefused (body : ℕ → State) : onChannel ch s body = .next (failed s .badOperand 0) := by
    rw [onChannel_of_ge h, badOperand_eq_failed]
  cases i <;> simp only [namedChannel, Option.some.injEq, reduceCtorEq] at hi <;> subst hi <;> rw [exec]
  case envKnotT | envKnotV | envKnotI =>
    simp only [execEnvKnotT, execEnvKnotV, execEnvKnotI]
    exact hrefused _
  case envReset | envRelease | envPeek =>
    simp only [execEnvReset, execEnvRelease, execEnvPeek]
    exact hrefused _
  all_goals exact hrefused _

/-- The data of that error is 0, for every command. -/
theorem badOperandData_of_absent_channel {i : Instr} {ch : BitVec 8} {nCh : ℕ} (hi : namedChannel i = some ch)
    (h : ¬ch.toNat < nCh) : badOperandData nCh i = 0 := by
  cases i <;> simp only [namedChannel, Option.some.injEq, reduceCtorEq] at hi <;> subst hi <;>
    simp [badOperandData, h]

/-! ## A register that does not exist (R40) -/

theorem readReg_of_not_readable {idx : BitVec 16} (x : Channel) (h : regReadable idx = false) :
    x.readReg idx.toNat = none := by
  simp only [regReadable, regWritable, Bool.or_eq_false_iff, Bool.and_eq_false_iff, decide_eq_false_iff_not] at h
  obtain ⟨⟨⟨hstaged, hlive⟩, hstatus⟩, hmirror⟩ := h
  exact readReg_none x (by omega) (by omega) (by omega) (by omega)

theorem writeReg_of_not_writable {idx : BitVec 16} (x : Channel) (w : Word32) (h : regWritable idx = false) :
    x.writeReg idx.toNat w = none := by
  simp only [regWritable, Bool.or_eq_false_iff, Bool.and_eq_false_iff, decide_eq_false_iff_not] at h
  obtain ⟨hstaged, hlive⟩ := h
  exact writeReg_none x w (by omega) (by omega)

/-! ## A slot or a knot that does not exist (R157) -/

section Slots

variable {ch : BitVec 8} {slot : BitVec 4} {s : State} (hch : ch.toNat < s.nCh)
include hch

theorem onSlot_refused (hslot : slotExists slot = false) (body : ℕ → Fin 4 → State) :
    onChannel ch s (fun c => onSlot slot s (body c)) = .next (failed s .badOperand 0) := by
  rw [onChannel_of_lt hch, onSlot_of_ge (of_decide_eq_false hslot), badOperand_eq_failed]

theorem onKnot_refused {k : BitVec 12} (h : (slotExists slot && knotExists s.params k) = false)
    (write : EnvSlot → EnvSlot) : onKnot ch slot k s write = .next (failed s .badOperand 0) := by
  rw [Bool.and_eq_false_iff] at h
  by_cases hslot : slot.toNat < 4
  · have hknot : ¬k.toNat < s.params.kMax := of_decide_eq_false (h.resolve_left (by simp [hslot]))
    rw [onKnot, onChannel_of_lt hch, onSlot_of_lt hslot, if_neg hknot, badOperand_eq_failed]
  · exact onSlot_refused hch (decide_eq_false hslot) _

theorem envBuild_refused {imm : Word32}
    (h : (slotExists slot && decide (imm.toNat ≠ 0) && decide (imm.toNat ≤ s.params.kMax)) = false) :
    execEnvBuild ch slot imm s = .next (failed s .badOperand 0) := by
  by_cases hslot : slot.toNat < 4
  · have hcount : imm.toNat = 0 ∨ s.params.kMax < imm.toNat := by
      simp only [slotExists, Bool.and_eq_false_iff, decide_eq_false_iff_not] at h
      omega
    rw [execEnvBuild, onChannel_of_lt hch, onSlot_of_lt hslot, if_pos hcount, badOperand_eq_failed]
  · exact onSlot_refused hch (decide_eq_false hslot) _

end Slots

/-! ## Every command -/

/-- On a channel that exists, what else the command names is refused. -/
theorem exec_of_present_channel {i : Instr} {ch : BitVec 8} {s : State} (hi : namedChannel i = some ch)
    (h : ch.toNat < s.nCh) (hbad : i.wellFormed s.nCh s.params = false) :
    exec i s = .next (failed s .badOperand (badOperandData s.nCh i)) := by
  cases i <;> simp only [namedChannel, Option.some.injEq, reduceCtorEq] at hi <;> subst hi <;>
    simp only [Instr.wellFormed, chExists, h, decide_true, Bool.true_and, reduceCtorEq] at hbad <;>
    simp only [badOperandData, h, if_true]
  case rreg => exact exec_rreg_of_none h (readReg_of_not_readable _ hbad)
  case wreg => exact exec_wreg_of_none h (writeReg_of_not_writable _ _ hbad)
  case setPitch ch rst imm =>
    have hzero : imm = 0 := by simpa using hbad
    have hfreq : uq16 imm = 0 := by rw [hzero]; norm_num [uq16]
    rw [exec, execSetPitch, onChannel_of_lt h, if_pos hfreq, badOperand_eq_failed]
  case wtStage => rw [exec_wtStage h, if_neg (of_decide_eq_false hbad)]
  case wtCommit ch imm =>
    refine exec_wtCommit_bad_length h ?_
    simp only [Bool.and_eq_false_iff, decide_eq_false_iff_not] at hbad
    omega
  all_goals rw [exec]
  case envKnotT | envKnotV | envKnotI => exact onKnot_refused h hbad _
  case envBuild => exact envBuild_refused h hbad
  case envReset | envRelease | envPeek =>
    simp only [execEnvReset, execEnvRelease, execEnvPeek]
    exact onSlot_refused h hbad _
  all_goals exact onSlot_refused h hbad _

/-- Settles O9: a command that names a channel checks it and then its other operands; of the others only the
accesses to global registers have an operand that can name nothing. -/
theorem operandsThatNameNothingAreRefused : Obligations.OperandsThatNameNothingAreRefused := by
  intro i s hbad
  cases hi : namedChannel i with
  | some ch =>
    by_cases hch : ch.toNat < s.nCh
    · exact exec_of_present_channel hi hch hbad
    · rw [exec_of_absent_channel hi hch, badOperandData_of_absent_channel hi hch]
  | none =>
    cases i <;> simp only [namedChannel, reduceCtorEq] at hi <;>
      simp only [Instr.wellFormed, reduceCtorEq] at hbad
    case rglb idx =>
      exact exec_rglb_of_none (readGlobal_of_gt s (not_le.mp (of_decide_eq_false hbad)))
    case wglb idx imm =>
      rw [Bool.and_eq_false_iff] at hbad
      obtain hidx | himm := hbad
      · exact exec_wglb_of_none (writeGlobal_of_gt s (not_le.mp (of_decide_eq_false hidx)))
      · have hzero : imm = 0 := by simpa using himm
        exact exec_wglb_of_none (hzero ▸ writeGlobal_zero s _)

end Sys2Proof.Proofs.Refusals
end

