-- ==== Sys2Proof/Proofs/Mixer.lean ====
section
/-! PROOFS. The mixer (`45_mixer.md` R290 to R298): the tick in the words of the rules, its range, the soft clip,
runs of ticks, silence, and the independence of the channels. -/

namespace Sys2Proof.Proofs.Mixer

open Sys2Proof Sys2Proof.Machine Sys2Proof.Claim Sys2Proof.Laws
open Sys2Proof.Proofs.ChannelControl (respond_eq_okay)
open Sys2Proof.Proofs.ChannelSample (sample_of_stopped stoppedFrame_decayOut)
open Sys2Proof.Proofs.Exceptions (ticks_keepsPorts)
open Sys2Proof.Proofs.Invariant (mixed_inRange)

/-! ## The soft clip (R294) -/

section SoftClip

/-- The soft clip reads the sine on a quarter turn to either side. -/
theorem quarter_mem (t : ℚ) : -(1 / 4) ≤ clamp t (-1) 1 / 4 ∧ clamp t (-1) 1 / 4 ≤ 1 / 4 := by
  have hlow : -1 ≤ clamp t (-1) 1 := clamp_ge t
  have hhigh : clamp t (-1) 1 ≤ 1 := clamp_le t (by norm_num)
  constructor <;> linarith

theorem softClip_eq (p x : ℚ) :
    softClip p x = limit (-1) 1 (Config.num.val.sint (limit (-1) 1 (x / p) / 4)) := by
  rw [softClip, sint_eq]; rfl

/-- The outer limit never acts: the sine is in its range. -/
theorem softClip_eq_sint (p x : ℚ) : softClip p x = sint (clamp (x / p) (-1) 1 / 4) :=
  clamp_of_mem (sint_ge _) (sint_le _)

theorem clamp_neg (t : ℚ) : clamp (-t) (-1) 1 = -clamp t (-1) 1 := by
  rw [clamp, clamp, max_min_distrib_left, max_eq_right (by norm_num : (-1 : ℚ) ≤ 1), ← min_neg_neg, ← max_neg_neg]
  norm_num [max_comm, min_comm]

theorem softClip_neg (p x : ℚ) : softClip p (-x) = -softClip p x := by
  rw [softClip_eq_sint, softClip_eq_sint, neg_div, clamp_neg, neg_div, sint_eq, sint_eq, num_lawful.sint_neg]

theorem softClip_zero (p : ℚ) : softClip p 0 = 0 := by
  have hmid : clamp (0 / p) (-1) 1 / 4 = 0 := by norm_num [clamp]
  rw [softClip_eq_sint, hmid, sint_eq, num_lawful.sint_zero]

variable {p : ℚ} (hp : 0 < p)
include hp

theorem softClip_third : softClip p (p / 3) = 1 / 2 := by
  have hthird : p / 3 / p = 1 / 3 := by field_simp
  have hturn : clamp (1 / 3) (-1) 1 / 4 = 1 / 12 := by norm_num [clamp]
  rw [softClip_eq_sint, hthird, hturn, sint_eq, num_lawful.sint_twelfth]

theorem softClip_of_peak_le {x : ℚ} (hx : p ≤ x) : softClip p x = 1 := by
  have hone : 1 ≤ x / p := (one_le_div hp).2 hx
  have hturn : clamp (x / p) (-1) 1 / 4 = 1 / 4 := by rw [clamp, min_eq_left hone]; norm_num
  rw [softClip_eq_sint, hturn, sint_eq, num_lawful.sint_quarter]

theorem softClip_mono {x y : ℚ} (hxy : x ≤ y) : softClip p x ≤ softClip p y := by
  have hturn : clamp (x / p) (-1) 1 / 4 ≤ clamp (y / p) (-1) 1 / 4 := by
    have hclamp : clamp (x / p) (-1) 1 ≤ clamp (y / p) (-1) 1 := clamp_mono (by gcongr)
    linarith
  rw [softClip_eq_sint, softClip_eq_sint, sint_eq, sint_eq]
  exact num_lawful.sint_mono _ _ (quarter_mem _).1 hturn (quarter_mem _).2

end SoftClip

/-- Settles O22: the exact points and the monotony of the sine, on the quarter turns it is read on. -/
theorem softClipIsAQuarterSine : Obligations.SoftClipIsAQuarterSine := fun p hp =>
  ⟨softClip_eq p, softClip_zero p, softClip_third hp, fun _ => softClip_of_peak_le hp, softClip_neg p,
    fun _ _ => softClip_mono hp⟩

/-! ## One tick (R291 to R295) -/

/-- Rounding toward zero is the floor above zero and the ceiling below (R13). -/
theorem trunc_eq (y : ℚ) : trunc y = if 0 ≤ y then ⌊y⌋ else ⌈y⌉ := by
  rw [trunc]
  split
  · rfl
  · exact (congrArg Neg.neg (Int.floor_neg (a := y))).trans (neg_neg _)

theorem toPcm_softClip (peak : Word32) (sum : ℚ) : toPcm (softClip (peak.toNat : ℚ) sum) = pcmOf peak sum := by
  rw [toPcm, trunc_eq, softClip_eq]; rfl

/-- The mixer's running sum is the sum over the slots. -/
theorem foldl_add_eq_sum (f : Channel → ℚ) (x : ℕ → Channel) (n : ℕ) :
    ((List.range n).map x).foldl (fun a y => a + f y) 0 = ∑ c ∈ Finset.range n, f (x c) := by
  induction n with
  | zero => rfl
  | succ n ih => rw [List.range_succ, List.map_append, List.foldl_append, ih, Finset.sum_range_succ]; rfl

/-- The two fields of a PCM frame as a number (R95). -/
theorem pcmData_eq (f : PcmFrame) :
    pcmData f = BitVec.ofNat 64 ((f.left % 65536).toNat * 65536 + (f.right % 65536).toNat) := by
  have hleft : (f.left % 65536).toNat < 65536 := by omega
  have hright : (f.right % 65536).toNat < 2 ^ 16 := by omega
  apply BitVec.eq_of_toNat_eq
  rw [pcmData, BitVec.toNat_append, BitVec.toNat_append, BitVec.toNat_ofInt, BitVec.toNat_ofInt, BitVec.toNat_ofNat]
  change (0 <<< 16 ||| (f.left % 65536).toNat) <<< 16 ||| (f.right % 65536).toNat = _
  rw [← Nat.shiftLeft_add_eq_or_of_lt hright, Nat.zero_shiftLeft, Nat.zero_or, Nat.shiftLeft_eq]
  omega

/-- The meaning of `TICK`. -/
theorem exec_tick (s : State) : exec .tick s = .next (respond (pcmData s.mixed) (tick s)) := rfl

theorem mixed_left (s : State) : s.mixed.left =
    pcmOf s.peak (∑ c ∈ Finset.range s.nCh, ((s.channel c).sample s.params c s.tickDelta).frameL) := by
  change toPcm (softClip s.peak.toNat (sumLeft s.sampled)) = _
  rw [toPcm_softClip, sumLeft, State.sampled, foldl_add_eq_sum]

theorem mixed_right (s : State) : s.mixed.right =
    pcmOf s.peak (∑ c ∈ Finset.range s.nCh, ((s.channel c).sample s.params c s.tickDelta).frameR) := by
  change toPcm (softClip s.peak.toNat (sumRight s.sampled)) = _
  rw [toPcm_softClip, sumRight, State.sampled, foldl_add_eq_sum]

/-- Settles O19: the frame's sides are the clipped sums, and its data is their two fields. -/
theorem tickAdvancesSamplesAndMixes : Obligations.TickAdvancesSamplesAndMixes := by
  intro s elapsed after l r
  have hmixed : s.mixed = ⟨l, r⟩ := by
    rw [← show s.mixed.left = l from mixed_left s, ← show s.mixed.right = r from mixed_right s]
  rw [exec_tick, pcmData_eq, tick, hmixed]
  rfl

/-- Settles O21: the soft clip is in -1 .. 1. -/
theorem tickOutputStaysInRange : Obligations.TickOutputStaysInRange := by
  intro s
  obtain ⟨⟨hleft, hleft'⟩, hright, hright'⟩ := mixed_inRange s
  exact ⟨_, s.mixed, exec_tick s, rfl, hleft, hleft', hright, hright'⟩

/-- Settles O24: a tick samples the channel with the delta, and reads nothing else. -/
theorem channelsTickIndependently : Obligations.ChannelsTickIndependently := by
  intro s s' c hc hc' hparams hchannel hdelta
  refine ⟨_, _, exec_tick s, exec_tick s', ?_⟩
  rw [respond_channel, respond_channel, tick_channel hc, tick_channel hc', hparams, hchannel,
    show s.tickDelta = s'.tickDelta from hdelta]

/-! ## Runs of ticks (R296) -/

/-- Ticks neither read nor change the responses given. -/
theorem ticks_with_responses (n : ℕ) (s : State) (given : List Response) :
    ticks n { s with responses := given } = { ticks n s with responses := given } := by
  induction n generalizing s with
  | zero => rfl
  | succ n ih => exact ih (tick s)

/-- Commands `TICK` in a row are ticks in a row, but for the responses. -/
theorem tickRun_with_responses (n : ℕ) (s : State) (given : List Response) :
    { tickRun n s with responses := given } = { ticks n s with responses := given } := by
  induction n generalizing s with
  | zero => rfl
  | succ n ih =>
    rw [tickRun, exec_tick]
    dsimp only
    rw [ih, ← ticks_with_responses, ← ticks_with_responses]
    rfl

/-- The meaning of `ITER`. -/
theorem exec_iter (imm : Word32) (s : State) :
    exec (.iter imm) s = .next (okay (ticks imm.toNat s) (BitVec.ofNat 64 imm.toNat)) := by
  rw [exec, execIter, zext_eq, respond_eq_okay]

/-- Settles O20: both runs are the same ticks, and the ticks leave the responses alone. -/
theorem iterIsRepeatedTicks : Obligations.IterIsRepeatedTicks := by
  intro imm s
  rw [exec_iter, tickRun_with_responses, okay, (ticks_keepsPorts imm.toNat s).responses]

/-! ## Silence (R362) -/

/-- The channel is stopped and holds nothing. -/
def Silent (x : Channel) : Prop := x.playing = false ∧ x.out = 0

theorem sample_of_silent {x : Channel} (h : Silent x) (p : Config.Params) (c : ℕ) (delta : ℚ) :
    x.sample p c delta = { x with frameL := 0, frameR := 0 } := by
  obtain ⟨hplaying, hout⟩ := h
  rw [sample_of_stopped hplaying, stoppedFrame_decayOut]
  simp only [hout, zero_mul]

theorem pcmOf_zero (peak : Word32) : pcmOf peak 0 = 0 := by
  rw [← toPcm_softClip, softClip_zero, toPcm, zero_mul]; rfl

/-- A tick of a silent chip emits a silent frame and leaves it silent. -/
theorem tick_of_silent {s : State} (h : ∀ c < s.nCh, Silent (s.channel c)) :
    s.mixed = ⟨0, 0⟩ ∧ ∀ c < s.nCh, Silent ((tick s).channel c) := by
  have hsample (c : ℕ) (hc : c < s.nCh) := sample_of_silent (h c hc) s.params c s.tickDelta
  refine ⟨?_, fun c hc => ?_⟩
  · have hleft : s.mixed.left = 0 := by
      rw [mixed_left, Finset.sum_eq_zero fun c hc => by rw [hsample c (Finset.mem_range.1 hc)], pcmOf_zero]
    have hright : s.mixed.right = 0 := by
      rw [mixed_right, Finset.sum_eq_zero fun c hc => by rw [hsample c (Finset.mem_range.1 hc)], pcmOf_zero]
    exact congrArg₂ PcmFrame.mk hleft hright
  · rw [tick_channel hc, hsample c hc]
    exact h c hc

theorem ticks_of_silent (n : ℕ) {s : State} (h : ∀ c < s.nCh, Silent (s.channel c)) :
    (ticks n s).pcm = s.pcm ++ List.replicate n ⟨0, 0⟩ ∧ (ticks n s).counter = s.counter + n ∧
      (ticks n s).nCh = s.nCh ∧ ∀ c < s.nCh, Silent ((ticks n s).channel c) := by
  induction n generalizing s with
  | zero => exact ⟨(List.append_nil _).symm, rfl, rfl, h⟩
  | succ n ih =>
    obtain ⟨hframe, hafter⟩ := tick_of_silent h
    obtain ⟨hpcm, hcounter, hnCh, hsilent⟩ := ih (s := tick s) (by rwa [tick_nCh])
    rw [tick_nCh] at hnCh hsilent
    refine ⟨?_, ?_, hnCh, hsilent⟩
    · rw [ticks, hpcm, tick_pcm, hframe, List.append_assoc, List.replicate_succ, List.singleton_append]
    · rw [ticks, hcounter, tick_counter]
      omega

/-- Settles O23: every tick of a silent chip leaves it silent. -/
theorem silentChipStaysSilent : Obligations.SilentChipStaysSilent := by
  intro imm s hsilent
  exact ⟨_, exec_iter imm s, ticks_of_silent imm.toNat hsilent⟩

end Sys2Proof.Proofs.Mixer
end

