-- ==== Sys2Proof/Proofs/Voice.lean ====
section
/-! PROOFS. The control commands of a voice (`42_channel_control.md` R183 to R193): playing, rewinding and releasing
it, its pitch, and its volume and pan. -/

namespace Sys2Proof.Proofs.Voice

open Sys2Proof Sys2Proof.Machine Sys2Proof.Claim Sys2Proof.Laws
open Sys2Proof.Proofs.ChannelControl (updateChannel_eq_okay)
open Sys2Proof.Proofs.MathUtilities (wrap_eq_emod noteToFrequency_eq_noteFreq frequencyToNote_eq)
open Sys2Proof.Proofs.ChannelInit (noisePeriodOf_eq uq16_pos_iff)
open Sys2Proof.Proofs.Refusals (badOperand_eq_failed)

/-- A command that is `updateChannel` of a change of its channel. -/
theorem onChannel_update {ch : BitVec 8} {s : State} (h : ch.toNat < s.nCh) (f : Channel → Channel) :
    onChannel ch s (fun c => updateChannel s c (f (s.channel c))) =
      .next (okay (withChannel s ch.toNat (f (s.channel ch.toNat))) 0) := by
  rw [onChannel_of_lt h, updateChannel_eq_okay]

/-! ## `PLAY`, `STOP`, `RESET`, `RELEASE` (R183 to R186) -/

/-- Settles O29: `playing` and the pan multipliers. -/
theorem playStartsTheChannel : Obligations.PlayStartsTheChannel := by
  intro ch s hch c x pan
  exact onChannel_update hch fun x => { x with playing := true }.updatePan

/-- A change of the envelopes in the sounding slots, slot by slot. -/
theorem onSounding_env_eq (x : Channel) (f : Envelope → Envelope) :
    (x.onSounding fun sl => { sl with env := sl.env.map f }).env = soundingEnvelopes x f := by
  apply Vector.ext
  intro i hi
  interval_cases i <;> rfl

theorem reset_eq_rewoundChannel (x : Channel) : x.reset = rewoundChannel x := by
  have henv : (x.onSounding EnvSlot.resetEnv).env = soundingEnvelopes x rewound := onSounding_env_eq x rewound
  rw [Channel.reset, rewoundChannel, ← henv]
  rfl

theorem release_eq (x : Channel) : { x.onSounding EnvSlot.armEnv with released := true } =
    { x with released := true, env := soundingEnvelopes x fun e => { e with release := true } } := by
  rw [← onSounding_env_eq]
  rfl

/-- Settles O30: the three commands in the statement's words. -/
theorem stopResetAndReleaseActOnTheVoice : Obligations.StopResetAndReleaseActOnTheVoice := by
  intro ch s hch c x
  refine ⟨?_, ?_, ?_⟩
  · rw [← reset_eq_rewoundChannel]
    exact onChannel_update hch fun x => { x.reset with playing := false }
  · rw [← reset_eq_rewoundChannel]
    exact onChannel_update hch fun x => x.reset
  · rw [← release_eq]
    exact onChannel_update hch fun x => { x.onSounding EnvSlot.armEnv with released := true }

/-! ## Volume and pan (R191 to R193) -/

/-- Settles O33: both operands are clamped, and the pan multipliers follow. -/
theorem volumeAndPanAreClamped : Obligations.VolumeAndPanAreClamped := by
  intro ch imm s hch c x v pan
  constructor
  · exact onChannel_update hch fun x => { x with volume := clamp (q16 imm) 0 1, dirty := true }
  · exact onChannel_update hch fun x => { x with pan := clamp (q16 imm) (-1) 1 }.updatePan

/-! ## Pitch (R187 to R190) -/

/-- The fold of a time into a period, over the period, is the phase; also for a period of zero. -/
theorem modQ_div_self_eq_fract (x w : ℚ) : modQ x w / w = Int.fract (x / w) := by
  by_cases hw : w = 0
  · simp [hw]
  · exact modQ_div x hw

theorem setFrequency_eq_retuned (x : Channel) (f m : ℚ) (rst : Bool) :
    x.setFrequency f m rst = retuned x f m rst := by
  have htime : (if x.active.wtLoop = false ∨ x.playing = false ∨ rst = true then 0
        else modQ x.toneTime x.snapTonePeriod / x.snapTonePeriod * x.active.tonePeriodEff f) =
      if x.active.wtLoop && x.playing && !rst then
        Int.fract (x.toneTime / x.snapTonePeriod) * tonePeriod x.active f
      else 0 := by
    rw [modQ_div_self_eq_fract]
    cases x.active.wtLoop <;> cases x.playing <;> cases rst <;> rfl
  rw [Channel.setFrequency, retuned, ← htime, ← noisePeriodOf_eq]
  rfl

/-- The note that `SET_NOTE` names (R128, R190). -/
theorem noteOf_eq (octave note : BitVec 16) :
    noteOf (s16 octave) (s16 note) = (octave.toInt % 10 + 1) * 12 + note.toInt % 12 := by
  rw [noteOf, wrap_eq_emod (by decide), wrap_eq_emod (by decide)]; rfl

theorem uq16_ne_zero {imm : Word32} (h : imm ≠ 0) : uq16 imm ≠ 0 := by
  have hpos : 0 < imm.toNat := Nat.pos_of_ne_zero fun h0 => h (BitVec.eq_of_toNat_eq h0)
  exact ((uq16_pos_iff imm).2 hpos).ne'

section PitchCommands

variable {ch : BitVec 8} {s : State} (h : ch.toNat < s.nCh) (rst : Bool)
include h

theorem exec_setPitch {imm : Word32} (himm : imm ≠ 0) : exec (.setPitch ch rst imm) s =
    .next (okay (withChannel s ch.toNat
      (retuned (s.channel ch.toNat) (uq16 imm) (frequencyToNote (uq16 imm)) rst)) 0) := by
  rw [exec, execSetPitch, onChannel_of_lt h, if_neg (uq16_ne_zero himm), updateChannel_eq_okay,
    setFrequency_eq_retuned]

theorem exec_setPitch_zero : exec (.setPitch ch rst 0) s = .next (failed s .badOperand 0) := by
  rw [exec, execSetPitch, onChannel_of_lt h, if_pos (by norm_num [uq16]), badOperand_eq_failed]

theorem exec_setMidi (imm : Word32) : exec (.setMidi ch rst imm) s =
    .next (okay (withChannel s ch.toNat
      (retuned (s.channel ch.toNat) (noteToFrequency (q16 imm)) (q16 imm) rst)) 0) := by
  rw [exec, execSetMidi, onChannel_of_lt h, updateChannel_eq_okay, setFrequency_eq_retuned]

theorem exec_setNote (octave note : BitVec 16) : exec (.setNote ch rst octave note) s =
    .next (okay (withChannel s ch.toNat
      (retuned (s.channel ch.toNat) (noteToFrequency (noteOf (s16 octave) (s16 note)))
        (noteOf (s16 octave) (s16 note)) rst)) 0) := by
  rw [exec, execSetNote, onChannel_of_lt h, updateChannel_eq_okay, setFrequency_eq_retuned]

end PitchCommands

/-- Settles O31: the common body, with the frequency and the note of each command. -/
theorem pitchCommandsRetuneTheChannel : Obligations.PitchCommandsRetuneTheChannel := by
  intro ch rst imm octave note s hch c x f m n freq
  have hfreq (k : ℚ) : freq k = noteToFrequency k := (noteToFrequency_eq_noteFreq k).symm
  have hn : n = noteOf (s16 octave) (s16 note) := by rw [noteOf_eq]
  refine ⟨fun himm => ?_, ?_, ?_, ?_⟩
  · rw [exec_setPitch hch rst himm, frequencyToNote_eq]
    rfl
  · rintro rfl
    exact exec_setPitch_zero hch rst
  · rw [hfreq]
    exact exec_setMidi hch rst imm
  · rw [hfreq, hn]
    exact exec_setNote hch rst octave note

/-- Retuning a playing, looping channel without force keeps its phase: the tone time is the phase times the new
period, which is positive. -/
theorem retuned_phase {m : ℕ} {x : Channel} (hprofile : x.active.Legal m) (hloop : x.active.wtLoop = true)
    (hplaying : x.playing = true) (f note : ℚ) :
    Int.fract ((retuned x f note false).toneTime / (retuned x f note false).snapTonePeriod) =
      Int.fract (x.toneTime / x.snapTonePeriod) := by
  have hperiod : tonePeriod x.active f ≠ 0 := (tonePeriodEff_pos hprofile f).ne'
  have htime : (retuned x f note false).toneTime =
      Int.fract (x.toneTime / x.snapTonePeriod) * tonePeriod x.active f := by
    simp [retuned, hloop, hplaying]
  rw [htime, show (retuned x f note false).snapTonePeriod = tonePeriod x.active f from rfl,
    mul_div_cancel_right₀ _ hperiod, Int.fract_fract]

/-- Settles O32: each of the three commands retunes the channel. -/
theorem pitchChangeKeepsThePhase : Obligations.PitchChangeKeepsThePhase := by
  intro i ch imm octave note s hch x hprofile hloop hplaying hi
  have hkept (f m : ℚ) :
      let y := (okay (withChannel s ch.toNat (retuned x f m false)) 0).channel ch.toNat
      Int.fract (y.toneTime / y.snapTonePeriod) = Int.fract (x.toneTime / x.snapTonePeriod) := by
    rw [← updateChannel_eq_okay, updateChannel_channel_same hch]
    exact retuned_phase hprofile hloop hplaying f m
  rcases hi with ⟨rfl, himm⟩ | rfl | rfl
  · exact ⟨_, exec_setPitch hch false himm, hkept _ _⟩
  · exact ⟨_, exec_setMidi hch false imm, hkept _ _⟩
  · exact ⟨_, exec_setNote hch false octave note, hkept _ _⟩

end Sys2Proof.Proofs.Voice
end

