-- ==== Sys2Proof/Proofs/Synthesizer.lean ====
section
/-! PROOFS. The sample of a playing channel (`43_channel_sample.md` R220 to R231): each step as one update of the
channel, and the eight of them together as one update. -/

namespace Sys2Proof.Proofs.Synthesizer

open Sys2Proof Sys2Proof.Machine Sys2Proof.Claim Sys2Proof.Laws
open Sys2Proof.Proofs.ChannelSample
open Sys2Proof.Proofs.ChannelControl (updateChannel_eq_okay)
open Sys2Proof.Proofs.ChannelInit (noisePeriodOf_eq)
open Sys2Proof.Proofs.Voice (modQ_div_self_eq_fract)

/-! ## A stopped channel (R232) -/

theorem okay_withChannel_channel {s : State} {c : ℕ} (h : c < s.nCh) (x : Channel) (data : Word64) :
    (okay (withChannel s c x) data).channel c = x := setChannel_channel_same h x

theorem okay_withChannel_nCh (s : State) (c : ℕ) (x : Channel) (data : Word64) :
    (okay (withChannel s c x) data).nCh = s.nCh := setChannel_nCh s c x

/-- A positive multiple of a value that is not 0 gets smaller in magnitude when the value decays. -/
theorem abs_decayed_lt {o a m : ℚ} (ho : o ≠ 0) (ha : 0 < a) (ha' : a < 1) (hm : 0 < m) :
    |o * (1 - a) * m| < |o * m| := by
  rw [abs_mul, abs_mul, abs_mul, abs_of_pos hm, abs_of_pos (sub_pos.2 ha')]
  have hpos : 0 < |o| := abs_pos.2 ho
  have hless : |o| * (1 - a) < |o| := by nlinarith
  gcongr

section StoppedFields

variable (x : Channel)

theorem stopped_playing : x.decayOut.stoppedFrame.playing = x.playing := rfl
theorem stopped_active : x.decayOut.stoppedFrame.active = x.active := rfl
theorem stopped_out : x.decayOut.stoppedFrame.out = x.out * (1 - x.active.volAttn) := rfl
theorem stopped_leftMult : x.decayOut.stoppedFrame.leftMult = x.leftMult := rfl
theorem stopped_rightMult : x.decayOut.stoppedFrame.rightMult = x.rightMult := rfl
theorem stopped_frameL : x.decayOut.stoppedFrame.frameL = x.out * (1 - x.active.volAttn) * x.leftMult := rfl
theorem stopped_frameR : x.decayOut.stoppedFrame.frameR = x.out * (1 - x.active.volAttn) * x.rightMult := rfl

end StoppedFields

/-- `CSAMPLE` of a stopped channel leaves its decayed output and the frame made of it. -/
theorem exec_csample_stopped {ch : BitVec 8} {s : State} (h : ch.toNat < s.nCh)
    (hstopped : (s.channel ch.toNat).playing = false) (imm : Word32) :
    ∃ t, exec (.csample ch imm) s = .next t ∧ t.nCh = s.nCh ∧
      t.channel ch.toNat = (s.channel ch.toNat).decayOut.stoppedFrame := by
  refine ⟨_, exec_csample h imm, okay_withChannel_nCh .., ?_⟩
  rw [okay_withChannel_channel h, sample_of_stopped hstopped]

/-- Settles O36: each sample multiplies the held output by a factor strictly between 0 and 1. -/
theorem stoppedOutputStrictlyDecreases : Obligations.StoppedOutputStrictlyDecreases := by
  intro ch imm imm' s hch c x hstopped hattn hattn' hout
  have hfactor : 1 - x.active.volAttn ≠ 0 := (sub_pos.2 hattn').ne'
  have hout' : x.out * (1 - x.active.volAttn) ≠ 0 := mul_ne_zero hout hfactor
  obtain ⟨t, hrun, hnCh, hfirst⟩ := exec_csample_stopped hch hstopped imm
  obtain ⟨t', hrun', -, hsecond⟩ :=
    exec_csample_stopped (s := t) (hnCh.symm ▸ hch) (by rw [hfirst]; exact hstopped) imm'
  rw [hfirst] at hsecond
  refine ⟨t, t', hrun, hrun', ?_⟩
  rw [show t'.channel c = _ from hsecond, show t.channel c = _ from hfirst]
  simp only [stopped_playing, stopped_active, stopped_out, stopped_leftMult, stopped_rightMult, stopped_frameL,
    stopped_frameR]
  exact ⟨hstopped, mul_ne_zero hout' hfactor, abs_decayed_lt hout' hattn hattn',
    abs_decayed_lt hout' hattn hattn'⟩

/-! ## Queries of a channel's slots (R224, R225, R229) -/

theorem query_eq (eps : ℚ) (c : ℕ) (x : Channel) (i : Fin 4) (absent : ℚ) :
    (x.slot i).query eps c i.val absent x.envTime =
      (envelopeValue eps c x i absent, queriedSlot eps c x i) := by
  unfold EnvSlot.query envelopeValue queriedSlot
  cases (x.slot i).env <;> rfl

section QueryCongr

variable {x y : Channel} {i : Fin 4} (hslot : x.slot i = y.slot i) (htime : x.envTime = y.envTime)
include hslot htime

theorem envelopeValue_congr (eps : ℚ) (c : ℕ) (absent : ℚ) :
    envelopeValue eps c x i absent = envelopeValue eps c y i absent := by
  rw [envelopeValue, envelopeValue, hslot, htime]

theorem queriedSlot_congr (eps : ℚ) (c : ℕ) : queriedSlot eps c x i = queriedSlot eps c y i := by
  rw [queriedSlot, queriedSlot, hslot, htime]

end QueryCongr

/-! ## Step 3: the snapshot (R223 to R225) -/

theorem needsRefresh_eq (x : Channel) : x.needsRefresh = refreshes x := by
  unfold Channel.needsRefresh refreshes
  cases x.lastRefresh <;> cases x.dirty <;> simp

/-- A snapshot that is not due has no change of its inputs pending. -/
theorem clean_of_not_due {x : Channel} (h : refreshes x = false) : x.dirty = false := by
  simp only [refreshes, Bool.or_eq_false_iff] at h
  obtain ⟨⟨⟨hclean, -⟩, -⟩, -⟩ := h
  exact hclean

section Snapshot

variable (p : Config.Params) (c : ℕ) (x : Channel)

/-- The volume multiplier after step 3. -/
def dueVolume : ℚ := if refreshes x then x.volumeOf (envelopeValue p.envEps c x 0 1) else x.snapVol

/-- The tone period after step 3. -/
def dueTonePeriod : ℚ :=
  if refreshes x then x.active.tonePeriodEff (x.deflected (envelopeValue p.envEps c x 1 0)) else x.snapTonePeriod

/-- The noise period after step 3. -/
def dueNoisePeriod : ℚ :=
  if refreshes x then x.active.noisePeriodOf (x.deflected (envelopeValue p.envEps c x 1 0)) else x.snapNoisePeriod

/-- The envelope slots after step 3. -/
def dueEnv : Vector EnvSlot 4 :=
  if refreshes x then (x.env.set 0 (queriedSlot p.envEps c x 0)).set 1 (queriedSlot p.envEps c x 1) else x.env

theorem refreshVolume_eq : x.refreshVolume p c =
    { x.setSlot 0 (queriedSlot p.envEps c x 0) with snapVol := x.volumeOf (envelopeValue p.envEps c x 0 1) } := by
  have hquery : (x.slot 0).query p.envEps c 0 1 x.envTime = _ := query_eq p.envEps c x 0 1
  rw [Channel.refreshVolume, hquery]

theorem refreshPitch_eq : x.refreshPitch p c =
    { x.setSlot 1 (queriedSlot p.envEps c x 1) with
      snapTonePeriod := x.active.tonePeriodEff (x.deflected (envelopeValue p.envEps c x 1 0))
      snapNoisePeriod := x.active.noisePeriodOf (x.deflected (envelopeValue p.envEps c x 1 0)) } := by
  have hquery : (x.slot 1).query p.envEps c 1 0 x.envTime = _ := query_eq p.envEps c x 1 0
  rw [Channel.refreshPitch, hquery]

/-- Step 3 as one update: the pitch envelope is queried as it was before the volume envelope was. -/
theorem refresh_eq : x.refresh p c =
    { x with
      dirty := false
      lastRefresh := if refreshes x then some x.envTime else x.lastRefresh
      snapVol := dueVolume p c x
      snapTonePeriod := dueTonePeriod p c x
      snapNoisePeriod := dueNoisePeriod p c x
      env := dueEnv p c x } := by
  unfold dueVolume dueTonePeriod dueNoisePeriod dueEnv Channel.refresh
  rw [needsRefresh_eq]
  cases hdue : refreshes x with
  | true =>
    have hslot : (x.refreshVolume p c).slot 1 = x.slot 1 := by
      rw [refreshVolume_eq]
      exact setSlot_slot_other x _ (by decide)
    have htime : (x.refreshVolume p c).envTime = x.envTime := rfl
    simp only [if_true, refreshPitch_eq, envelopeValue_congr hslot htime, queriedSlot_congr hslot htime]
    rw [refreshVolume_eq]
    rfl
  | false =>
    have hclean := clean_of_not_due hdue
    simp only [Bool.false_eq_true, if_false]
    rw [← hclean]

end Snapshot

/-! ## Step 4: the wavetable (R226) -/

theorem waveSample_eq (x : Channel) : x.waveSample = tableSample x x.snapTonePeriod := by
  rw [Channel.waveSample, Channel.tableIndex, Channel.phase, modQ_div_self_eq_fract]
  rfl

/-- Step 4 as one update: a sample equal to the previous one is not stored again. -/
theorem lookup_eq (x : Channel) : x.lookup =
    { x with
      out := if x.wavePrev = some x.waveSample then x.out else x.waveSample
      wavePrev := some x.waveSample } := by
  unfold Channel.lookup
  split
  · next h => rw [← h]
  · rfl

/-! ## Step 5: the noise (R227, R228) -/

theorem nextWord_eq (p : Config.Params) (n : ℕ) : nextWord p n = lfsrNext p n := by
  funext w
  unfold nextWord lfsrNext
  split
  · rw [BitVec.and_allOnes]
  · simp

/-- Masking is reduction modulo `2 ^ n`, also for a length that a word does not have. -/
theorem and_lfsrMask_toNat (n : ℕ) (w : Word32) : (w &&& lfsrMask n).toNat = w.toNat % 2 ^ n := by
  rcases le_or_gt n 32 with h | h
  · exact and_lfsrMask h w
  · have hdvd : 2 ^ 32 ∣ 2 ^ n := pow_dvd_pow 2 h.le
    have hpos : 0 < 2 ^ n := by positivity
    have hmask : lfsrMask n = BitVec.allOnes 32 := by
      apply BitVec.eq_of_toNat_eq
      rw [lfsrMask, BitVec.toNat_ofNat, BitVec.toNat_allOnes]
      omega
    have hlt : w.toNat < 2 ^ n := w.isLt.trans_le (Nat.le_of_dvd hpos hdvd)
    rw [hmask, BitVec.and_allOnes, Nat.mod_eq_of_lt hlt]

theorem output_eq (l : Lfsr) : l.output = ((l.state.toNat % 2 ^ l.n : ℕ) : ℚ) / ((2 ^ l.n : ℕ) : ℚ) := by
  rw [Lfsr.output, and_lfsrMask_toNat]

theorem melodicNoise_eq (p : Config.Params) (x : Channel) :
    x.melodicNoise p = melodicValue p x x.snapNoisePeriod := by
  rw [Channel.melodicNoise, melodicValue, modQ_div_self_eq_fract, nextWord_eq]
  simp only [Lfsr.cycle, lfsrIter_eq]
  rfl

section Noise

variable (p : Config.Params) (x : Channel)

/-- The generator's register after step 5 under the noise period `pn`. -/
def nextRegister (pn : ℚ) : Word32 :=
  if resamples x pn then nextWord p x.lfsr.n x.lfsr.state else x.lfsr.state

/-- The held noise after step 5. -/
def nextHeld (pn : ℚ) : ℚ := if resamples x pn then randomValue x (nextRegister p x pn) else x.noiseHeld

/-- The noise time after step 5. -/
def nextNoiseTime (pn : ℚ) : ℚ :=
  if resamples x pn then x.noiseTime - pn * ⌊x.noiseTime / pn⌋ else x.noiseTime

/-- The noise value of step 5, by kind. -/
def noiseValue (pn : ℚ) : ℚ :=
  match x.active.noiseKind with
  | .silent => 0
  | .random => nextHeld p x pn
  | .melodic => melodicValue p x pn

theorem resamples_random {pn : ℚ} (h : x.active.noiseKind = .random) :
    resamples x pn = decide (pn ≤ x.noiseTime) := by simp [resamples, h]

theorem resamples_other {pn : ℚ} (h : x.active.noiseKind ≠ .random) : resamples x pn = false := by
  simp [resamples, h]

/-- What step 5 leaves when the noise is due. -/
theorem next_of_resamples {pn : ℚ} (h : resamples x pn = true) :
    nextRegister p x pn = nextWord p x.lfsr.n x.lfsr.state ∧
    nextHeld p x pn = randomValue x (nextWord p x.lfsr.n x.lfsr.state) ∧
    nextNoiseTime x pn = x.noiseTime - pn * ⌊x.noiseTime / pn⌋ := by
  simp only [nextRegister, nextHeld, nextNoiseTime, h, if_true, and_self]

/-- What step 5 leaves when it is not. -/
theorem next_of_not_resamples {pn : ℚ} (h : resamples x pn = false) :
    nextRegister p x pn = x.lfsr.state ∧ nextHeld p x pn = x.noiseHeld ∧ nextNoiseTime x pn = x.noiseTime := by
  simp only [nextRegister, nextHeld, nextNoiseTime, h, Bool.false_eq_true, if_false, and_self]

theorem stepRandom_eq (h : x.active.noiseKind = .random) : x.stepRandom p =
    { x with
      lfsr := { x.lfsr with state := nextRegister p x x.snapNoisePeriod }
      noiseHeld := nextHeld p x x.snapNoisePeriod
      noiseTime := nextNoiseTime x x.snapNoisePeriod } := by
  unfold Channel.stepRandom nextHeld nextNoiseTime nextRegister
  rw [resamples_random x h]
  by_cases hdue : x.snapNoisePeriod ≤ x.noiseTime
  · simp only [hdue, decide_true, if_true, output_eq, Lfsr.step, ← nextWord_eq]
    rfl
  · simp only [hdue, decide_false, if_false, Bool.false_eq_true]

/-- Step 5 as one update, for every kind: only a Random channel can be due to resample. -/
theorem noise_eq : x.noise p = (noiseValue p x x.snapNoisePeriod,
    { x with
      lfsr := { x.lfsr with state := nextRegister p x x.snapNoisePeriod }
      noiseHeld := nextHeld p x x.snapNoisePeriod
      noiseTime := nextNoiseTime x x.snapNoisePeriod }) := by
  unfold Channel.noise noiseValue
  cases hkind : x.active.noiseKind with
  | random => simp only [stepRandom_eq p x hkind]
  | silent | melodic =>
    have hnot : resamples x x.snapNoisePeriod = false := resamples_other x (by simp [hkind])
    simp only [nextRegister, nextHeld, nextNoiseTime, hnot, Bool.false_eq_true, if_false, melodicNoise_eq]

end Noise

/-! ## Steps 6 to 8: the mix and the frame (R229 to R231) -/

/-- The value of step 6. -/
def mixedValue (eps : ℚ) (c : ℕ) (x : Channel) (tone nz : ℚ) : ℚ :=
  if x.noiseOn then noisyValue eps c x tone nz else tone

/-- The envelope slots after step 6. -/
def mixedEnv (eps : ℚ) (c : ℕ) (x : Channel) : Vector EnvSlot 4 :=
  if x.noiseOn then x.env.set 2 (queriedSlot eps c x 2) else x.env

/-- Step 6 as one update. -/
theorem mix_eq (p : Config.Params) (c : ℕ) (nz : ℚ) (x : Channel) :
    x.mix p c nz = (mixedValue p.envEps c x x.out nz, { x with env := mixedEnv p.envEps c x }) := by
  have hquery : (x.slot 2).query p.envEps c 2 1 x.envTime = _ := query_eq p.envEps c x 2 1
  unfold Channel.mix mixedValue mixedEnv noisyValue
  rw [hquery]
  by_cases hon : x.noiseOn = true
  · simp only [if_pos hon]
    cases (x.slot 2).env <;> rfl
  · simp only [if_neg hon]

theorem level_eq (x : Channel) (val : ℚ) : x.level val = outputLevel x.active x.snapVol val := by
  unfold Channel.level outputLevel
  cases x.active.volNonneg with
  | false => simp
  | true =>
    simp only [true_and, if_true]
    split
    · next h => rw [max_eq_right h.le]
    · next h => rw [max_eq_left (not_lt.1 h)]

/-! ## The eight steps together (R220) -/

section Whole

variable (p : Config.Params) (c : ℕ) (x : Channel)

/-- The wavetable sample of the call. -/
def callSample : ℚ := tableSample x (dueTonePeriod p c x)

/-- The held output of the call: the decayed one, or the sample when it is a new one. -/
def callOut : ℚ :=
  if x.wavePrev = some (callSample p c x) then x.out * (1 - x.active.volAttn) else callSample p c x

/-- The level of the call. -/
def callLevel : ℚ :=
  outputLevel x.active (dueVolume p c x)
    (mixedValue p.envEps c x (callOut p c x) (noiseValue p x (dueNoisePeriod p c x)))

/-- The envelope slots after the call: those of the snapshot when it was due, and that of the noise when it is
on. -/
def callEnv : Vector EnvSlot 4 :=
  Vector.ofFn fun i =>
    if (refreshes x ∧ i.val ≤ 1) ∨ (x.noiseOn ∧ i.val = 2) then queriedSlot p.envEps c x i else x.slot i

/-- The channel after step 5. -/
def afterNoise : Channel :=
  { x with
    dirty := false
    lastRefresh := if refreshes x then some x.envTime else x.lastRefresh
    snapVol := dueVolume p c x
    snapTonePeriod := dueTonePeriod p c x
    snapNoisePeriod := dueNoisePeriod p c x
    out := callOut p c x
    wavePrev := some (callSample p c x)
    lfsr := { x.lfsr with state := nextRegister p x (dueNoisePeriod p c x) }
    noiseHeld := nextHeld p x (dueNoisePeriod p c x)
    noiseTime := nextNoiseTime x (dueNoisePeriod p c x)
    env := dueEnv p c x }

/-- Steps 1 to 5: no step reads what a later one of them writes. -/
theorem noise_lookup_refresh_eq : (x.decayOut.refresh p c).lookup.noise p =
    (noiseValue p x (dueNoisePeriod p c x), afterNoise p c x) := by
  rw [refresh_eq, lookup_eq, noise_eq, waveSample_eq]
  rfl

/-- The snapshot queries the slots 0 and 1. -/
theorem dueEnv_eq : dueEnv p c x = Vector.ofFn fun i =>
    if refreshes x ∧ i.val ≤ 1 then queriedSlot p.envEps c x i else x.slot i := by
  apply Vector.ext
  intro i hi
  unfold dueEnv
  cases refreshes x <;> interval_cases i <;> simp [Channel.slot]

theorem afterNoise_slot : (afterNoise p c x).slot 2 = x.slot 2 := by
  change (dueEnv p c x)[2] = _
  rw [dueEnv_eq]
  simp

/-- Step 6 reads the slot of the noise envelope as it was before the call. -/
theorem afterNoise_mix (nz : ℚ) : (afterNoise p c x).mix p c nz =
    (mixedValue p.envEps c x (callOut p c x) nz, { afterNoise p c x with env := callEnv p c x }) := by
  have hslot := afterNoise_slot p c x
  have htime : (afterNoise p c x).envTime = x.envTime := rfl
  have hon : (afterNoise p c x).noiseOn = x.noiseOn := rfl
  have henv : mixedEnv p.envEps c (afterNoise p c x) = callEnv p c x := by
    rw [mixedEnv, hon, queriedSlot_congr hslot htime, show (afterNoise p c x).env = _ from dueEnv_eq p c x, callEnv]
    apply Vector.ext
    intro i hi
    cases x.noiseOn <;> interval_cases i <;> simp
  rw [mix_eq, henv, mixedValue, noisyValue, hslot, hon, envelopeValue_congr hslot htime]
  rfl

/-- A playing channel's sample as one update. -/
theorem sample_of_playing (h : x.playing = true) (delta : ℚ) : x.sample p c delta =
    { afterNoise p c x with
      toneTime := x.toneTime + delta
      noiseTime := nextNoiseTime x (dueNoisePeriod p c x) + delta
      envTime := x.envTime + delta
      frameL := callLevel p c x * x.leftMult
      frameR := callLevel p c x * x.rightMult
      env := callEnv p c x } := by
  rw [Channel.sample, decayOut_playing, if_pos h, Channel.playFrame, noise_lookup_refresh_eq]
  dsimp only
  rw [afterNoise_mix, Channel.frame, level_eq]
  rfl

end Whole

/-! ## The values of a legal profile (R224, R225) -/

theorem modulator_eq (x : Channel) (amp freq : ℚ) (steps : ℕ) :
    modulator amp freq steps x.envTime = sineAt x amp freq steps := by
  rw [modulator, sineAt, sint_eq]

/-- The power of R224 is asked inside its domain. -/
theorem volumeOf_eq {m : ℕ} {x : Channel} (h : x.active.Legal m) (ve : ℚ) :
    x.volumeOf ve = refreshedVolume x ve := by
  obtain ⟨hlow, hhigh⟩ := quantize_mem x.active.volSteps
    (clamp_ge (lo := 0) (hi := 1) (x.volume * ve + sineAt x x.live.tremAmp x.live.tremFreq x.live.tremSteps))
    (clamp_le _ (by norm_num))
  simp only [Channel.volumeOf, modulator_eq]
  rw [pow_eq hlow hhigh h.volExp_pos]
  rfl

theorem deflected_eq (x : Channel) (pe : ℚ) : x.deflected pe = refreshedFrequency x pe := by
  simp only [Channel.deflected, refreshedFrequency, modulator_eq, exp2_eq]

theorem dueTonePeriod_eq (p : Config.Params) (c : ℕ) (x : Channel) : dueTonePeriod p c x =
    if refreshes x then tonePeriod x.active (refreshedFrequency x (envelopeValue p.envEps c x 1 0))
    else x.snapTonePeriod := by
  rw [dueTonePeriod, deflected_eq]; rfl

theorem dueNoisePeriod_eq (p : Config.Params) (c : ℕ) (x : Channel) : dueNoisePeriod p c x =
    if refreshes x then noisePeriod x.active (refreshedFrequency x (envelopeValue p.envEps c x 1 0))
    else x.snapNoisePeriod := by
  rw [dueNoisePeriod, deflected_eq, noisePeriodOf_eq]

theorem dueVolume_eq (p : Config.Params) (c : ℕ) {m : ℕ} {x : Channel} (h : x.active.Legal m) : dueVolume p c x =
    if refreshes x then refreshedVolume x (envelopeValue p.envEps c x 0 1) else x.snapVol := by
  rw [dueVolume, volumeOf_eq h]

theorem noiseValue_random {x : Channel} (h : x.active.noiseKind = .random) (p : Config.Params) (pn : ℚ) :
    noiseValue p x pn = nextHeld p x pn := by simp only [noiseValue, h]

theorem noiseValue_melodic {x : Channel} (h : x.active.noiseKind = .melodic) (p : Config.Params) (pn : ℚ) :
    noiseValue p x pn = melodicValue p x pn := by simp only [noiseValue, h]

theorem noiseValue_of_kind {x : Channel} (h : x.active.noiseKind ≠ .silent) (p : Config.Params) (pn : ℚ) :
    noiseValue p x pn = if x.active.noiseKind = .random then nextHeld p x pn else melodicValue p x pn := by
  cases hkind : x.active.noiseKind with
  | silent => exact absurd hkind h
  | random => rw [noiseValue_random hkind, if_pos rfl]
  | melodic => rw [noiseValue_melodic hkind, if_neg (by decide)]

/-! ## `CSAMPLE` of a playing channel -/

/-- Settles O37: the update of the whole sample, with the snapshot and the noise value in the statement's words. -/
theorem playingToneSample : Obligations.PlayingToneSample := by
  intro ch imm s hch c x eps delta due fn vol p pn w o again word held nz level hplaying hnoise hlegal
  have hvol : dueVolume s.params c x = vol := dueVolume_eq s.params c hlegal
  have hp : dueTonePeriod s.params c x = p := dueTonePeriod_eq s.params c x
  have hpn : dueNoisePeriod s.params c x = pn := dueNoisePeriod_eq s.params c x
  have hsample : callSample s.params c x = w := by rw [callSample, hp]
  have hout : callOut s.params c x = o := by rw [callOut, hsample]
  have hlevel : callLevel s.params c x = level := by
    rw [callLevel, hvol, hout, hpn, mixedValue]
    by_cases hon : x.noiseOn = true
    · rw [noiseValue_of_kind (hnoise hon)]
      rfl
    · simp only [level, if_neg hon]
  rw [exec_csample hch]
  dsimp only
  rw [show s.channel ch.toNat = x from rfl, sample_of_playing s.params ch.toNat x hplaying]
  simp only [afterNoise]
  rw [show callLevel s.params ch.toNat x = level from hlevel, show callOut s.params ch.toNat x = o from hout,
    show callSample s.params ch.toNat x = w from hsample, show dueVolume s.params ch.toNat x = vol from hvol,
    show dueTonePeriod s.params ch.toNat x = p from hp, show dueNoisePeriod s.params ch.toNat x = pn from hpn]
  rfl

section Playing

variable {ch : BitVec 8} {s : State} (h : ch.toNat < s.nCh) (hplaying : (s.channel ch.toNat).playing = true)
include h hplaying

/-- `CSAMPLE` of a playing channel leaves the update of the whole sample. -/
theorem exec_csample_playing (imm : Word32) : ∃ t, exec (.csample ch imm) s = .next t ∧
    t.channel ch.toNat =
      { afterNoise s.params ch.toNat (s.channel ch.toNat) with
        toneTime := (s.channel ch.toNat).toneTime + uq32 imm
        noiseTime := nextNoiseTime (s.channel ch.toNat) (dueNoisePeriod s.params ch.toNat (s.channel ch.toNat)) +
          uq32 imm
        envTime := (s.channel ch.toNat).envTime + uq32 imm
        frameL := callLevel s.params ch.toNat (s.channel ch.toNat) * (s.channel ch.toNat).leftMult
        frameR := callLevel s.params ch.toNat (s.channel ch.toNat) * (s.channel ch.toNat).rightMult
        env := callEnv s.params ch.toNat (s.channel ch.toNat) } := by
  refine ⟨_, exec_csample h imm, ?_⟩
  rw [okay_withChannel_channel h, sample_of_playing s.params ch.toNat _ hplaying]

end Playing

/-- Settles O38: the snapshot's fields of the whole update, when it is due and when it is not. -/
theorem snapshotFollowsTheEnvelopes : Obligations.SnapshotFollowsTheEnvelopes := by
  intro ch imm s hch c x hplaying hlegal
  obtain ⟨t, hrun, hchannel⟩ := exec_csample_playing hch hplaying imm
  refine ⟨t, hrun, ?_⟩
  rw [show t.channel c = _ from hchannel]
  have hslot (i : Fin 4) (hi : i.val ≤ 1) (hdue : refreshes x = false) :
      (callEnv s.params ch.toNat x)[i] = x.slot i := by
    have hnot : i.val ≠ 2 := by omega
    simp [callEnv, hdue, hnot]
  constructor
  · intro hdue
    have hvol := dueVolume_eq s.params ch.toNat hlegal
    have htone := dueTonePeriod_eq s.params ch.toNat x
    have hnoise := dueNoisePeriod_eq s.params ch.toNat x
    rw [if_pos hdue] at hvol htone hnoise
    exact ⟨hvol, htone, hnoise, if_pos hdue, rfl⟩
  · intro hdue
    have hnot : ¬refreshes x = true := by simp [hdue]
    exact ⟨if_neg hnot, if_neg hnot, if_neg hnot, if_neg hnot, (clean_of_not_due hdue).symm, hslot 0 (by decide) hdue,
      hslot 1 (by decide) hdue⟩

/-- With noise on, the level is made of the noise value and the tone. -/
theorem callLevel_of_noiseOn {x : Channel} (hon : x.noiseOn = true) (p : Config.Params) (c : ℕ) :
    callLevel p c x = outputLevel x.active (dueVolume p c x)
      (noisyValue p.envEps c x (callOut p c x) (noiseValue p x (dueNoisePeriod p c x))) := by
  rw [callLevel, mixedValue, if_pos hon]

/-- Settles O39: a Random channel is due to resample when its noise time has reached the noise period. -/
theorem randomNoiseIsHeldBetweenResamples : Obligations.RandomNoiseIsHeldBetweenResamples := by
  intro ch imm s hch c x delta hplaying hkind
  obtain ⟨t, hrun, hchannel⟩ := exec_csample_playing hch hplaying imm
  refine ⟨t, hrun, ?_⟩
  rw [show t.channel c = _ from hchannel]
  refine ⟨fun hdue => ?_, fun hearly => ?_, fun hon => ?_⟩
  · have hagain : resamples x (dueNoisePeriod s.params ch.toNat x) = true :=
      (resamples_random x hkind).trans (decide_eq_true hdue)
    obtain ⟨hregister, hheld, htime⟩ := next_of_resamples s.params x hagain
    exact ⟨congrArg (fun w => ({ x.lfsr with state := w } : Lfsr)) hregister, hheld, congrArg (· + uq32 imm) htime⟩
  · have hnot : resamples x (dueNoisePeriod s.params ch.toNat x) = false :=
      (resamples_random x hkind).trans (decide_eq_false hearly.not_ge)
    obtain ⟨hregister, hheld, htime⟩ := next_of_not_resamples s.params x hnot
    exact ⟨congrArg (fun w => ({ x.lfsr with state := w } : Lfsr)) hregister, hheld, congrArg (· + uq32 imm) htime⟩
  · have hlevel := callLevel_of_noiseOn hon s.params ch.toNat
    rw [noiseValue_random hkind] at hlevel
    exact ⟨congrArg (· * x.leftMult) hlevel, congrArg (· * x.rightMult) hlevel⟩

/-- Settles O40: a Melodic channel never resamples. -/
theorem melodicNoiseReadsTheCycle : Obligations.MelodicNoiseReadsTheCycle := by
  intro ch imm s hch c x hplaying hkind
  obtain ⟨t, hrun, hchannel⟩ := exec_csample_playing hch hplaying imm
  refine ⟨t, hrun, ?_⟩
  rw [show t.channel c = _ from hchannel]
  have hnot : resamples x (dueNoisePeriod s.params ch.toNat x) = false :=
    resamples_other x (by rw [hkind]; decide)
  obtain ⟨hregister, hheld, htime⟩ := next_of_not_resamples s.params x hnot
  refine ⟨congrArg (fun w => ({ x.lfsr with state := w } : Lfsr)) hregister, hheld,
    congrArg (· + uq32 imm) htime, fun hon => ?_⟩
  have hlevel := callLevel_of_noiseOn hon s.params ch.toNat
  rw [noiseValue_melodic hkind] at hlevel
  exact ⟨congrArg (· * x.leftMult) hlevel, congrArg (· * x.rightMult) hlevel⟩

end Sys2Proof.Proofs.Synthesizer
end

