-- ==== Sys2Proof/Proofs/EnvelopeCommands.lean ====
section
/-! PROOFS. The envelope commands (`41_envelope.md` R157 to R164): staging, construction, and the commands on the
envelope of a slot. -/

namespace Sys2Proof.Proofs.EnvelopeCommands

open Sys2Proof Sys2Proof.Machine Sys2Proof.Claim Sys2Proof.Laws
open Sys2Proof.Proofs.ChannelControl (respond_eq_okay updateChannel_eq_okay)
open Sys2Proof.Proofs.ChannelSample (raiseError_eq_failed)
open Sys2Proof.Proofs.Refusals (badOperand_eq_failed)

/-! ## Commands on a slot that exists -/

section Slots

variable {ch : BitVec 8} {slot : BitVec 4} {s : State} (hch : ch.toNat < s.nCh) (hs : slot.toNat < 4)
include hch hs

/-- A command of an existing channel and slot runs its body there. -/
theorem onChannel_onSlot (body : ℕ → Fin 4 → State) :
    onChannel ch s (fun c => onSlot slot s (body c)) = .next (body ch.toNat ⟨slot.toNat, hs⟩) := by
  rw [onChannel_of_lt hch, onSlot_of_lt hs]

/-- A knot command with an index in range stores its part of the knot (R157). -/
theorem onKnot_of_lt {k : BitVec 12} (hk : k.toNat < s.params.kMax) (write : EnvSlot → EnvSlot) :
    onKnot ch slot k s write = .next (okay (withChannel s ch.toNat
      (withSlot (s.channel ch.toNat) ⟨slot.toNat, hs⟩ (write ((s.channel ch.toNat).slot ⟨slot.toNat, hs⟩)))) 0) := by
  rw [onKnot, onChannel_onSlot hch hs, if_pos hk, updateChannel_eq_okay]
  rfl

/-- A command that needs an envelope runs on the one the slot holds. -/
theorem onPresent_of_some {e : Envelope} (he : ((s.channel ch.toNat).slot ⟨slot.toNat, hs⟩).env = some e)
    (body : ℕ → Fin 4 → State) : onPresent ch slot s body = .next (body ch.toNat ⟨slot.toNat, hs⟩) := by
  rw [onPresent, onChannel_onSlot hch hs, he]
  rfl

/-- A command that needs an envelope is refused on an empty slot (R333). -/
theorem onPresent_of_none (he : ((s.channel ch.toNat).slot ⟨slot.toNat, hs⟩).env = none)
    (body : ℕ → Fin 4 → State) : onPresent ch slot s body = .next (failed s .badOperand 0) := by
  rw [onPresent, onChannel_onSlot hch hs, he, ← badOperand_eq_failed]
  rfl

end Slots

/-! ## Staging (R157 to R159) -/

/-- Settles O45: each knot command writes one staging RAM at one index; the other two store their field. -/
theorem envStagingWritesOneField : Obligations.EnvStagingWritesOneField := by
  intro ch slot k loopIn loopOut imm interp kind hs s hch c i x sl
  refine ⟨fun hk => ⟨Memory.write sl.sknotTime k.toNat imm, ?_, Memory.read_write_same .., fun j hj =>
      Memory.read_write_other _ imm hj⟩,
    fun hk => ⟨Memory.write sl.sknotValue k.toNat imm, ?_, Memory.read_write_same .., fun j hj =>
      Memory.read_write_other _ imm hj⟩,
    fun hk => ⟨Memory.write sl.sknotInterp k.toNat interp, ?_, Memory.read_write_same .., fun j hj =>
      Memory.read_write_other _ interp hj⟩, ?_, ?_⟩
  · exact onKnot_of_lt hch hs hk fun sl => { sl with sknotTime := Memory.write sl.sknotTime k.toNat imm }
  · exact onKnot_of_lt hch hs hk fun sl => { sl with sknotValue := Memory.write sl.sknotValue k.toNat imm }
  · exact onKnot_of_lt hch hs hk fun sl => { sl with sknotInterp := Memory.write sl.sknotInterp k.toNat interp }
  · rw [exec, execEnvLoop, onChannel_onSlot hch hs, updateChannel_eq_okay]
    rfl
  · rw [exec, execEnvDecay, onChannel_onSlot hch hs, updateChannel_eq_okay]
    rfl

/-! ## Construction (R141, R160) -/

theorem lowest_eq (i : Fin 4) : lowest i = slotLow i := by
  fin_cases i <;> rfl

theorem stagedKnot_eq (s : State) (c : ℕ) (i : Fin 4) (k : ℕ) :
    stagedKnot s c i k = ((s.channel c).slot i).stagedKnot s.commandNo c i.val k := rfl

theorem stagedKnots_eq (s : State) (c : ℕ) (i : Fin 4) (n : ℕ) :
    ((s.channel c).slot i).stagedKnots s.commandNo c i.val n = (List.range n).map (stagedKnot s c i) := rfl

/-- The search of `ENV_BUILD` for a value out of the slot's range. -/
def firstBadKnot (i : Fin 4) (knots : List Knot) : Option ℕ :=
  knots.findIdx? fun k => decide (k.value < slotLow i ∨ 1 < k.value)

theorem firstBadKnot_eq_none {i : Fin 4} {knots : List Knot} (h : ∀ k ∈ knots, lowest i ≤ k.value ∧ k.value ≤ 1) :
    firstBadKnot i knots = none := by
  refine List.findIdx?_eq_none_iff.2 fun k hk => decide_eq_false ?_
  obtain ⟨hlow, hhigh⟩ := h k hk
  rw [lowest_eq] at hlow
  exact not_or.2 ⟨hlow.not_gt, hhigh.not_gt⟩

theorem firstBadKnot_eq_some {s : State} {c : ℕ} {i : Fin 4} {n j : ℕ} (hj : j < n)
    (hbefore : ∀ k < j, lowest i ≤ (stagedKnot s c i k).value ∧ (stagedKnot s c i k).value ≤ 1)
    (hbad : (stagedKnot s c i j).value < lowest i ∨ 1 < (stagedKnot s c i j).value) :
    firstBadKnot i ((List.range n).map (stagedKnot s c i)) = some j := by
  rw [lowest_eq] at hbad
  refine List.findIdx?_eq_some_iff_getElem.2 ⟨by simpa using hj, by simpa using hbad, fun k hk => ?_⟩
  obtain ⟨hlow, hhigh⟩ := hbefore k hk
  rw [lowest_eq] at hlow
  simpa using ⟨hlow, hhigh⟩

section EnvBuild

variable {ch : BitVec 8} {slot : BitVec 4} {imm : Word32} {s : State} (hch : ch.toNat < s.nCh)
  (hs : slot.toNat < 4)
include hch hs

theorem exec_envBuild_bad_count (hcount : imm.toNat = 0 ∨ s.params.kMax < imm.toNat) :
    exec (.envBuild ch slot imm) s = .next (failed s .badOperand 0) := by
  rw [exec, execEnvBuild, onChannel_onSlot hch hs, if_pos hcount, badOperand_eq_failed]

section

variable (hpos : 1 ≤ imm.toNat) (hle : imm.toNat ≤ s.params.kMax)
include hpos hle

theorem exec_envBuild_of_some {j : ℕ}
    (hbad : firstBadKnot ⟨slot.toNat, hs⟩
      ((List.range imm.toNat).map (stagedKnot s ch.toNat ⟨slot.toNat, hs⟩)) = some j) :
    exec (.envBuild ch slot imm) s = .next (failed s .invalidEnvelope (BitVec.ofNat 64 j)) := by
  rw [firstBadKnot, ← stagedKnots_eq] at hbad
  simp only [exec, execEnvBuild, onChannel_onSlot hch hs, hbad]
  rw [if_neg (by omega), raiseError_eq_failed (by decide)]

theorem exec_envBuild_of_none
    (hgood : firstBadKnot ⟨slot.toNat, hs⟩
      ((List.range imm.toNat).map (stagedKnot s ch.toNat ⟨slot.toNat, hs⟩)) = none) :
    let x := s.channel ch.toNat
    let sl := x.slot ⟨slot.toNat, hs⟩
    let knots := (List.range imm.toNat).map (stagedKnot s ch.toNat ⟨slot.toNat, hs⟩)
    exec (.envBuild ch slot imm) s = .next (okay (withChannel s ch.toNat
      ((withSlot x ⟨slot.toNat, hs⟩
        { sl with env := some (envBuild knots sl.skind sl.sloopIn sl.sloopOut sl.sdecay) }).touchSlot
          ⟨slot.toNat, hs⟩)) 0) := by
  rw [firstBadKnot, ← stagedKnots_eq] at hgood
  simp only [exec, execEnvBuild, onChannel_onSlot hch hs, hgood]
  rw [if_neg (by omega), updateChannel_eq_okay]
  rfl

end

end EnvBuild

/-! ## The sort by time (R141) -/

theorem insertionSort_sorted (knots : List Knot) :
    (knots.insertionSort fun a b => a.time ≤ b.time).Pairwise fun a b => a.time ≤ b.time := by
  have : Std.Total (fun a b : Knot => a.time ≤ b.time) := ⟨fun a b => le_total a.time b.time⟩
  have : IsTrans Knot (fun a b : Knot => a.time ≤ b.time) := ⟨fun _ _ _ => le_trans⟩
  exact List.pairwise_insertionSort _ _

/-- Inserting a knot puts it before the knots of its own time. -/
theorem filter_orderedInsert (a : Knot) (knots : List Knot) (t : ℚ) :
    (knots.orderedInsert (fun a b => a.time ≤ b.time) a).filter (fun k => decide (k.time = t)) =
      (a :: knots).filter fun k => decide (k.time = t) := by
  induction knots with
  | nil => rfl
  | cons b knots ih =>
    rw [List.orderedInsert_cons]
    split
    · rfl
    · next hlater =>
      rw [List.filter_cons, ih, List.filter_cons, List.filter_cons, List.filter_cons]
      by_cases ha : a.time = t
      · have hb : b.time ≠ t := fun hb => hlater (by rw [ha, hb])
        simp [ha, hb]
      · simp [ha]

/-- The sort is stable: it keeps the order of the knots of one time. -/
theorem filter_insertionSort (knots : List Knot) (t : ℚ) :
    (knots.insertionSort fun a b => a.time ≤ b.time).filter (fun k => decide (k.time = t)) =
      knots.filter fun k => decide (k.time = t) := by
  induction knots with
  | nil => rfl
  | cons a knots ih =>
    rw [List.insertionSort_cons, filter_orderedInsert, List.filter_cons, ih, List.filter_cons]

/-- Settles O46: no value is bad, and the knots are the insertion sort of the staged ones. -/
theorem envBuildInstallsTheSortedKnots : Obligations.EnvBuildInstallsTheSortedKnots := by
  intro ch slot imm hs s hch c i x sl knots hpos hle hlegal
  refine ⟨knots.insertionSort fun a b => a.time ≤ b.time, ?_, insertionSort_sorted knots,
    filter_insertionSort knots⟩
  exact exec_envBuild_of_none hch hs hpos hle (firstBadKnot_eq_none hlegal)

/-- Settles O47: the first bad value is the one the model finds, and the count is checked before. -/
theorem envBuildFailsWhole : Obligations.EnvBuildFailsWhole := by
  intro ch slot imm hs s hch c i
  refine ⟨fun j hj hle hbefore hbad => ?_, exec_envBuild_bad_count hch hs⟩
  exact exec_envBuild_of_some hch hs (by omega) hle (firstBadKnot_eq_some hj hbefore hbad)

/-! ## The envelope of a slot (R161 to R164) -/

/-- Settles O48: `ENV_CLEAR` needs no envelope, the others act on the one the slot holds. -/
theorem envSlotCommandsActOnTheEnvelope : Obligations.EnvSlotCommandsActOnTheEnvelope := by
  intro ch slot imm hs s hch c i x sl
  refine ⟨?_, fun e he => ⟨?_, ?_, ?_⟩, fun he => ⟨?_, ?_, ?_⟩⟩
  · rw [exec, execEnvClear, onChannel_onSlot hch hs, updateChannel_eq_okay]
    rfl
  · have hreset : sl.resetEnv = { sl with env := some (rewound e) } := by rw [EnvSlot.resetEnv, he]; rfl
    rw [exec, execEnvReset, onPresent_of_some hch hs he, updateChannel_eq_okay, ← hreset]
    rfl
  · have harm : sl.armEnv = { sl with env := some { e with release := true } } := by rw [EnvSlot.armEnv, he]; rfl
    rw [exec, execEnvRelease, onPresent_of_some hch hs he, updateChannel_eq_okay, ← harm]
    rfl
  · intro a
    have hquery : sl.query s.params.envEps ch.toNat slot.toNat 0 (q16 imm) =
        (a.1, { sl with env := some a.2, peeks := sl.peeks + 1 }) := by
      rw [EnvSlot.query, he]
      rfl
    rw [exec, execEnvPeek, onPresent_of_some hch hs he]
    dsimp only
    rw [show EnvSlot.query _ _ _ _ _ _ = _ from hquery, respond_eq_okay, zext_eq]
    rfl
  · rw [exec, execEnvReset, onPresent_of_none hch hs he]
  · rw [exec, execEnvRelease, onPresent_of_none hch hs he]
  · rw [exec, execEnvPeek, onPresent_of_none hch hs he]

end Sys2Proof.Proofs.EnvelopeCommands
end

