-- ==== Sys2Proof/Proofs/EnvelopeQueries.lean ====
section
/-! PROOFS. Queries of an envelope (`41_envelope.md` R144 to R155): what each loop kind answers after the first
knot, what a query captures, and what it leaves alone. -/

namespace Sys2Proof.Proofs.EnvelopeQueries

open Sys2Proof Sys2Proof.Machine Sys2Proof.Laws
open Sys2Proof.Proofs.EnvelopeCurve

/-! ## Queries by place and kind (R144) -/

section Peek

variable {e : Envelope} {eps free time : ℚ}

theorem peek_of_le_first (h : time ≤ e.first) : e.peek eps free time = (e.valueAt 0, e.noteQuery time) :=
  if_pos h

theorem peek_cycle (hkind : e.kind = .cycle) (h : e.first < time) :
    e.peek eps free time = (e.noteQuery time).peekCycle eps time := by
  have hnot : ¬time ≤ (e.noteQuery time).first := h.not_ge
  simp only [Envelope.peek, if_neg hnot, noteQuery_kind, hkind]

/-- An orderly query of the kinds with a loop, before the capture. -/
theorem peek_sustain (hkind : e.kind = .loopPoints ∨ e.kind = .echo) (h : e.first < time)
    (horderly : (e.noteQuery time).strayed = false) (hfree : e.release = false ∨ e.captured = false) :
    e.peek eps free time = (e.noteQuery time).sustain eps time := by
  have hnot : ¬time ≤ (e.noteQuery time).first := h.not_ge
  have hboth : (e.release && e.captured) = false := by
    rcases hfree with h | h <;> simp [h]
  rcases hkind with hkind | hkind <;>
    simp only [Envelope.peek, if_neg hnot, noteQuery_kind, hkind, Envelope.peekLoop, horderly, Bool.false_eq_true,
      if_false, noteQuery_release, noteQuery_captured, hboth, Bool.not_false, if_true]

/-- An orderly query of `LoopPoints` after the capture. -/
theorem peek_tail (hkind : e.kind = .loopPoints) (h : e.first < time)
    (horderly : (e.noteQuery time).strayed = false) (hrelease : e.release = true) (hcaptured : e.captured = true) :
    e.peek eps free time = (e.noteQuery time).tail time := by
  have hnot : ¬time ≤ (e.noteQuery time).first := h.not_ge
  simp only [Envelope.peek, if_neg hnot, noteQuery_kind, hkind, Envelope.peekLoop, horderly, Bool.false_eq_true,
    if_false, noteQuery_release, noteQuery_captured, hrelease, hcaptured, Bool.and_self, Bool.not_true]

/-- An orderly query of `Echo` after the capture. -/
theorem peek_echoTail (hkind : e.kind = .echo) (h : e.first < time)
    (horderly : (e.noteQuery time).strayed = false) (hrelease : e.release = true) (hcaptured : e.captured = true) :
    e.peek eps free time = (e.noteQuery time).echoTail eps time := by
  have hnot : ¬time ≤ (e.noteQuery time).first := h.not_ge
  simp only [Envelope.peek, if_neg hnot, noteQuery_kind, hkind, Envelope.peekLoop, horderly, Bool.false_eq_true,
    if_false, noteQuery_release, noteQuery_captured, hrelease, hcaptured, Bool.and_self, Bool.not_true, if_true]

theorem curveAt_noteQuery (t p : ℚ) : ((e.noteQuery t).curveAt p).1 = (e.curveAt p).1 :=
  curveAt_congr (noteQuery_knots e t) p

end Peek

/-! ## At or before the first knot (R144) -/

/-- Settles O49: the first test of a query is the first knot. -/
theorem peekHoldsTheFirstValue : Obligations.PeekHoldsTheFirstValue := by
  intro e k rest eps time free hknots htime
  have hfirst : e.knotAt 0 = k := knotAt_of_getElem? (by rw [hknots]; rfl)
  have hle : time ≤ e.first := by rwa [Envelope.first, Envelope.timeAt, hfirst]
  rw [peek_of_le_first hle]
  exact ⟨congrArg Knot.value hfirst, rfl⟩

/-! ## Kind `Repeat` (R147, R149) -/

theorem modQ_eq_mul_fract {w : ℚ} (x : ℚ) (hw : w ≠ 0) : modQ x w = w * Int.fract (x / w) := by
  rw [modQ_eq_fract x hw, mul_comm]

theorem lastValue_eq {e : Envelope} {l : Knot} (h : e.knots.getLast? = some l) : e.lastValue = l.value :=
  congrArg Knot.value (knotAt_last h)

section Repeat

variable {e : Envelope} {eps free time : ℚ} (hkind : e.kind = .cycle)
include hkind

theorem peek_cycle_inside (h : e.first < time) (hlast : time < e.last) :
    (e.peek eps free time).1 = (e.curveAt time).1 := by
  have hinside : time < (e.noteQuery time).last := hlast
  rw [peek_cycle hkind h, Envelope.peekCycle, if_pos hinside, answer_fst, curveAt_noteQuery]

theorem peek_cycle_folded (h : e.first < time) (hlast : e.last ≤ time) (hwide : eps < e.width) (heps : 0 ≤ eps) :
    (e.peek eps free time).1 =
      (e.curveAt (e.first + e.width * Int.fract ((time - e.last) / e.width))).1 := by
  have hbeyond : ¬time < (e.noteQuery time).last := hlast.not_gt
  have hnotnarrow : ¬(e.noteQuery time).width ≤ eps := hwide.not_ge
  rw [peek_cycle hkind h, Envelope.peekCycle, if_neg hbeyond, if_neg hnotnarrow, answer_fst, curveAt_noteQuery,
    noteQuery_first, noteQuery_last, noteQuery_width, modQ_eq_mul_fract _ (heps.trans_lt hwide).ne']

/-- A range no wider than the threshold is held. -/
theorem peek_cycle_held (h : e.first < time) (hlast : e.last ≤ time) (hnarrow : e.width ≤ eps) :
    e.peek eps free time = (e.lastValue, e.noteQuery time) := by
  have hbeyond : ¬time < (e.noteQuery time).last := hlast.not_gt
  have hnarrow' : (e.noteQuery time).width ≤ eps := hnarrow
  rw [peek_cycle hkind h, Envelope.peekCycle, if_neg hbeyond, if_pos hnarrow']
  rfl

/-- A time of the curve, one whole length later: it is folded back onto itself. -/
theorem peek_cycle_period (heps : 0 ≤ eps) (h : e.first ≤ time) (hlast : time < e.last) (hwide : eps < e.width)
    (free' : ℚ) : (e.peek eps free' (time + e.width)).1 = (e.curveAt time).1 := by
  have hpos : 0 < e.width := heps.trans_lt hwide
  have hsplit : e.last = e.first + e.width := by rw [Envelope.width]; ring
  have hfract : Int.fract ((time + e.width - e.last) / e.width) = (time - e.first) / e.width := by
    rw [hsplit, show time + e.width - (e.first + e.width) = time - e.first by ring]
    exact Int.fract_eq_self.2 ⟨div_nonneg (by linarith) hpos.le, (div_lt_one hpos).2 (by linarith)⟩
  rw [peek_cycle_folded hkind (by linarith) (by linarith) hwide heps, hfract, mul_div_cancel₀ _ hpos.ne',
    add_sub_cancel]

end Repeat

/-- At or before the first knot the curve holds the first value. -/
theorem curveAt_of_le_first {e : Envelope} {p : ℚ} (h : p ≤ e.first) : (e.curveAt p).1 = e.valueAt 0 := by
  rw [Envelope.curveAt, if_pos h]

/-- Settles O51: inside the curve, folded into it, one period on, and held. -/
theorem repeatIsPeriodic : Obligations.RepeatIsPeriodic := by
  intro e eps time free free' hkind heps d
  refine ⟨peek_cycle_inside hkind, fun h hlast hwide => peek_cycle_folded hkind h hlast hwide heps,
    fun h hlast hwide => ?_, fun l hl h hlast hnarrow => ?_⟩
  · have hlater : (e.peek eps free' (time + d)).1 = (e.curveAt time).1 :=
      peek_cycle_period hkind heps h hlast hwide free'
    rw [hlater]
    rcases h.eq_or_lt with heq | hlt
    · rw [peek_of_le_first heq.ge, curveAt_of_le_first heq.ge]
    · exact peek_cycle_inside hkind hlt hlast
  · rw [peek_cycle_held hkind h hlast hnarrow]
    exact ⟨lastValue_eq hl, rfl⟩

/-! ## The loop (R147, R150) -/

theorem fold_eq {t a b : ℚ} (h : b - a ≠ 0) : fold t a b = a + (b - a) * Int.fract ((t - a) / (b - a)) := by
  rw [fold, modQ_eq_mul_fract _ h]

/-- The fold leaves a time inside the loop where it is. -/
theorem fold_inside {t a b : ℚ} (h : a ≤ t) (h' : t < b) : fold t a b = t := by
  have hpos : 0 < b - a := by linarith
  have hfract : Int.fract ((t - a) / (b - a)) = (t - a) / (b - a) :=
    Int.fract_eq_self.2 ⟨div_nonneg (by linarith) hpos.le, (div_lt_one hpos).2 (by linarith)⟩
  rw [fold_eq hpos.ne', hfract, mul_div_cancel₀ _ hpos.ne', add_sub_cancel]

/-- The fold has the loop's width as period. -/
theorem fold_add_width {a b : ℚ} (t : ℚ) (h : b - a ≠ 0) : fold (t + (b - a)) a b = fold t a b := by
  have hstep : (t + (b - a) - a) / (b - a) = (t - a) / (b - a) + 1 := by field_simp; ring
  rw [fold_eq h, fold_eq h, hstep, Int.fract_add_one]

section Loop

variable {e : Envelope} {a b : Knot}

theorem loopStart_eq (h : e.knots[e.inIndex]? = some a) : e.loopStart = a.time :=
  congrArg Knot.time (knotAt_of_getElem? h)

theorem loopEnd_eq (h : e.knots[e.outIndex]? = some b) : e.loopEnd = b.time :=
  congrArg Knot.time (knotAt_of_getElem? h)

theorem valueAt_outIndex (h : e.knots[e.outIndex]? = some b) : e.valueAt e.outIndex = b.value :=
  congrArg Knot.value (knotAt_of_getElem? h)

end Loop

/-! ## Sustain (R151, R152) -/

/-- The place that sustain reads, and captures when the release is armed, from the start of the loop on. -/
def sustainPlace (eps : ℚ) (e : Envelope) (time : ℚ) : ℚ :=
  if e.loopEnd - e.loopStart ≤ eps then e.loopEnd else fold time e.loopStart e.loopEnd

section Sustain

variable {e : Envelope} {eps time : ℚ}

/-- During the attack sustain changes the head alone, released or not. -/
theorem sustain_attack_snd (h : time < e.loopStart) :
    (e.sustain eps time).2 = { e with head := (e.curveAt time).2 } := by
  rw [Envelope.sustain, if_pos h, answer_snd]

/-- In the loop an armed release is captured at the sustained place (R152). -/
theorem sustain_captures (h : e.loopStart ≤ time) (hrelease : e.release = true) :
    (e.sustain eps time).2.captured = true ∧ (e.sustain eps time).2.relTime = time ∧
      (e.sustain eps time).2.relPos = sustainPlace eps e time := by
  unfold Envelope.sustain sustainPlace Envelope.capture
  rw [if_neg h.not_gt]
  split <;> simp [hrelease]

/-- Without a release nothing is captured. -/
theorem sustain_unreleased (hrelease : e.release = false) :
    (e.sustain eps time).2.captured = e.captured ∧ (e.sustain eps time).2.relTime = e.relTime ∧
      (e.sustain eps time).2.relPos = e.relPos := by
  unfold Envelope.sustain Envelope.capture
  split
  · exact ⟨rfl, rfl, rfl⟩
  · split <;> simp [hrelease]

end Sustain

/-- A query that sustains: of a kind with a loop, after the first knot, in order, and not captured before. -/
structure Sustains (e : Envelope) (time : ℚ) : Prop where
  kind : e.kind = .loopPoints ∨ e.kind = .echo
  first : e.first < time
  strayed : e.strayed = false
  lastQuery : ∀ u, e.lastQuery = some u → u ≤ time
  free : e.release = false ∨ e.captured = false

theorem Sustains.peek_eq {e : Envelope} {time : ℚ} (h : Sustains e time) (eps free : ℚ) :
    e.peek eps free time = (e.noteQuery time).sustain eps time :=
  peek_sustain h.kind h.first ((noteQuery_strayed e time).2 ⟨h.strayed, h.lastQuery⟩) h.free

theorem Sustains.later {e : Envelope} {time u : ℚ} (h : Sustains e time) (hu : time ≤ u) : Sustains e u :=
  { h with first := h.first.trans_le hu, lastQuery := fun v hv => (h.lastQuery v hv).trans hu }

/-- What a query that sustains answers (R151). -/
theorem Sustains.peek_fst {e : Envelope} {time : ℚ} (h : Sustains e time) (eps free : ℚ) :
    (e.peek eps free time).1 =
      if time < e.loopStart then (e.curveAt time).1
      else if e.loopEnd - e.loopStart ≤ eps then e.valueAt e.outIndex
      else (e.curveAt (fold time e.loopStart e.loopEnd)).1 := by
  rw [h.peek_eq, sustain_fst, curveAt_noteQuery, curveAt_noteQuery]
  rfl

/-- Settles O52: sustain reads the attack, then the folded loop or its held end. -/
theorem sustainRepeatsTheLoop : Obligations.SustainRepeatsTheLoop := by
  intro e i o a b eps time free free' hkind hfree hstrayed hlastQuery heps hfirst hi ho ha hb w after
  have hquery : Sustains e time := ⟨hkind, hfirst, hstrayed, hlastQuery, hfree⟩
  have ha' : e.knots[e.inIndex]? = some a := by rw [← ha, hi]; rfl
  have hb' : e.knots[e.outIndex]? = some b := by rw [← hb, ho]; rfl
  have hstart : e.loopStart = a.time := loopStart_eq ha'
  have hend : e.loopEnd = b.time := loopEnd_eq hb'
  have hw : e.loopEnd - e.loopStart = w := by rw [hstart, hend]
  have hafter : after = ((e.noteQuery time).sustain eps time).2 := by rw [← hquery.peek_eq eps free]
  have hfst := hquery.peek_fst eps
  rw [hw, hstart, hend, valueAt_outIndex hb'] at hfst
  refine ⟨fun hattack => ?_, fun hloop hwide => ?_, fun hloop hnarrow => ?_, fun hrelease => ?_⟩
  · have hbefore : time < (e.noteQuery time).loopStart := by rw [noteQuery_loopStart, hstart]; exact hattack
    rw [hfst, if_pos hattack, hafter, sustain_attack_snd hbefore]
    exact ⟨rfl, rfl, rfl, rfl⟩
  · have hpos : 0 < w := heps.trans_lt hwide
    have hfolded (f : ℚ) : (e.peek eps f time).1 = (e.curveAt (fold time a.time b.time)).1 := by
      rw [hfst, if_neg hloop.not_gt, if_neg hwide.not_ge]
    have hlater : Sustains e (time + w) := hquery.later (by linarith)
    refine ⟨?_, fun hinside => ?_, ?_⟩
    · rw [hfolded, fold_eq hpos.ne']
    · rw [hfolded, fold_inside hloop hinside]
    · rw [hlater.peek_fst eps free, hw, hstart, hend, if_neg (by linarith), if_neg hwide.not_ge, hfolded,
        fold_add_width time hpos.ne']
  · rw [hfst, if_neg hloop.not_gt, if_pos hnarrow]
  · rw [hafter]
    exact sustain_unreleased hrelease

/-! ## After the capture (R153, R154) -/

/-- `d` is the envelope `e` after a query at `time` that captured its release at `pos`. -/
structure CapturedAt (e d : Envelope) (time pos : ℚ) : Prop where
  knots : d.knots = e.knots
  kind : d.kind = e.kind
  decay : d.decay = e.decay
  release : d.release = true
  captured : d.captured = true
  relTime : d.relTime = time
  relPos : d.relPos = pos
  lastQuery : d.lastQuery = some time
  strayed : d.strayed = false

/-- The first query of a released envelope that has reached the loop captures the release. -/
theorem Sustains.capturedAt {e : Envelope} {time : ℚ} (h : Sustains e time) (hrelease : e.release = true)
    (hloop : e.loopStart ≤ time) (eps free : ℚ) :
    CapturedAt e (e.peek eps free time).2 time (sustainPlace eps e time) := by
  obtain ⟨hknots, hkind, -, -, hdecay, hrel, hlast, hstrayed⟩ := peek_keeps eps free e time
  obtain ⟨hcaptured, htime, hpos⟩ := sustain_captures (e := e.noteQuery time) (eps := eps) hloop hrelease
  rw [← h.peek_eq eps free] at hcaptured htime hpos
  exact ⟨hknots, hkind, hdecay, hrel.trans hrelease, hcaptured, htime, hpos, hlast,
    hstrayed.trans ((noteQuery_strayed e time).2 ⟨h.strayed, h.lastQuery⟩)⟩

section CapturedQueries

variable {e d : Envelope} {t0 pos t eps free : ℚ} (h : CapturedAt e d t0 pos) (ht : t0 ≤ t)
include h

theorem CapturedAt.curveAt (u p : ℚ) : ((d.noteQuery u).curveAt p).1 = (e.curveAt p).1 := by
  rw [curveAt_noteQuery, curveAt_congr h.knots]

theorem CapturedAt.width_eq : d.width = e.width := by
  rw [Envelope.width, Envelope.width, first_congr h.knots, last_congr h.knots]

include ht

theorem CapturedAt.orderly : (d.noteQuery t).strayed = false := by
  refine (noteQuery_strayed d t).2 ⟨h.strayed, fun u hu => ?_⟩
  rw [h.lastQuery, Option.some.injEq] at hu
  exact hu ▸ ht

variable (hfirst : e.first < t0)
include hfirst

theorem CapturedAt.first_lt : d.first < t := by
  rw [first_congr h.knots]
  exact hfirst.trans_le ht

/-- `LoopPoints` plays on from the captured place (R153). -/
theorem CapturedAt.peek_loopPoints (hkind : e.kind = .loopPoints) :
    (d.peek eps free t).1 = (e.curveAt (pos + (t - t0))).1 := by
  rw [peek_tail (h.kind.trans hkind) (h.first_lt ht hfirst) (h.orderly ht) h.release h.captured, Envelope.tail,
    answer_fst, h.curveAt, noteQuery_relPos, noteQuery_relTime, h.relPos, h.relTime]

variable (hkind : e.kind = .echo)
include hkind

theorem CapturedAt.peek_echo : d.peek eps free t = (d.noteQuery t).echoTail eps t :=
  peek_echoTail (h.kind.trans hkind) (h.first_lt ht hfirst) (h.orderly ht) h.release h.captured

/-- What `Echo` answers after the capture (R154). -/
theorem CapturedAt.peek_echo_fst : (d.peek eps free t).1 =
    if pos + (t - t0) < e.last then (e.curveAt (pos + (t - t0))).1
    else if e.width ≤ eps then e.lastValue
    else (e.curveAt (e.first + modQ (pos + (t - t0) - e.last) e.width)).1 *
      e.decay ^ (1 + ⌊(pos + (t - t0) - e.last) / e.width⌋).toNat := by
  have hlastValue : (d.noteQuery t).lastValue = e.lastValue := by
    simp only [Envelope.lastValue, Envelope.count, noteQuery_knots, h.knots]
    exact valueAt_congr h.knots _
  rw [h.peek_echo ht hfirst hkind, Envelope.echoTail]
  simp only [noteQuery_relPos, noteQuery_relTime, noteQuery_last, noteQuery_width, noteQuery_first, noteQuery_decay,
    h.relPos, h.relTime, last_congr h.knots, first_congr h.knots, h.width_eq, h.decay]
  split
  · rw [answer_fst, h.curveAt]
  · split
    · exact hlastValue
    · rw [answer_fst, h.curveAt]
      rfl

end CapturedQueries

/-- Settles O53: the capture, and then the tail or the echo from the captured place. -/
theorem releaseContinuesFromTheCapturedPlace : Obligations.ReleaseContinuesFromTheCapturedPlace := by
  intro e i o a b eps t0 t free free' hrelease hcaptured hstrayed hlastQuery ht heps hi ho ha hb hfirst hloop e' w
    pos place d
  have ha' : e.knots[e.inIndex]? = some a := by rw [← ha, hi]; rfl
  have hb' : e.knots[e.outIndex]? = some b := by rw [← hb, ho]; rfl
  have hstart : e.loopStart = a.time := loopStart_eq ha'
  have hend : e.loopEnd = b.time := loopEnd_eq hb'
  have hw : e.loopEnd - e.loopStart = w := by rw [hstart, hend]
  have hplace : sustainPlace eps e t0 = pos := by
    rw [sustainPlace, hw, hstart, hend]
    by_cases hwide : eps < w
    · have hpos : 0 < w := heps.trans_lt hwide
      rw [if_neg hwide.not_ge, fold_eq hpos.ne']
      exact (if_pos hwide).symm
    · rw [if_pos (not_lt.1 hwide)]
      exact (if_neg hwide).symm
  have hquery (hkind : e.kind = .loopPoints ∨ e.kind = .echo) : Sustains e t0 :=
    ⟨hkind, hfirst, hstrayed, hlastQuery, .inr hcaptured⟩
  have hcapture (hkind : e.kind = .loopPoints ∨ e.kind = .echo) : CapturedAt e e' t0 pos :=
    hplace ▸ (hquery hkind).capturedAt hrelease (by rwa [hstart]) eps free
  have hecho (hkind : e.kind = .echo) := (hcapture (.inr hkind)).peek_echo_fst (eps := eps) (free := free') ht hfirst
    hkind
  refine ⟨fun hkind => ⟨?_, (hcapture hkind).captured, (hcapture hkind).relTime, (hcapture hkind).relPos⟩,
    fun hkind => (hcapture (.inl hkind)).peek_loopPoints ht hfirst hkind, fun hkind hbefore => ?_,
    fun hkind hafter hwide => ?_, fun l hl hkind hafter hnarrow => ?_⟩
  · rw [(hquery hkind).peek_fst, if_neg (by rw [hstart]; exact hloop.not_gt), hw, valueAt_outIndex hb', hstart,
      hend]
    by_cases hwide : eps < w
    · have hpos : 0 < w := heps.trans_lt hwide
      rw [if_neg hwide.not_ge, if_pos hwide, fold_eq hpos.ne']
      simp only [pos, if_pos hwide]
      rfl
    · rw [if_pos (not_lt.1 hwide), if_neg hwide]
  · exact (hecho hkind).trans (if_pos hbefore)
  · rw [hecho hkind, if_neg (not_lt.2 hafter), if_neg (not_le.2 (show eps < e.width from hwide)),
      modQ_eq_mul_fract _ (heps.trans_lt (show eps < e.width from hwide)).ne']
    rfl
  · rw [hecho hkind, if_neg (not_lt.2 hafter), if_pos (show e.width ≤ eps from hnarrow), lastValue_eq hl]

/-! ## The cached head (R52) -/

/-- Two results of a query that answer the same and leave envelopes that differ at most in the cached head. -/
def SameButHead (r r' : ℚ × Envelope) : Prop :=
  r.1 = r'.1 ∧ { r.2 with head := 0 } = { r'.2 with head := 0 }

/-- Both take the same branch. -/
theorem SameButHead.ite {c : Prop} [Decidable c] {r r' q q' : ℚ × Envelope} (hr : SameButHead r r')
    (hq : SameButHead q q') : SameButHead (if c then r else q) (if c then r' else q') := by
  split
  · exact hr
  · exact hq

section Head

variable (e : Envelope) (head : ℕ) (eps free time : ℚ)

theorem curveAt_setHead (p : ℚ) : ({ e with head := head }.curveAt p).1 = (e.curveAt p).1 :=
  curveAt_congr (e := { e with head := head }) (e' := e) rfl p

theorem answer_sameButHead : SameButHead ({ e with head := head }.answer time) (e.answer time) :=
  ⟨curveAt_setHead e head time, rfl⟩

theorem peekCycle_sameButHead :
    SameButHead ({ e with head := head }.peekCycle eps time) (e.peekCycle eps time) :=
  .ite (answer_sameButHead e head _) (.ite ⟨rfl, rfl⟩ (answer_sameButHead e head _))

/-- The capture carries the head along. -/
theorem capture_head (pos : ℚ) :
    { e with head := head }.capture time pos = { e.capture time pos with head := head } := by
  unfold Envelope.capture
  split <;> rfl

theorem sustain_sameButHead : SameButHead ({ e with head := head }.sustain eps time) (e.sustain eps time) := by
  refine .ite (answer_sameButHead e head _) (.ite ⟨rfl, ?_⟩ ⟨curveAt_setHead e head _, ?_⟩)
  · exact congrArg (fun d : Envelope => { d with head := 0 }) (capture_head e head time _)
  · have hanswer (d : Envelope) (p : ℚ) :
        { (d.answer p).2.capture time p with head := 0 } = { d.capture time p with head := 0 } := by
      rw [answer_snd, capture_head]
    exact (hanswer _ _).trans ((congrArg (fun d : Envelope => { d with head := 0 })
      (capture_head e head time _)).trans (hanswer _ _).symm)

theorem echoTail_sameButHead : SameButHead ({ e with head := head }.echoTail eps time) (e.echoTail eps time) :=
  .ite (answer_sameButHead e head _)
    (.ite ⟨rfl, rfl⟩ ⟨congrArg (· * _) (answer_sameButHead e head _).1, rfl⟩)

theorem peekLoop_sameButHead (echo : Bool) :
    SameButHead ({ e with head := head }.peekLoop eps free time echo) (e.peekLoop eps free time echo) :=
  .ite ⟨rfl, rfl⟩ (.ite (sustain_sameButHead e head eps time)
    (.ite (echoTail_sameButHead e head eps time) (answer_sameButHead e head _)))

end Head

/-- Settles O54: branch by branch, the head goes only into the head. -/
theorem peekIgnoresTheHead : Obligations.PeekIgnoresTheHead := by
  intro e head eps time free
  have hall (d : Envelope) (hd : d = { e with head := head }) :
      SameButHead (d.peek eps free time) (e.peek eps free time) := by
    have hnote : d.noteQuery time = { e.noteQuery time with head := head } := by rw [hd]; rfl
    have hkind : (d.noteQuery time).kind = (e.noteQuery time).kind := by rw [hnote]
    simp only [Envelope.peek, hkind]
    rw [hnote]
    refine .ite ⟨rfl, rfl⟩ ?_
    split
    · exact answer_sameButHead _ head time
    · exact peekCycle_sameButHead _ head eps time
    · exact peekLoop_sameButHead _ head eps free time false
    · exact peekLoop_sameButHead _ head eps free time true
  exact hall _ rfl

end Sys2Proof.Proofs.EnvelopeQueries
end

