-- ==== Sys2Proof/Proofs/Noise.lean ====
section
/-! PROOFS. The noise generator (`44_noise_lfsr.md` R260 to R269): its commands, and the cycle of its step. -/

namespace Sys2Proof.Proofs.Noise

open Sys2Proof Sys2Proof.Machine Sys2Proof.Claim Sys2Proof.Laws
open Sys2Proof.Proofs.ChannelControl (respond_eq_okay)
open Sys2Proof.Proofs.ChannelSample (setChannel_eq_withChannel)
open Sys2Proof.Proofs.Synthesizer (nextWord_eq and_lfsrMask_toNat)

/-! ## The commands (R261, R267 to R269) -/

theorem and_lfsrMask_eq (n : ℕ) (w : Word32) : w &&& lfsrMask n = BitVec.ofNat 32 (w.toNat % 2 ^ n) := by
  rw [← and_lfsrMask_toNat, BitVec.ofNat_toNat, BitVec.setWidth_eq]

theorem and_lfsrMask_eq_zero_iff (n : ℕ) (w : Word32) : w &&& lfsrMask n = 0 ↔ w.toNat % 2 ^ n = 0 := by
  rw [← and_lfsrMask_toNat, ← BitVec.toNat_inj]
  rfl

/-- The seed that a generator of length `n` takes for the word `w` (R261). -/
def seedWord (p : Config.Params) (n : ℕ) (w : Word32) : ℕ :=
  if w.toNat % 2 ^ n = 0 then p.fallbackSeed.toNat % 2 ^ n else w.toNat % 2 ^ n

theorem seedWord_lt (p : Config.Params) (n : ℕ) (w : Word32) : seedWord p n w < 2 ^ 32 := by
  unfold seedWord
  split
  · exact (Nat.mod_le _ _).trans_lt p.fallbackSeed.isLt
  · exact (Nat.mod_le _ _).trans_lt w.isLt

theorem ofNat_seedWord (p : Config.Params) (n : ℕ) (w : Word32) :
    (if w &&& lfsrMask n = 0 then p.fallbackSeed &&& lfsrMask n else w &&& lfsrMask n) =
      BitVec.ofNat 32 (seedWord p n w) := by
  rw [if_congr (and_lfsrMask_eq_zero_iff n w) (and_lfsrMask_eq n _) (and_lfsrMask_eq n w), seedWord,
    apply_ite (BitVec.ofNat 32)]

theorem lfsrNew_eq (p : Config.Params) (len : ℕ) (w : Word32) : lfsrNew p len w =
    { n := max 3 (min 32 len)
      seed := BitVec.ofNat 32 (seedWord p (max 3 (min 32 len)) w)
      state := BitVec.ofNat 32 (seedWord p (max 3 (min 32 len)) w) } :=
  congrArg (fun u => Lfsr.mk (max 3 (min 32 len)) u u) (ofNat_seedWord p _ w)

theorem zext_ofNat {k : ℕ} (h : k < 2 ^ 32) : zext (BitVec.ofNat 32 k) = BitVec.ofNat 64 k := by
  rw [zext_eq, BitVec.toNat_ofNat, Nat.mod_eq_of_lt h]

theorem zext_shiftLeft (w : Word32) (k : ℕ) : zext w <<< k = BitVec.ofNat 64 (w.toNat * 2 ^ k) := by
  apply BitVec.eq_of_toNat_eq
  rw [BitVec.toNat_shiftLeft, zext_eq, BitVec.toNat_ofNat, BitVec.toNat_ofNat, Nat.shiftLeft_eq,
    Nat.mod_eq_of_lt (w.isLt.trans (by norm_num))]

/-- Settles O55: each command, with the register it leaves and the word it answers. -/
theorem noiseCommandsDriveTheGenerator : Obligations.NoiseCommandsDriveTheGenerator := by
  intro ch idx imm s hch c x n seed next
  refine ⟨?_, ?_, ?_⟩
  · rw [exec, execLfsrInit, onChannel_of_lt hch, lfsrNew_eq]
    dsimp only
    rw [zext_ofNat (seedWord_lt _ _ _), respond_eq_okay, setChannel_eq_withChannel]
    rfl
  · rw [exec, execLfsrStep, onChannel_of_lt hch, Lfsr.step, ← nextWord_eq]
    dsimp only
    rw [zext_eq, respond_eq_okay, setChannel_eq_withChannel]
  · rw [exec, execLfsrOut, onChannel_of_lt hch]
    dsimp only
    rw [zext_shiftLeft, respond_eq_okay]

/-! ## The step on the words of a length (R262, R265, R266) -/

section Cycle

variable {p : Config.Params} {n : ℕ} (hp : p.Legal) (h3 : 3 ≤ n) (h32 : n ≤ 32)

theorem lfsrNext_zero (p : Config.Params) (n : ℕ) : lfsrNext p n 0 = 0 := by
  unfold lfsrNext
  simp

include hp h3 h32

theorem lfsrNext_eq_zero_iff {w : Word32} (hw : w.toNat < 2 ^ n) : lfsrNext p n w = 0 ↔ w = 0 := by
  constructor
  · intro h
    by_contra hne
    exact lfsrNext_ne hp h3 h32 hw hne h
  · rintro rfl
    exact lfsrNext_zero p n

/-- After `2 ^ n - 1` steps every word of the length is back, zero included. -/
theorem lfsrNext_iterate_period {w : Word32} (hw : w.toNat < 2 ^ n) : (lfsrNext p n)^[2 ^ n - 1] w = w := by
  by_cases h0 : w = 0
  · subst h0
    exact Function.iterate_fixed (lfsrNext_zero p n) _
  · exact hp.taps_close n h3 h32 w h0 hw

/-- Steps that come back do not merge two words. -/
theorem lfsrNext_injOn {v w : Word32} (hv : v.toNat < 2 ^ n) (hw : w.toNat < 2 ^ n)
    (h : lfsrNext p n v = lfsrNext p n w) : v = w := by
  obtain ⟨k, hk⟩ : ∃ k, 2 ^ n - 1 = k + 1 :=
    ⟨2 ^ n - 2, by have := Nat.pow_le_pow_right two_pos h3; omega⟩
  calc v = (lfsrNext p n)^[k + 1] v := by rw [← hk, lfsrNext_iterate_period hp h3 h32 hv]
    _ = (lfsrNext p n)^[k + 1] w := by rw [Function.iterate_succ_apply, h, Function.iterate_succ_apply]
    _ = w := by rw [← hk, lfsrNext_iterate_period hp h3 h32 hw]

/-- The non-zero words of the length are closed under steps. -/
theorem lfsrNext_iterate_mem {v : Word32} (h0 : v ≠ 0) (hv : v.toNat < 2 ^ n) (k : ℕ) :
    (lfsrNext p n)^[k] v ≠ 0 ∧ ((lfsrNext p n)^[k] v).toNat < 2 ^ n := by
  induction k with
  | zero => exact ⟨h0, hv⟩
  | succ k ih =>
    obtain ⟨ihne, ihlt⟩ := ih
    rw [Function.iterate_succ_apply']
    exact ⟨lfsrNext_ne hp h3 h32 ihlt ihne, lfsrNext_lt hp h3 h32 ihlt⟩

theorem minimalPeriod_lfsrNext {v : Word32} (h0 : v ≠ 0) (hv : v.toNat < 2 ^ n) :
    Function.minimalPeriod (lfsrNext p n) v = 2 ^ n - 1 := by
  have hpos : 0 < 2 ^ n - 1 := by have := Nat.pow_le_pow_right two_pos h3; omega
  have hback : Function.IsPeriodicPt (lfsrNext p n) (2 ^ n - 1) v := hp.taps_close n h3 h32 v h0 hv
  refine (hback.minimalPeriod_le hpos).antisymm (not_lt.1 fun hlt => ?_)
  exact hp.taps_maximal n h3 h32 v h0 hv _ (hback.minimalPeriod_pos hpos) hlt
    (Function.isPeriodicPt_minimalPeriod (lfsrNext p n) v)

theorem lfsrNext_iterate_injOn {v : Word32} (h0 : v ≠ 0) (hv : v.toNat < 2 ^ n) :
    Set.InjOn (fun k => (lfsrNext p n)^[k] v) (Set.Iio (2 ^ n - 1)) := by
  have h := Function.iterate_injOn_Iio_minimalPeriod (f := lfsrNext p n) (x := v)
  rwa [minimalPeriod_lfsrNext hp h3 h32 h0 hv] at h

/-- The `2 ^ n - 1` words reached from one are as many as there are, so they are all of them. -/
theorem exists_lfsrNext_iterate_eq {v w : Word32} (hv0 : v ≠ 0) (hw0 : w ≠ 0) (hv : v.toNat < 2 ^ n)
    (hw : w.toNat < 2 ^ n) : ∃ k < 2 ^ n - 1, (lfsrNext p n)^[k] v = w := by
  have hpos (u : Word32) (hu : u ≠ 0) : 1 ≤ u.toNat := by bv_omega
  have hmaps : Set.MapsTo (fun k => ((lfsrNext p n)^[k] v).toNat) (Finset.range (2 ^ n - 1)) (Finset.Ico 1 (2 ^ n)) := by
    intro k _
    obtain ⟨hne, hlt⟩ := lfsrNext_iterate_mem hp h3 h32 hv0 hv k
    exact Finset.mem_coe.2 (Finset.mem_Ico.2 ⟨hpos _ hne, hlt⟩)
  have hinj : Set.InjOn (fun k => ((lfsrNext p n)^[k] v).toNat) (Finset.range (2 ^ n - 1)) := by
    rw [Finset.coe_range]
    exact fun j hj k hk h => lfsrNext_iterate_injOn hp h3 h32 hv0 hv hj hk (BitVec.eq_of_toNat_eq h)
  have hsurj := Finset.surjOn_of_injOn_of_card_le _ hmaps hinj (by simp)
  obtain ⟨k, hk, heq⟩ := hsurj (Finset.mem_coe.2 (Finset.mem_Ico.2 ⟨hpos w hw0, hw⟩))
  exact ⟨k, Finset.mem_range.1 hk, BitVec.eq_of_toNat_eq heq⟩

end Cycle

/-- Settles O56: the step keeps the length and the zero word, and its period makes it injective. -/
theorem generatorStepPermutesTheWords : Obligations.GeneratorStepPermutesTheWords := fun _ _ hp h3 h32 =>
  ⟨fun _ => lfsrNext_lt hp h3 h32, fun _ => lfsrNext_eq_zero_iff hp h3 h32, fun _ _ => lfsrNext_injOn hp h3 h32⟩

/-- Settles O57: an orbit of full length holds every non-zero word once; the default taps are legal. -/
theorem generatorPeriodIsMaximal : Obligations.GeneratorPeriodIsMaximal := by
  constructor
  · intro p n v w hp h3 h32 hv0 hw0 hv hw
    obtain ⟨k, hk, heq⟩ := exists_lfsrNext_iterate_eq hp h3 h32 hv0 hw0 hv hw
    exact ⟨k, hk, heq, fun j hj hj' => lfsrNext_iterate_injOn hp h3 h32 hv0 hv hj hk (hj'.trans heq.symm)⟩
  · intro n hn
    have hlength : 3 ≤ n ∧ n ≤ 32 := by simp at hn; omega
    obtain ⟨h3, h32⟩ := hlength
    have hone : (1 : Word32).toNat < 2 ^ n := Nat.one_lt_two_pow (by omega)
    exact ⟨defaults_legal.taps_close n h3 h32 1 (by decide) hone,
      defaults_legal.taps_maximal n h3 h32 1 (by decide) hone⟩

end Sys2Proof.Proofs.Noise
end

