-- ==== Sys2Proof/Proofs/Quantization.lean ====
section
/-! PROOFS. Range quantization (`40_math_utilities.md` R121 to R123): its levels, and the one it takes. -/

namespace Sys2Proof.Proofs.Quantization

open Sys2Proof Sys2Proof.Machine Sys2Proof.Laws

/-- A tie goes up, as in Mathlib's `round` (R121). -/
theorem roundHalfUp_eq_round (x : ℚ) : roundHalfUp x = round x := (round_eq x).symm

theorem quantize_reversed {steps : ℕ} {lo hi : ℚ} (v : ℚ) (hs : 2 ≤ steps) (h : hi ≤ lo) :
    quantize v steps lo hi = lo := by
  rw [quantize, if_neg hs.not_gt, if_pos h]

/-- The value at a place on the scale of the levels: level `k` at the place `k`. -/
def valueOfPlace (steps : ℕ) (lo hi k : ℚ) : ℚ := lo + k * (hi - lo) / ((steps : ℚ) - 1)

/-- The place of a value on the scale of the levels. -/
def placeOfValue (steps : ℕ) (lo hi v : ℚ) : ℚ := (v - lo) / (hi - lo) * ((steps : ℚ) - 1)

section ProperRange

variable {steps : ℕ} {lo hi : ℚ} (hs : 2 ≤ steps) (h : lo < hi)
include hs

theorem lastPlace_pos : 0 < (steps : ℚ) - 1 := by
  have hcast : (2 : ℚ) ≤ steps := by exact_mod_cast hs
  linarith

include h

theorem quantize_eq_valueOfPlace (v : ℚ) : quantize v steps lo hi =
    valueOfPlace steps lo hi (round (placeOfValue steps lo hi (clamp v lo hi))) := by
  rw [quantize, if_neg hs.not_gt, if_neg h.not_ge, valueOfPlace, placeOfValue, ← roundHalfUp_eq_round]

theorem placeOfValue_valueOfPlace (k : ℚ) : placeOfValue steps lo hi (valueOfPlace steps lo hi k) = k := by
  have hlast := (lastPlace_pos hs).ne'
  have hwidth : hi - lo ≠ 0 := (sub_pos.2 h).ne'
  rw [placeOfValue, valueOfPlace]
  field_simp
  ring

theorem valueOfPlace_placeOfValue (v : ℚ) : valueOfPlace steps lo hi (placeOfValue steps lo hi v) = v := by
  have hlast := (lastPlace_pos hs).ne'
  have hwidth : hi - lo ≠ 0 := (sub_pos.2 h).ne'
  rw [placeOfValue, valueOfPlace]
  field_simp
  ring

/-- Distances on the scale are the distances of the values over the step. -/
theorem abs_valueOfPlace_sub (j k : ℚ) : |valueOfPlace steps lo hi j - valueOfPlace steps lo hi k| =
    |j - k| * ((hi - lo) / ((steps : ℚ) - 1)) := by
  have hstep : 0 ≤ (hi - lo) / ((steps : ℚ) - 1) := div_nonneg (sub_pos.2 h).le (lastPlace_pos hs).le
  have hdiff : valueOfPlace steps lo hi j - valueOfPlace steps lo hi k =
      (j - k) * ((hi - lo) / ((steps : ℚ) - 1)) := by
    rw [valueOfPlace, valueOfPlace]
    ring
  rw [hdiff, abs_mul, abs_of_nonneg hstep]

theorem valueOfPlace_mem {k : ℚ} (hk0 : 0 ≤ k) (hk : k ≤ (steps : ℚ) - 1) :
    lo ≤ valueOfPlace steps lo hi k ∧ valueOfPlace steps lo hi k ≤ hi := by
  have hlast := lastPlace_pos hs
  have hwidth : 0 < hi - lo := sub_pos.2 h
  have hoffset : k * (hi - lo) / ((steps : ℚ) - 1) ≤ hi - lo := by
    rw [div_le_iff₀ hlast, mul_comm]
    exact mul_le_mul_of_nonneg_left hk hwidth.le
  have hnonneg : 0 ≤ k * (hi - lo) / ((steps : ℚ) - 1) := by positivity
  rw [valueOfPlace]
  exact ⟨by linarith, by linarith⟩

/-- A level quantizes to itself. -/
theorem quantize_level {k : ℕ} (hk : k < steps) :
    quantize (valueOfPlace steps lo hi k) steps lo hi = valueOfPlace steps lo hi k := by
  have hplace : (k : ℚ) ≤ (steps : ℚ) - 1 := by
    have hcast : ((k + 1 : ℕ) : ℚ) ≤ steps := Nat.cast_le.2 hk
    push_cast at hcast
    linarith
  obtain ⟨hlo, hhi⟩ := valueOfPlace_mem hs h k.cast_nonneg hplace
  rw [quantize_eq_valueOfPlace hs h, clamp_of_mem hlo hhi, placeOfValue_valueOfPlace hs h, round_natCast,
    Int.cast_natCast]

/-- Every result is a level. -/
theorem exists_quantize_eq_level (v : ℚ) :
    ∃ k < steps, quantize v steps lo hi = valueOfPlace steps lo hi (k : ℚ) := by
  have hlast := lastPlace_pos hs
  have hwidth : 0 < hi - lo := sub_pos.2 h
  have hsplit : (steps : ℚ) - 1 = (steps - 1 : ℕ) := (Nat.cast_pred (by omega)).symm
  have hplace0 : 0 ≤ placeOfValue steps lo hi (clamp v lo hi) :=
    mul_nonneg (div_nonneg (sub_nonneg.2 (clamp_ge v)) hwidth.le) hlast.le
  have hplace : placeOfValue steps lo hi (clamp v lo hi) ≤ (steps - 1 : ℕ) := by
    rw [← hsplit]
    refine mul_le_of_le_one_left hlast.le ((div_le_one hwidth).2 ?_)
    linarith [clamp_le v h.le]
  obtain ⟨hk0, hk⟩ := roundHalfUp_mem hplace0 hplace
  rw [roundHalfUp_eq_round] at hk0 hk
  obtain ⟨k, hround⟩ := Int.eq_ofNat_of_zero_le hk0
  refine ⟨k, by omega, ?_⟩
  rw [quantize_eq_valueOfPlace hs h, hround, Int.cast_natCast]

/-- The result is a level nearest to a value of the range. -/
theorem abs_sub_quantize_le {v : ℚ} (hlo : lo ≤ v) (hhi : v ≤ hi) (k : ℤ) :
    |v - quantize v steps lo hi| ≤ |v - valueOfPlace steps lo hi k| := by
  have hstep : 0 ≤ (hi - lo) / ((steps : ℚ) - 1) := div_nonneg (sub_pos.2 h).le (lastPlace_pos hs).le
  have hdist (j : ℚ) : |v - valueOfPlace steps lo hi j| =
      |placeOfValue steps lo hi v - j| * ((hi - lo) / ((steps : ℚ) - 1)) := by
    rw [← abs_valueOfPlace_sub hs h, valueOfPlace_placeOfValue hs h]
  rw [quantize_eq_valueOfPlace hs h, clamp_of_mem hlo hhi, hdist, hdist]
  exact mul_le_mul_of_nonneg_right (round_le _ k) hstep

end ProperRange

/-- With one step, with a reversed range, and at a level there is nothing left to quantize. -/
theorem quantize_quantize (v lo hi : ℚ) (steps : ℕ) :
    quantize (quantize v steps lo hi) steps lo hi = quantize v steps lo hi := by
  rcases lt_or_ge steps 2 with hs | hs
  · rw [quantize_small _ lo hi hs]
  · rcases le_or_gt hi lo with hrange | hrange
    · rw [quantize_reversed _ hs hrange, quantize_reversed _ hs hrange]
    · obtain ⟨k, hk, hlevel⟩ := exists_quantize_eq_level hs hrange v
      rw [hlevel, quantize_level hs hrange hk]

/-- Settles O58: the results are the levels, and rounding takes a nearest place. -/
theorem quantizeReachesExactlyItsLevels : Obligations.QuantizeReachesExactlyItsLevels := by
  refine ⟨quantize_quantize, fun lo hi steps hs h y => ⟨?_, ?_⟩, fun v lo hi steps k hs h hlo hhi _ => ?_⟩
  · rintro ⟨v, rfl⟩
    exact exists_quantize_eq_level hs h v
  · rintro ⟨k, hk, rfl⟩
    exact ⟨_, quantize_level hs h hk⟩
  · exact abs_sub_quantize_le hs h hlo hhi k

end Sys2Proof.Proofs.Quantization
end
